-- ==== Sys2Proof/Word.lean ====
section
/-!
DEFINITION. Word.lean: the two word types of the block. Every value of the block is an unsigned
number of a stated width (00_scope.md, notation "Values"): a byte of a frame or of the scratch RAM is
a `Byte`, a register and the data lines of the bus are a `Word`. The narrower fields are written with
their width where they stand.
-/

namespace Sys2Proof

/-- A byte: one wire byte, one scratch byte, one status-FIFO entry. -/
abbrev Byte := BitVec 8

/-- A 32-bit register value, command word or bus data value. -/
abbrev Word := BitVec 32

end Sys2Proof
end

