-- ==== Sys2Proof/Config.lean ====
section
/-!
DEFINITION. Config.lean: the block's fixed parameters (R7) and the values the spec leaves OPEN.
A parameter with a value is a number R7 states. An OPEN parameter is an `opaque` constant with no
body, so that nothing proved about the model can depend on what it is.
`BASE` is an argument of `Sys2Proof.Machine.windowOffset` (Machine/Ops.lean) and not a constant.
-/

namespace Sys2Proof.Config

/-- `SHORT_LEN` (R7): payload bytes of an SOH frame. -/
abbrev shortLen : Nat := 176

/-- `LONG_LEN` (R7): payload bytes of an STX frame. -/
abbrev longLen : Nat := 1024

/-- `SFIFO_DEPTH` (R7, R104). -/
abbrev sfifoDepth : Nat := 8

/-- `SCRATCH_SIZE` (R7, R39): bytes of scratch RAM. -/
abbrev scratchSize : Nat := 65536

/-- `T_SIGA_MS` (R7, R68). -/
abbrev tSigaMs : Nat := 1000

/-- `TQ_DEPTH` (R7, R111): tasks in the queue, the active one included. -/
abbrev tqDepth : Nat := 4

/-- `RXQ_DEPTH` (R7, R130): bytes in the receive ring. -/
abbrev rxqDepth : Nat := 2048

/-- `PAD_BYTE` (R7, R92). -/
abbrev padByte : Byte := 0x1A

/-- `SEQ_INIT` (R7, R90): first block number in each direction. -/
abbrev seqInit : Byte := 0x01

/-- `RETRY_MAX` after RESET (R7, R19). -/
abbrev retryMaxReset : BitVec 8 := 10

/-- `T_ACK_MS` after RESET (R7, R20). -/
abbrev tAckReset : BitVec 16 := 1000

/-- `T_RX_MS` after RESET (R7, R21). -/
abbrev tRxReset : BitVec 16 := 1000

/-- OPEN `RESET_BAUD` (R7, R134, item I4): the link rate after RESET. Log entry 9 (safe). -/
opaque resetBaud : Word

/-- The configuration field `crc16` (R61, item I7): the payload checksum of a block that was built with another
function than the default CRC-16/XMODEM. Log entry 6 (safe). -/
opaque crc16 (payload : List Byte) : BitVec 16

/-- OPEN `link_set_ok` (R7, R133, item I5): the link's answer to reconfiguration attempt number
`attempt` at rate `rate`, where the environment has supplied no answer in `Env.linkAnswers`. Log
entry 9 (safe). -/
opaque linkSetOk (attempt : Nat) (rate : Word) : Bool

/-- Free value (R151, item I1): what scratch byte `k` holds after reset number `resets` (0 is the state
after power-on reset) for as long as nothing has written it. Log entries 1 and 11 (safe). -/
opaque scratchAfterReset (resets k : Nat) : Byte

end Sys2Proof.Config
end

