-- ==== Sys2Proof/Syntax.lean ====
section
/-!
DEFINITION. Syntax.lean: what the block decodes, one constructor of `Instr` per row of the opcode
table (30_encoding.md §5): the commands written to CMD, the received byte classes, the two data
frames, the pin events and the bus accesses. `Input` is one agent's step (R8, R9) as it stands at the
block's pins (R129).
-/

namespace Sys2Proof

/-- Width of a bus access in bytes (R129: size 1/2/4). -/
inductive Size where
  | b1 | b2 | b4
  deriving DecidableEq, Repr

/-- One CPU access at the bus port (R129): a 17-bit offset from BASE, a width, and for a write 32 data
lines, of which a narrower write uses the low ones (R43). -/
inductive BusAccess where
  | read (size : Size) (off : BitVec 17)
  | write (size : Size) (off : BitVec 17) (data : Word)
  deriving DecidableEq, Repr

/-- One step of one of the four agents of R8: a CPU access, a byte from the link, a tick, a reset. -/
inductive Input where
  | bus (a : BusAccess)
  | rxByte (b : Byte)
  | msTick
  | reset
  deriving DecidableEq, Repr

/-- The registers of the register page (R17). -/
inductive Reg where
  | ctrl | retry | tack | trx | cmd | taskOff | taskLen | baudReq | status | err | seq | curBaud
  | now | lastRecv | lastSend | xfer | frame | evt | evtClr | sfifo | rxcnt
  deriving DecidableEq, Repr

/-- The six valid command operations (R54). -/
inductive CmdOp where
  | init | deinit | poll | submitRead | submitWrite | baudSet
  deriving DecidableEq, Repr

/-- The row names of the opcode table. The docstring of a constructor names its row and its rule. -/
inductive Instr where
  /-- INIT (R117). -/
  | init
  /-- DEINIT (R118). -/
  | deinit
  /-- POLL (R119). -/
  | poll
  /-- SUBMIT_READ (R122). -/
  | submitRead
  /-- SUBMIT_WRITE (R123). -/
  | submitWrite
  /-- BAUD_SET (R124). -/
  | baudSet
  /-- CMD_INVALID (R126): any other command word. -/
  | cmdInvalid (w : Word)
  /-- SOH (R74) at header position. -/
  | soh
  /-- STX (R75) at header position. -/
  | stx
  /-- ACK (R76) at header position. -/
  | ack
  /-- NAK (R77) at header position. -/
  | nak
  /-- CAN (R78) at header position. -/
  | can
  /-- SIG_A (R79) at header position. -/
  | sigA
  /-- NOISE (R80): every other byte at header position. -/
  | noise (b : Byte)
  /-- SIG_C (R69) while DETECTING. -/
  | sigC
  /-- DETECT_OTHER (R70): every other byte while DETECTING. -/
  | detectOther (b : Byte)
  /-- FRAME_BYTE (R81): any byte inside a frame. -/
  | frameByte (b : Byte)
  /-- FRAME_SHORT (R58, R82): a whole SOH frame received. -/
  | frameShort (blk nblk : Byte) (payload : List Byte) (crcLo crcHi : Byte)
  /-- FRAME_LONG (R58, R82): a whole STX frame received. -/
  | frameLong (blk nblk : Byte) (payload : List Byte) (crcLo crcHi : Byte)
  /-- RESET (R151). -/
  | reset
  /-- MS_TICK (R131). -/
  | msTick
  /-- RX_BYTE (R130). -/
  | rxByte (b : Byte)
  /-- REG_READ (R17): a 32-bit read of a listed register other than SFIFO. -/
  | regRead (r : Reg)
  /-- REG_WRITE (R17): a 32-bit write of a listed register other than CMD, ERR and EVT_CLR. -/
  | regWrite (r : Reg) (v : Word)
  /-- CMD_WRITE (R22). -/
  | cmdWrite (w : Word)
  /-- ERR_W1C (R27). -/
  | errW1c (v : Word)
  /-- EVT_CLR (R34). -/
  | evtClr (v : Word)
  /-- SFIFO_POP (R107). -/
  | sfifoPop
  /-- SCR_READ (R43), the misaligned form included. -/
  | scrRead (size : Size) (k : BitVec 16)
  /-- SCR_WRITE (R43), the misaligned form included. -/
  | scrWrite (size : Size) (k : BitVec 16) (v : Word)
  /-- REG_BAD_ACCESS (R41): a register-page access that is not 32 bits wide or not aligned. -/
  | regBadAccess (a : BusAccess)
  /-- REG_UNMAPPED (R42): an aligned 32-bit access to an offset R17 does not list. -/
  | regUnmapped (a : BusAccess)
  deriving DecidableEq, Repr

end Sys2Proof
end

