-- ==== Sys2Proof/Machine/Codes.lean ====
section
/-!
DEFINITION. Machine/Codes.lean: the code tables of the spec that the well-formedness checks, the decoder and
the encoder all read: register offsets (R17), command codes (R54), the byte values with a row of their
own (R57), and the shape of a bus access (R39, R41).
-/

namespace Sys2Proof

/-! ## Bus accesses -/

/-- Number of bytes of an access. -/
def Size.bytes : Size → Nat
  | .b1 => 1
  | .b2 => 2
  | .b4 => 4

/-- The width of an access. -/
def BusAccess.size : BusAccess → Size
  | .read size _ => size
  | .write size _ _ => size

/-- The offset of an access from BASE. -/
def BusAccess.off : BusAccess → BitVec 17
  | .read _ off => off
  | .write _ off _ => off

/-! ## Registers -/

/-- The offset of a register (R17, column "offset"). -/
def Reg.offset : Reg → BitVec 17
  | .ctrl => 0x000 | .retry => 0x004 | .tack => 0x008 | .trx => 0x00C | .cmd => 0x010
  | .taskOff => 0x014 | .taskLen => 0x018 | .baudReq => 0x01C | .status => 0x020 | .err => 0x024
  | .seq => 0x028 | .curBaud => 0x02C | .now => 0x030 | .lastRecv => 0x034 | .lastSend => 0x038
  | .xfer => 0x03C | .frame => 0x040 | .evt => 0x044 | .evtClr => 0x048 | .sfifo => 0x04C
  | .rxcnt => 0x050

/-- Every register, in the order of R17. -/
def Reg.all : List Reg :=
  [.ctrl, .retry, .tack, .trx, .cmd, .taskOff, .taskLen, .baudReq, .status, .err, .seq, .curBaud,
   .now, .lastRecv, .lastSend, .xfer, .frame, .evt, .evtClr, .sfifo, .rxcnt]

/-! ## Commands -/

/-- The `OP` code of an operation (R54, column "OP"). -/
def CmdOp.code : CmdOp → BitVec 8
  | .init => 0x01 | .deinit => 0x02 | .poll => 0x03 | .submitRead => 0x10 | .submitWrite => 0x11
  | .baudSet => 0x20

/-- Every valid operation. -/
def CmdOp.all : List CmdOp := [.init, .deinit, .poll, .submitRead, .submitWrite, .baudSet]

/-! ## Row checks -/

/-- The header-position byte values that have a row of their own (R57, R73, R79). -/
def headerRowBytes : List Byte := [0x01, 0x02, 0x06, 0x15, 0x18, 0x41]

/-- A command word of R54's table: `OP` one of the six codes and bits [23:0] zero. -/
def validCommandWord (w : Word) : Bool :=
  w.extractLsb' 0 24 == 0 && CmdOp.all.any (fun o => o.code == w.extractLsb' 24 8)

/-- The access is 32 bits wide and has offset bits [1:0] = 0 (R41). -/
def BusAccess.wordAligned (a : BusAccess) : Bool :=
  a.size == .b4 && a.off.extractLsb' 0 2 == 0

/-- The access falls in the register page, offsets 0x00000-0x0FFFF (R39). -/
def BusAccess.inRegisterPage (a : BusAccess) : Bool := a.off.extractLsb' 16 1 == 0

/-- The offset is one R17 lists. -/
def listedOffset (off : BitVec 17) : Bool := Reg.all.any (fun r => r.offset == off)

end Sys2Proof
end

