-- ==== Sys2Proof/WellFormed.lean ====
section
/-!
DEFINITION. WellFormed.lean: which terms of `Instr` stand for something the block can meet. A row
that the table defines as "every value not matched by another row" is well formed only for such a
value; a frame has its declared payload length (R58); a register access row excludes the registers
that have a row of their own.
-/

namespace Sys2Proof

/-- Well-formedness of an instruction term. -/
def Instr.wellFormed : Instr → Bool
  | .init | .deinit | .poll | .submitRead | .submitWrite | .baudSet => true
  | .cmdInvalid w => !validCommandWord w
  | .soh | .stx | .ack | .nak | .can | .sigA => true
  | .noise b => !headerRowBytes.contains b
  | .sigC => true
  | .detectOther b => b != 0x43
  | .frameByte _ => true
  | .frameShort _ _ payload _ _ => payload.length == Config.shortLen
  | .frameLong _ _ payload _ _ => payload.length == Config.longLen
  | .reset | .msTick | .rxByte _ => true
  | .regRead r => r != .sfifo
  | .regWrite r _ => r != .cmd && r != .err && r != .evtClr
  | .cmdWrite _ | .errW1c _ | .evtClr _ | .sfifoPop => true
  | .scrRead _ _ | .scrWrite _ _ _ => true
  | .regBadAccess a => a.inRegisterPage && !a.wordAligned
  | .regUnmapped a => a.inRegisterPage && a.wordAligned && !listedOffset a.off

end Sys2Proof
end

