-- ==== Sys2Proof/Decode.lean ====
section
/-!
DEFINITION. Decode.lean: the decoders of 30_encoding.md, each total, then the encoder written from
the same tables. There are four input formats: `CMD32` (R54), `WIRE8` (R57, R72, R73), `FRAME` (R58)
and the `BUS`/`PIN` inputs (20_memory.md, 44_link_pins.md). Only a byte sequence that is no frame has
no instruction; it is rejected by name.
-/

namespace Sys2Proof

/-! ## Formats -/

/-- The three contexts in which P1 drains a byte (R72): DETECTING, CONNECTED with the deframer in HUNT
(header position), CONNECTED inside a frame. -/
inductive WireCtx where
  | detecting | header | inFrame
  deriving DecidableEq, Repr

/-- What a decoder is given. -/
inductive Image where
  /-- A word written to CMD. -/
  | cmd32 (w : Word)
  /-- A byte drained in P1, with the context it meets. -/
  | wire8 (ctx : WireCtx) (b : Byte)
  /-- A whole frame, position 0 first. -/
  | frame (bytes : List Byte)
  /-- A bus access or a pin event. -/
  | input (i : Input)
  deriving DecidableEq, Repr

/-- Why a byte sequence is no frame (R58, R59). -/
inductive DecodeError where
  /-- No header byte. -/
  | emptyFrame
  /-- The first byte is neither SOH nor STX. -/
  | notAHeader (b : Byte)
  /-- The number of bytes is not `L + 5` for the header's `L`. -/
  | wrongLength (n : Nat)
  deriving DecidableEq, Repr

/-! ## CMD32 -/

/-- R54: the operation an `OP` code names. -/
def opOfCode (code : BitVec 8) : Option CmdOp :=
  if code = 0x01 then some .init
  else if code = 0x02 then some .deinit
  else if code = 0x03 then some .poll
  else if code = 0x10 then some .submitRead
  else if code = 0x11 then some .submitWrite
  else if code = 0x20 then some .baudSet
  else none

/-- R54: `w[23:0]` must be 0 and `w[31:24]` is `OP`. `none` is INVALID. -/
def decodeOp (w : Word) : Option CmdOp :=
  if w.extractLsb' 0 24 = 0 then opOfCode (w.extractLsb' 24 8) else none

/-- R54 with R126: the row of a command word. -/
def decodeCmd (w : Word) : Instr :=
  match decodeOp w with
  | some .init => .init
  | some .deinit => .deinit
  | some .poll => .poll
  | some .submitRead => .submitRead
  | some .submitWrite => .submitWrite
  | some .baudSet => .baudSet
  | none => .cmdInvalid w

/-! ## WIRE8 -/

/-- R57, R73: the row of a byte at header position. -/
def decodeHeaderByte (b : Byte) : Instr :=
  if b = 0x01 then .soh
  else if b = 0x02 then .stx
  else if b = 0x06 then .ack
  else if b = 0x15 then .nak
  else if b = 0x18 then .can
  else if b = 0x41 then .sigA
  else .noise b

/-- R72: the row of a drained byte in its context. -/
def decodeWire : WireCtx → Byte → Instr
  | .detecting, b => if b = 0x43 then .sigC else .detectOther b
  | .header, b => decodeHeaderByte b
  | .inFrame, b => .frameByte b

/-! ## FRAME -/

/-- R58: the fields of a frame after its header byte, for payload length `len`. -/
def decodeFrameBody (len : Nat) (mk : Byte → Byte → List Byte → Byte → Byte → Instr)
    (body : List Byte) : Except DecodeError Instr :=
  match body with
  | blk :: nblk :: rest =>
    match rest.drop len with
    | [crcLo, crcHi] => .ok (mk blk nblk (rest.take len) crcLo crcHi)
    | _ => .error (.wrongLength (body.length + 1))
  | _ => .error (.wrongLength (body.length + 1))

/-- R58, R59: the header byte alone fixes the length. -/
def decodeFrame : List Byte → Except DecodeError Instr
  | [] => .error .emptyFrame
  | h :: body =>
    if h = 0x01 then decodeFrameBody Config.shortLen .frameShort body
    else if h = 0x02 then decodeFrameBody Config.longLen .frameLong body
    else .error (.notAHeader h)

/-! ## BUS and PIN -/

/-- R17: the register at an offset. -/
def regAt (off : BitVec 17) : Option Reg := Reg.all.find? (fun r => r.offset == off)

/-- R17: the row of an aligned 32-bit access to a listed register. -/
def decodeRegAccess (r : Reg) : BusAccess → Instr
  | .read _ _ => if r = .sfifo then .sfifoPop else .regRead r
  | .write _ _ data =>
    if r = .cmd then .cmdWrite data
    else if r = .err then .errW1c data
    else if r = .evtClr then .evtClr data
    else .regWrite r data

/-- R43: the row of a scratch-window access; bus offset `0x10000 + k` is scratch byte `k` (R39). -/
def decodeScratchAccess : BusAccess → Instr
  | .read size off => .scrRead size (off.setWidth 16)
  | .write size off data => .scrWrite size (off.setWidth 16) data

/-- R39, R41, R42, R43: every access at the bus port has exactly one row. -/
def decodeBus (a : BusAccess) : Instr :=
  if a.inRegisterPage then
    if a.wordAligned then
      match regAt a.off with
      | some r => decodeRegAccess r a
      | none => .regUnmapped a
    else .regBadAccess a
  else decodeScratchAccess a

/-- The row of one agent step. -/
def decodeInput : Input → Instr
  | .bus a => decodeBus a
  | .rxByte b => .rxByte b
  | .msTick => .msTick
  | .reset => .reset

/-- The decoder: total on every image, and rejecting by name what is no instruction. -/
def decode : Image → Except DecodeError Instr
  | .cmd32 w => .ok (decodeCmd w)
  | .wire8 ctx b => .ok (decodeWire ctx b)
  | .frame bytes => decodeFrame bytes
  | .input i => .ok (decodeInput i)

/-! ## Encoder -/

/-- R54: `match = OP << 24`. -/
def CmdOp.word (o : CmdOp) : Word := o.code ++ (0 : BitVec 24)

/-- R58: the bytes of a frame, position 0 first. -/
def frameBytes (header blk nblk : Byte) (payload : List Byte) (crcLo crcHi : Byte) : List Byte :=
  header :: blk :: nblk :: payload ++ [crcLo, crcHi]

/-- R39: the bus offset of scratch byte `k`. -/
def scratchOffset (k : BitVec 16) : BitVec 17 := (1 : BitVec 1) ++ k

/-- The image of an instruction, from the tables the decoder reads. -/
def encode : Instr → Image
  | .init => .cmd32 CmdOp.init.word
  | .deinit => .cmd32 CmdOp.deinit.word
  | .poll => .cmd32 CmdOp.poll.word
  | .submitRead => .cmd32 CmdOp.submitRead.word
  | .submitWrite => .cmd32 CmdOp.submitWrite.word
  | .baudSet => .cmd32 CmdOp.baudSet.word
  | .cmdInvalid w => .cmd32 w
  | .soh => .wire8 .header 0x01
  | .stx => .wire8 .header 0x02
  | .ack => .wire8 .header 0x06
  | .nak => .wire8 .header 0x15
  | .can => .wire8 .header 0x18
  | .sigA => .wire8 .header 0x41
  | .noise b => .wire8 .header b
  | .sigC => .wire8 .detecting 0x43
  | .detectOther b => .wire8 .detecting b
  | .frameByte b => .wire8 .inFrame b
  | .frameShort blk nblk p lo hi => .frame (frameBytes 0x01 blk nblk p lo hi)
  | .frameLong blk nblk p lo hi => .frame (frameBytes 0x02 blk nblk p lo hi)
  | .reset => .input .reset
  | .msTick => .input .msTick
  | .rxByte b => .input (.rxByte b)
  | .regRead r => .input (.bus (.read .b4 r.offset))
  | .regWrite r v => .input (.bus (.write .b4 r.offset v))
  | .cmdWrite w => .input (.bus (.write .b4 Reg.cmd.offset w))
  | .errW1c v => .input (.bus (.write .b4 Reg.err.offset v))
  | .evtClr v => .input (.bus (.write .b4 Reg.evtClr.offset v))
  | .sfifoPop => .input (.bus (.read .b4 Reg.sfifo.offset))
  | .scrRead size k => .input (.bus (.read size (scratchOffset k)))
  | .scrWrite size k v => .input (.bus (.write size (scratchOffset k) v))
  | .regBadAccess a => .input (.bus a)
  | .regUnmapped a => .input (.bus a)

/-! ## The opcode table's numbering

`decodeTableWord` reads the bits of a table row. The table gives CMD32 rows 32 bits, WIRE8 rows 8 bits
and BUS rows the 17 bits of `OFFSET` (three whole bytes). A frame is its 181 or 1029 bytes, byte 0
lowest. The table gives a WIRE8 row's context and a BUS row's `SIZE`, `DIR` and data no bits; the
readings below take the one its row names. DESIGN CHOICE, log entry 8 (safe). -/

/-- The bytes of a number, least significant first. -/
def bytesOfNat : Nat → Nat → List Byte
  | 0, _ => []
  | n + 1, w => BitVec.ofNat 8 (w % 256) :: bytesOfNat n (w / 256)

/-- The context of the table row a byte value belongs to: SIG_C's row is met while DETECTING, every other
WIRE8 row with a value of its own at header position. -/
def tableCtx (b : Byte) : WireCtx := if b = 0x43 then .detecting else .header

/-- The access of the table row an offset belongs to: CMD_WRITE, ERR_W1C and EVT_CLR are 32-bit writes
(of a zero operand), every other row is a 32-bit read. -/
def tableAccess (off : BitVec 17) : BusAccess :=
  if off = Reg.cmd.offset || off = Reg.err.offset || off = Reg.evtClr.offset then .write .b4 off 0
  else .read .b4 off

/-- The image that `nbits` bits `w` of the table stand for. -/
def tableImage (nbits w : Nat) : Option Image :=
  if w < 2 ^ nbits then
    if nbits = 32 then some (.cmd32 (BitVec.ofNat 32 w))
    else if nbits = 8 then
      some (.wire8 (tableCtx (BitVec.ofNat 8 w)) (BitVec.ofNat 8 w))
    else if nbits = 17 ∨ nbits = 24 then
      if w < 2 ^ 17 then some (.input (.bus (tableAccess (BitVec.ofNat 17 w)))) else none
    else if nbits = 8 * (Config.shortLen + 5) ∨ nbits = 8 * (Config.longLen + 5) then
      some (.frame (bytesOfNat (nbits / 8) w))
    else none
  else none

/-- The instruction the decoder reads from `nbits` bits `w`, numbered as the opcode table numbers them. -/
def decodeTableWord (nbits w : Nat) : Option Instr :=
  match tableImage nbits w with
  | some image =>
    match decode image with
    | .ok i => some i
    | .error _ => none
  | none => none

end Sys2Proof
end

