-- ==== Sys2Proof/Machine/State.lean ====
section
/-!
DEFINITION. Machine/State.lean: the block's state record (R11), the task record (R12), the few fields the
model adds for its environment and for free values, the reset state (R151), and the stop reasons.
Fields that one register, one sub-block or one rule groups together stand in a structure of their own.
-/

namespace Sys2Proof.Machine

/-! ## Enumerations

Codes that are never produced have no constructor (item I11). DESIGN CHOICE, log entry 12 (safe). -/

/-- "Connection State" (R11). -/
inductive Conn where
  | detecting | connected
  deriving DecidableEq, Repr

/-- "Protocol Stage" (R62). -/
inductive Stage where
  | cmdRecv | dataSend | dataSendBuf | dataSendDone | dataRecv | dataRecvBuf | dataRecvDone
  | sendAck | waitAck
  deriving DecidableEq, Repr

/-- Deframer state (R11, R26). -/
inductive DfState where
  | hunt | blk | nblk | data | crcLo | crcHi
  deriving DecidableEq, Repr

/-- A payload length a header can declare (R59): 176 or 1024. -/
inductive PayloadLen where
  | short | long
  deriving DecidableEq, Repr

/-- The number of payload bytes. -/
def PayloadLen.toNat : PayloadLen → Nat
  | .short => Config.shortLen
  | .long => Config.longLen

/-- Task direction (R12): READ = device to host, WRITE = host to device. -/
inductive Dir where
  | read | write
  deriving DecidableEq, Repr

/-- Task status (R12). -/
inductive TaskStatus where
  | pending | active
  deriving DecidableEq, Repr

/-- Event codes (R136); codes 6-15 are never produced (item I11). -/
inductive EvtCode where
  | none | txDone | rxDone | errCan | errRetry | errSeq
  deriving DecidableEq, Repr

/-- Which CRC function the block was built with (R61, item I7): the default, CRC-16/XMODEM, or the one
`Config.crc16` names. It is configuration and no register: nothing reads it back, and no step changes it.
DESIGN CHOICE of form, log entry 6 (safe). -/
inductive CrcFn where
  | xmodem | configured
  deriving DecidableEq, Repr

/-! ## Records -/

/-- A Transfer Task (R12). -/
structure Task where
  dir : Dir
  off : BitVec 16
  len : BitVec 17
  xfer : BitVec 17
  status : TaskStatus
  deriving DecidableEq, Repr

/-- The deframer's fields (R11: `df_state`, `df_plen`, `df_pos`, `df_blk`, `df_nblk`, `df_crc_lo`). -/
structure Deframer where
  state : DfState
  plen : PayloadLen
  pos : BitVec 11
  blk : Byte
  nblk : Byte
  crcLo : Byte
  deriving DecidableEq, Repr

/-- The transmit stage (R11: `txfb`, `tx_len`, `tx_chunk`, `tx_wait`). `buf` holds 1029 bytes. -/
structure TxStage where
  buf : List Byte
  len : BitVec 11
  chunk : BitVec 11
  wait : Bool
  deriving DecidableEq, Repr

/-- The event latch (R11: `evt_code`, `evt_dir`, `evt_count`). The code is kept as its name, the direction
as the bit `DIR` of EVT (0 = READ, 1 = WRITE). -/
structure EvtLatch where
  code : EvtCode
  dir : Bool
  count : BitVec 17
  deriving DecidableEq, Repr

/-- The sticky error flags (R11, R27), in the bit order of ERR. -/
structure ErrFlags where
  submit : Bool
  rxOvf : Bool
  baud : Bool
  evtOvf : Bool
  cmd : Bool
  access : Bool
  deriving DecidableEq, Repr

/-- The configuration registers CTRL, RETRY, TACK and TRX (R18-R21). -/
structure Settings where
  irqEn : Bool
  abbrevHs : Bool
  seqPolicy : Bool
  retryMax : BitVec 8
  tAck : BitVec 16
  tRx : BitVec 16
  deriving DecidableEq, Repr

/-- The operand registers TASK_OFF, TASK_LEN and BAUD_REQ (R23-R25). -/
structure OperandRegs where
  taskOff : BitVec 16
  taskLen : BitVec 17
  baudReq : Word
  deriving DecidableEq, Repr

/-- What stands around the block: the steps the agents have still to take, and what the block's outputs have
shown. Only `txout` is the spec's (R11, R132); the others are the model's own. RESET touches none of
them but the count of resets. -/
structure Env where
  /-- The agents' steps to come, in the order they happen (R8, R9). -/
  inputs : List Input
  /-- The bytes emitted so far, oldest first (R132). -/
  txout : List Byte
  /-- The data lines of the last bus read (R41, R43: "data"). -/
  rdata : Word
  /-- The link's answers to come, in order (R133); when it is empty the answer is `Config.linkSetOk`. -/
  linkAnswers : List Bool
  /-- The rates driven on `cfg_baud` so far, oldest first (R129, R133). -/
  linkRequests : List Word
  /-- How many RESET events have happened: it selects the free scratch contents after the last one (R151). -/
  resets : Nat
  deriving DecidableEq, Repr

/-- The block's state (R11), its configuration and its environment. -/
structure State where
  en : Bool
  conn : Conn
  firstConnect : Bool
  hsStarted : Bool
  stage : Stage
  rxSeq : Byte
  txSeq : Byte
  retries : BitVec 8
  now : Word
  lastRecvTime : Word
  lastSendTime : Word
  lastByteTime : Word
  df : Deframer
  /-- `rxfb`: the receive staging buffer, 1024 bytes. -/
  rxfb : List Byte
  tx : TxStage
  taskq : List Task
  active : Bool
  sfifo : List Byte
  evt : EvtLatch
  err : ErrFlags
  settings : Settings
  operands : OperandRegs
  baudPending : Bool
  pendingBaud : Word
  curBaud : Word
  rxq : List Byte
  /-- The scratch bytes written since the last reset, by rising offset; see `Memory.wf`. -/
  scratch : List Host.Cell
  /-- The configuration field `crc16` (R61), as the function's name. -/
  crc : CrcFn
  env : Env
  deriving DecidableEq, Repr

/-! ## Reset -/

/-- The deframer after RESET (R151). -/
def Deframer.reset : Deframer :=
  { state := .hunt, plen := .short, pos := 0, blk := 0, nblk := 0, crcLo := 0 }

/-- The transmit stage after RESET (R151). The buffer's bytes are unspecified and never read before they are
written (item I2); the model starts them at zero. DESIGN CHOICE, log entry 2 (unsafe). -/
def TxStage.reset : TxStage :=
  { buf := List.replicate (Config.longLen + 5) 0, len := 0, chunk := 0, wait := false }

/-- The empty event latch (R138). -/
def EvtLatch.empty : EvtLatch := { code := .none, dir := false, count := 0 }

/-- No error flag set (R151). -/
def ErrFlags.clear : ErrFlags :=
  { submit := false, rxOvf := false, baud := false, evtOvf := false, cmd := false, access := false }

/-- The configuration after RESET (R17). -/
def Settings.reset : Settings :=
  { irqEn := false, abbrevHs := false, seqPolicy := false, retryMax := Config.retryMaxReset,
    tAck := Config.tAckReset, tRx := Config.tRxReset }

/-- The operand registers after RESET (R17). -/
def OperandRegs.reset : OperandRegs := { taskOff := 0, taskLen := 0, baudReq := 0 }

/-- An environment in which nothing has happened and nothing is to come. DESIGN CHOICE, log entry 3 (unsafe). -/
def Env.quiet : Env :=
  { inputs := [], txout := [], rdata := 0, linkAnswers := [], linkRequests := [], resets := 0 }

/-- The machine right after reset (R151, R11 column "reset"), built with the default CRC (item I7; log entry 6). -/
def State.reset : State :=
  { en := false, conn := .detecting, firstConnect := true, hsStarted := false, stage := .cmdRecv,
    rxSeq := Config.seqInit, txSeq := Config.seqInit, retries := 0,
    now := 0, lastRecvTime := 0, lastSendTime := 0, lastByteTime := 0,
    df := .reset, rxfb := List.replicate Config.longLen 0, tx := .reset,
    taskq := [], active := false, sfifo := [], evt := .empty, err := .clear,
    settings := .reset, operands := .reset,
    baudPending := false, pendingBaud := 0, curBaud := Config.resetBaud,
    rxq := [], scratch := [], crc := .xmodem, env := .quiet }

/-! ## Stop reasons -/

/-- Why the machine stops. The spec leaves nothing as a fault: "no state of the block is undefined, and every
operation in every state has a defined result" (93_implementation_defined.md §1). So there is none, and
that no step faults holds by the type (safe). -/
inductive Fault : Type
  deriving DecidableEq, Repr

/-- Why an instruction has no meaning. -/
inductive Refusal where
  /-- Raised by an arm of `exec` whose row has no meaning yet; no arm raises it (safe: the machine stops where
  the hardware goes on). -/
  | notModelled (mnemonic : String)
  deriving DecidableEq, Repr

end Sys2Proof.Machine
end

