-- ==== Sys2Proof/Machine/Operands.lean ====
section
/-!
DEFINITION. Machine/Operands.lean: what a rule reads before it acts: the head task, the predicates of R14, elapsed
times, the operands of a submit (R55, R121), the region a frame covers (R45) and the payload length the
transmitter chooses (R92).
-/

namespace Sys2Proof.Machine

/-! ## The head task -/

/-- What `head` stands for when the queue is empty. No rule reads `head` then in a state reachable from RESET
(R13 item 2). DESIGN CHOICE, log entry 5 (unsafe in unreachable states). -/
def Task.absent : Task := { dir := .read, off := 0, len := 0, xfer := 0, status := .pending }

/-- `head`: the first entry of `taskq` (R14). -/
def State.head (s : State) : Task := s.taskq.headD .absent

/-- Bytes of a task not yet transferred: `len - xfer` (R85, R92); 0 in the unreachable states with `xfer > len`.
DESIGN CHOICE, log entry 13 (unsafe in unreachable states). -/
def Task.remaining (t : Task) : Nat := t.len.toNat - t.xfer.toNat

/-- The scratch offset of a task's next byte, `off + xfer`; offsets are 16-bit (00_scope.md, memory primitives). -/
def Task.next (t : Task) : BitVec 16 := t.off + t.xfer.setWidth 16

/-! ## Stage sets -/

/-- A READ task's stages (R13 item 3). -/
def Stage.sending : Stage → Bool
  | .dataSend | .dataSendBuf | .dataSendDone => true
  | .cmdRecv | .dataRecv | .dataRecvBuf | .dataRecvDone | .sendAck | .waitAck => false

/-- A WRITE task's stages (R13 item 3). -/
def Stage.recving : Stage → Bool
  | .dataRecv | .dataRecvBuf | .dataRecvDone => true
  | .cmdRecv | .dataSend | .dataSendBuf | .dataSendDone | .sendAck | .waitAck => false

/-! ## Predicates of R14 -/

/-- `receiving()` -/
def State.receiving (s : State) : Bool :=
  s.active && s.head.dir == .write && (s.stage == .dataRecv || s.stage == .dataRecvBuf)

/-- `awaiting_ack()` -/
def State.awaitingAck (s : State) : Bool :=
  s.active && s.head.dir == .read && s.stage == .dataSendBuf && s.tx.wait

/-- `abortable()` -/
def State.abortable (s : State) : Bool :=
  s.active && (s.stage == .dataSend || s.stage == .dataSendBuf
    || s.stage == .dataRecv || s.stage == .dataRecvBuf)

/-- `read_active()` -/
def State.readActive (s : State) : Bool := s.active && s.head.dir == .read

/-- `baud_safe()` -/
def State.baudSafe (s : State) : Bool :=
  !s.active && (s.stage == .cmdRecv || s.stage == .sendAck || s.stage == .waitAck)
    && s.df.state == .hunt

/-- The context a byte drained in this state meets (R72). -/
def State.wireCtx (s : State) : WireCtx :=
  match s.conn with
  | .detecting => .detecting
  | .connected => if s.df.state = .hunt then .header else .inFrame

/-! ## Times -/

/-- `(now - t) mod 2^32`, in milliseconds (R98). -/
def State.elapsedSince (s : State) (t : Word) : Nat := (s.now - t).toNat

/-! ## Task operands -/

/-- The region a submit names is one R121 accepts: `1 <= len <= 65536` and `off + len <= 65536`. -/
def regionLegal (off : BitVec 16) (len : BitVec 17) : Bool :=
  decide (len.toNat ≠ 0 ∧ len.toNat ≤ Config.scratchSize
    ∧ off.toNat + len.toNat ≤ Config.scratchSize)

/-- R92: the frame kind the transmitter chooses for `rem` bytes still to send. -/
def txKind (rem : Nat) : PayloadLen := if rem ≥ Config.longLen then .long else .short

/-- The header byte of a frame kind (R57, R59). -/
def PayloadLen.header : PayloadLen → Byte
  | .short => 0x01
  | .long => 0x02

end Sys2Proof.Machine
end

