-- ==== Sys2Proof/Machine/Flags.lean ====
section
/-!
DEFINITION. Machine/Flags.lean: the values the block computes from its state: the numeric codes (R26, R62, R136),
the status-FIFO byte (R63), the read-only register words (R26-R36), the interrupt level (R140), the CRC
(R61) and the two frame validators (R83, R84).
-/

namespace Sys2Proof.Machine

/-! ## Codes -/

/-- R62. -/
def Stage.code : Stage → BitVec 4
  | .cmdRecv => 0 | .dataSend => 1 | .dataSendBuf => 2 | .dataSendDone => 3 | .dataRecv => 4
  | .dataRecvBuf => 5 | .dataRecvDone => 6 | .sendAck => 7 | .waitAck => 8

/-- R26, field DFSTATE. -/
def DfState.code : DfState → BitVec 3
  | .hunt => 0 | .blk => 1 | .nblk => 2 | .data => 3 | .crcLo => 4 | .crcHi => 5

/-- R26, field CONN. -/
def Conn.bit : Conn → Bool
  | .detecting => false
  | .connected => true

/-- R12: READ = 0, WRITE = 1. -/
def Dir.bit : Dir → Bool
  | .read => false
  | .write => true

/-- R136. -/
def EvtCode.code : EvtCode → BitVec 4
  | .none => 0 | .txDone => 1 | .rxDone => 2 | .errCan => 3 | .errRetry => 4 | .errSeq => 5

/-! ## Status FIFO words -/

/-- R63: a status FIFO entry, bit 7 = CONN, bits [6:4] = 0, bits [3:0] = stage code. -/
def statusByte (c : Conn) (g : Stage) : Byte :=
  BitVec.ofBool c.bit ++ (0 : BitVec 3) ++ g.code

/-- R107: the word an SFIFO read returns, and R35's fields: `DATA` [7:0], `VALID` [8], `COUNT` [15:12]. -/
def sfifoWord : List Byte → Word
  | [] => 0
  | v :: rest => (0 : BitVec 16) ++ BitVec.ofNat 4 (rest.length + 1) ++ (0 : BitVec 3) ++ (1 : BitVec 1) ++ v

/-! ## Register words -/

/-- CTRL (R18). -/
def Settings.ctrlWord (c : Settings) : Word :=
  (0 : BitVec 29) ++ BitVec.ofBool c.seqPolicy ++ BitVec.ofBool c.abbrevHs ++ BitVec.ofBool c.irqEn

/-- STATUS.EVT_VALID (R26): 1 exactly when `evt_code != 0`. -/
def State.evtValid (s : State) : Bool := s.evt.code != .none

/-- STATUS (R26). -/
def State.statusWord (s : State) : Word :=
  (0 : BitVec 14) ++ BitVec.ofBool (s.active && s.head.dir.bit) ++ BitVec.ofBool s.evtValid
    ++ BitVec.ofBool s.baudPending ++ BitVec.ofNat 3 s.taskq.length ++ BitVec.ofBool s.tx.wait
    ++ s.df.state.code ++ s.stage.code ++ BitVec.ofBool s.active ++ BitVec.ofBool s.firstConnect
    ++ BitVec.ofBool s.conn.bit ++ BitVec.ofBool s.en

/-- ERR (R27). -/
def ErrFlags.word (e : ErrFlags) : Word :=
  (0 : BitVec 26) ++ BitVec.ofBool e.access ++ BitVec.ofBool e.cmd ++ BitVec.ofBool e.evtOvf
    ++ BitVec.ofBool e.baud ++ BitVec.ofBool e.rxOvf ++ BitVec.ofBool e.submit

/-- SEQ (R28). -/
def State.seqWord (s : State) : Word := (0 : BitVec 8) ++ s.retries ++ s.txSeq ++ s.rxSeq

/-- XFER (R31). -/
def State.xferWord (s : State) : Word :=
  if s.active then s.head.xfer.setWidth 32 else 0

/-- FRAME.FRAME_LEN and FRAME.FRAME_POS (R32). -/
def State.frameLenPos (s : State) : BitVec 11 × BitVec 11 :=
  if s.readActive then (s.tx.chunk, if s.tx.wait then s.tx.len else 0)
  else if s.df.state = .hunt then (0, 0)
  else (BitVec.ofNat 11 s.df.plen.toNat, s.df.pos)

/-- FRAME (R32): `FRAME_LEN` [10:0], `FRAME_POS` [26:16]. -/
def State.frameWord (s : State) : Word :=
  (0 : BitVec 5) ++ s.frameLenPos.2 ++ (0 : BitVec 5) ++ s.frameLenPos.1

/-- EVT (R33, R64): `CODE` [3:0], `DIR` [7], `COUNT` [24:8]. -/
def EvtLatch.word (e : EvtLatch) : Word :=
  (0 : BitVec 7) ++ e.count ++ BitVec.ofBool e.dir ++ (0 : BitVec 3) ++ e.code.code

/-- The value a 32-bit read of a register returns (R18-R36): WO registers read 0 (R17). -/
def regValue (s : State) : Reg → Word
  | .ctrl => s.settings.ctrlWord
  | .retry => s.settings.retryMax.setWidth 32
  | .tack => s.settings.tAck.setWidth 32
  | .trx => s.settings.tRx.setWidth 32
  | .cmd => 0
  | .taskOff => s.operands.taskOff.setWidth 32
  | .taskLen => s.operands.taskLen.setWidth 32
  | .baudReq => s.operands.baudReq
  | .status => s.statusWord
  | .err => s.err.word
  | .seq => s.seqWord
  | .curBaud => s.curBaud
  | .now => s.now
  | .lastRecv => s.lastRecvTime
  | .lastSend => s.lastSendTime
  | .xfer => s.xferWord
  | .frame => s.frameWord
  | .evt => s.evt.word
  | .evtClr => 0
  | .sfifo => sfifoWord s.sfifo
  | .rxcnt => (BitVec.ofNat 12 s.rxq.length).setWidth 32

/-! ## Interrupt -/

/-- R140: the level of the `irq` output. -/
def State.irq (s : State) : Bool := s.settings.irqEn && s.evtValid

/-! ## CRC and validators -/

/-- One of the eight inner steps of R61. -/
def crcShift (c : BitVec 16) : BitVec 16 :=
  if c.getLsbD 15 then (c <<< 1) ^^^ 0x1021 else c <<< 1

/-- One payload byte of R61. -/
def crcByte (c : BitVec 16) (b : Byte) : BitVec 16 :=
  crcShift (crcShift (crcShift (crcShift (crcShift (crcShift (crcShift (crcShift
    (c ^^^ (b ++ (0 : BitVec 8))))))))))

/-- R61: CRC-16/XMODEM over a payload, the default of item I7. -/
def crcXmodem (payload : List Byte) : BitVec 16 := payload.foldl crcByte 0

/-- `crc16` (R61): the payload checksum of a block built with the function `f`. -/
def crc16 : CrcFn → List Byte → BitVec 16
  | .xmodem => crcXmodem
  | .configured => Config.crc16

/-- `crc[7:0]` and `crc[15:8]` in wire order (R46, R58). -/
def crcLow (c : BitVec 16) : Byte := c.extractLsb' 0 8

/-- The high byte of a CRC. -/
def crcHigh (c : BitVec 16) : Byte := c.extractLsb' 8 8

/-- R83: the complement validator, `(blk + nblk) mod 256 = 0xFF`. -/
def complementOk (blk nblk : Byte) : Bool := blk + nblk == 0xFF

/-- R84: the checksum validator. -/
def checksumOk (f : CrcFn) (payload : List Byte) (crcLo crcHi : Byte) : Bool :=
  (crcHi ++ crcLo : BitVec 16) == crc16 f payload

/-- R58, R60, R92: the frame a transmitter sends for a payload, with its CRC low byte first. -/
def txFrame (f : CrcFn) (k : PayloadLen) (seq : Byte) (payload : List Byte) : List Byte :=
  frameBytes k.header seq (0xFF - seq) payload (crcLow (crc16 f payload)) (crcHigh (crc16 f payload))

end Sys2Proof.Machine
end

