-- ==== Sys2Proof/Machine/Ops.lean ====
section
/-!
DEFINITION. Machine/Ops.lean: the named operations the rules share: the scratch RAM (20_memory.md), `emit` (R132), the
status FIFO (R105), `set_stage` (R66), the error flags (`raise`, 00_scope.md notation), the event latch
(R137, R138), the end of a task (R113, R97) and the link request (R133).
An "exception" of this block is an event (R142): `postEvent` takes it and `clearEvent` returns from it (R143).
-/

namespace Sys2Proof.Machine

/-! ## The address window -/

/-- R39: the block at `base` decodes the 128 KiB of bus addresses from `base` and nothing else. `none` is an
address the block does not answer. `base` stays an argument: log entry 10 (safe). -/
def windowOffset (base addr : Nat) : Option (BitVec 17) :=
  if base ≤ addr ∧ addr < base + 0x20000 then some (BitVec.ofNat 17 (addr - base)) else none

/-! ## Memory -/

/-- The byte listed at an address, if one is. -/
def Memory.get? : List Host.Cell → Nat → Option Byte
  | [], _ => none
  | (b, v) :: rest, a => if a = b then some v else Memory.get? rest a

/-- Store one byte, keeping the addresses rising. -/
def Memory.set : List Host.Cell → Nat → Byte → List Host.Cell
  | [], a, v => [(a, v)]
  | (b, w) :: rest, a, v =>
    if a < b then (a, v) :: (b, w) :: rest
    else if a = b then (a, v) :: rest
    else (b, w) :: Memory.set rest a v

/-- Canonical form: addresses strictly rising and inside the scratch RAM (R40). An unlisted address has no
value of its own (`Memory.get?` gives `none`), so no entry repeats one; log entry 1. -/
abbrev Memory.wf (m : List Host.Cell) : Prop :=
  m.Pairwise (fun c d => c.1 < d.1) ∧ ∀ c ∈ m, c.1 < Config.scratchSize

/-! ## Scratch RAM -/

/-- `scratch[k]`: the last byte written there, or the unspecified contents of RESET (R151, item I1). -/
def State.scratchByte (s : State) (k : BitVec 16) : Byte :=
  (Memory.get? s.scratch k.toNat).getD (Config.scratchAfterReset s.env.resets k.toNat)

/-- `scratch[k] .. scratch[k + n - 1]`, in increasing offset (R45). -/
def State.scratchBytes (s : State) (k : BitVec 16) : Nat → List Byte
  | 0 => []
  | n + 1 => s.scratchByte k :: s.scratchBytes (k + 1) n

/-- `scratch[k] <- b`. -/
def storeByte (k : BitVec 16) (b : Byte) (s : State) : State :=
  { s with scratch := Memory.set s.scratch k.toNat b }

/-- `scratch[k + i] <- bs[i]`, in increasing `i` (R45). -/
def storeBytes (k : BitVec 16) : List Byte → State → State
  | [], s => s
  | b :: rest, s => storeBytes (k + 1) rest (storeByte k b s)

/-- `MemRead(k, n)`, little-endian (R43, R46). -/
def State.memRead (s : State) (k : BitVec 16) : Size → Word
  | .b1 => (s.scratchByte k).setWidth 32
  | .b2 => (s.scratchByte (k + 1) ++ s.scratchByte k : BitVec 16).setWidth 32
  | .b4 => s.scratchByte (k + 3) ++ s.scratchByte (k + 2) ++ s.scratchByte (k + 1) ++ s.scratchByte k

/-- The low `n` bytes of a word, least significant first. -/
def lowBytes (v : Word) : Size → List Byte
  | .b1 => [v.extractLsb' 0 8]
  | .b2 => [v.extractLsb' 0 8, v.extractLsb' 8 8]
  | .b4 => [v.extractLsb' 0 8, v.extractLsb' 8 8, v.extractLsb' 16 8, v.extractLsb' 24 8]

/-- `MemWrite(k, n, v)`, little-endian (R43, R46). -/
def memWrite (k : BitVec 16) (size : Size) (v : Word) (s : State) : State :=
  storeBytes k (lowBytes v size) s

/-- R43: `k mod n = 0`. -/
def naturallyAligned (k : BitVec 16) (size : Size) : Bool := k.toNat % size.bytes == 0

/-! ## Outputs -/

/-- R132: append one byte to the transmitted stream. -/
def emit (b : Byte) (s : State) : State :=
  { s with env := { s.env with txout := s.env.txout ++ [b] } }

/-- Emit the bytes of a list in order. -/
def emitBytes (bs : List Byte) (s : State) : State :=
  { s with env := { s.env with txout := s.env.txout ++ bs } }

/-- The data lines of a bus read (R41, R43). DEDUCED, log entry 14: the lines above a narrow read are 0 (unsafe). -/
def setData (v : Word) (s : State) : State := { s with env := { s.env with rdata := v } }

/-! ## Status FIFO and stage -/

/-- R105: append an entry; a full FIFO loses its oldest. -/
def sfifoPush (v : Byte) (s : State) : State :=
  { s with sfifo :=
      (if s.sfifo.length = Config.sfifoDepth then s.sfifo.tail else s.sfifo) ++ [v] }

/-- R66: the only writer of `stage` apart from INIT, DEINIT and RESET. -/
def setStage (g : Stage) (s : State) : State :=
  if g = s.stage then s else sfifoPush (statusByte s.conn g) { s with stage := g }

/-! ## Error flags -/

/-- `raise SubmitError()` -/
def raiseSubmitError (s : State) : State := { s with err := { s.err with submit := true } }

/-- `raise CmdError()` -/
def raiseCmdError (s : State) : State := { s with err := { s.err with cmd := true } }

/-- `raise AccessError()` -/
def raiseAccessError (s : State) : State := { s with err := { s.err with access := true } }

/-! ## Events -/

/-- R137: the latch takes the event; an unread one is lost and sets EVT_OVF. -/
def postEvent (code : EvtCode) (dir : Dir) (count : BitVec 17) (s : State) : State :=
  { s with
    err := { s.err with evtOvf := s.err.evtOvf || s.evt.code != .none }
    evt := { code := code, dir := dir.bit, count := count } }

/-- R138: the latch is emptied. -/
def clearEvent (s : State) : State := { s with evt := .empty }

/-! ## The end of a task -/

/-- R113: `retire()`. -/
def retire (s : State) : State := { s with taskq := s.taskq.tail, active := false }

/-- The fields an abort clears besides the task (R97). -/
def dropFrames (s : State) : State :=
  { s with
    tx := { s.tx with wait := false, chunk := 0, len := 0 }
    retries := 0
    df := { s.df with state := .hunt, pos := 0 } }

/-- R97: `abort(code, can)`, the active task ends with an error. -/
def abort (code : EvtCode) (can : Bool) (s : State) : State :=
  setStage .cmdRecv <| dropFrames <| retire <| postEvent code s.head.dir s.head.xfer <|
    if can then emit 0x18 s else s

/-- `head.<field> <- ...` -/
def updateHead (f : Task → Task) (s : State) : State :=
  { s with taskq := match s.taskq with
      | [] => []
      | t :: rest => f t :: rest }

/-! ## The link -/

/-- The draw `link_set_ok` of the next reconfiguration attempt (R133). -/
def State.linkAnswer (s : State) (rate : Word) : Bool :=
  match s.env.linkAnswers with
  | a :: _ => a
  | [] => Config.linkSetOk s.env.linkRequests.length rate

/-- R133: `cfg_baud` and `cfg_req` are driven, and the link's answer is used up. -/
def linkRequest (rate : Word) (s : State) : State :=
  { s with env := { s.env with
      linkAnswers := s.env.linkAnswers.tail
      linkRequests := s.env.linkRequests ++ [rate] } }

end Sys2Proof.Machine
end

