-- ==== Sys2Proof/Machine/Codec.lean ====
section
/-!
DEFINITION. Machine/Codec.lean: the procedures of 40_frame_codec.md: the transmit path (R91-R97), the deframer,
validators and block sequencer (R81-R89), the rows of the bytes P1 drains (R69-R80), and the timers
(R98-R100). Each is a function of the state; they run inside a POLL step only.
-/

namespace Sys2Proof.Machine

/-! ## Transmit path -/

/-- R93: `tx_send()`. -/
def txSend (s : State) : State :=
  { emitBytes (s.tx.buf.take s.tx.len.toNat) s with
    lastSendTime := s.now
    tx := { s.tx with wait := true } }

/-- R92: the payload staged for a task, padded to the frame's length. -/
def stagedPayload (s : State) (k : PayloadLen) (n : Nat) : List Byte :=
  s.scratchBytes s.head.next n ++ List.replicate (k.toNat - n) Config.padByte

/-- A frame written at the start of a staging buffer; the bytes past it keep their values. -/
def overlay (frame buf : List Byte) : List Byte := frame ++ buf.drop frame.length

/-- R92: the staging buffer is filled from the scratch RAM. -/
def fillFrame (k : PayloadLen) (n : Nat) (s : State) : State :=
  { s with tx := { s.tx with
      buf := overlay (txFrame s.crc k s.txSeq (stagedPayload s k n)) s.tx.buf
      len := BitVec.ofNat 11 (k.toNat + 5)
      chunk := BitVec.ofNat 11 n } }

/-- R92: `n`, the data bytes of the next frame. -/
def Task.txCount (t : Task) : Nat := min t.remaining (txKind t.remaining).toNat

/-- R92: `tx_stage()`. -/
def txStage (s : State) : State :=
  txSend (fillFrame (txKind s.head.remaining) s.head.txCount s)

/-- R94: the acknowledged bytes are counted and the next block number is due. -/
def txAdvance (s : State) : State :=
  { updateHead (fun t => { t with xfer := t.xfer + s.tx.chunk.setWidth 17 }) s with
    txSeq := s.txSeq + 1
    retries := 0
    tx := { s.tx with wait := false } }

/-- R94: nothing is staged. -/
def txClear (s : State) : State := { s with tx := { s.tx with chunk := 0, len := 0 } }

/-- R94: the task is done, or its next frame goes out in the same step. -/
def txContinue (s : State) : State :=
  if s.head.xfer = s.head.len then setStage .dataSendDone (txClear s) else txStage s

/-- R94: `tx_ack()`. -/
def txAck (s : State) : State := txContinue (txAdvance s)

/-- R95: `tx_fail()`. -/
def txFail (s : State) : State :=
  if s.retries < s.settings.retryMax then txSend { s with retries := s.retries + 1 }
  else abort .errRetry true s

/-- R91: phase P3. -/
def txStart (s : State) : State :=
  if s.active && s.head.dir == .read && s.stage == .dataSend then txStage (setStage .dataSendBuf s)
  else s

/-! ## Receive path -/

/-- R89: `rx_fail()`. -/
def rxFail (s : State) : State :=
  if s.receiving then
    if s.retries < s.settings.retryMax then emit 0x15 { s with retries := s.retries + 1 }
    else abort .errRetry true s
  else emit 0x15 s

/-- R85: `n`, the bytes of the received payload that the task takes. -/
def State.rxCount (s : State) : Nat := min s.head.remaining s.df.plen.toNat

/-- R85: `n` accepted bytes are counted and the next block number is expected. -/
def rxAdvance (n : Nat) (s : State) : State :=
  { updateHead (fun t => { t with xfer := t.xfer + BitVec.ofNat 17 n }) s with
    rxSeq := s.rxSeq + 1
    retries := 0 }

/-- R85: the accepted bytes are stored and counted. -/
def rxStore (s : State) : State :=
  rxAdvance s.rxCount (storeBytes s.head.next (s.rxfb.take s.rxCount) s)

/-- R85: the stage after the first accepted frame (T6). -/
def rxBegun (s : State) : State := if s.stage = .dataRecv then setStage .dataRecvBuf s else s

/-- R85: the stage when the requested length is reached (T7). -/
def rxReached (s : State) : State :=
  if s.head.xfer = s.head.len then setStage .dataRecvDone s else s

/-- R85: `rx_accept()`. -/
def rxAccept (s : State) : State := rxReached (rxBegun (emit 0x06 (rxStore s)))

/-- R83, R84: both validators of the frame whose last byte is `crcHi`. -/
def State.frameOk (s : State) (crcHi : Byte) : Bool :=
  complementOk s.df.blk s.df.nblk && checksumOk s.crc (s.rxfb.take s.df.plen.toNat) s.df.crcLo crcHi

/-- R82: the sequencer's part of the verdict, for a frame both validators pass. -/
def sequenceFrame (s : State) : State :=
  if s.receiving && s.df.blk == s.rxSeq then rxAccept s
  else if s.df.blk = s.rxSeq - 1 then emit 0x06 s
  else if s.receiving then
    if s.settings.seqPolicy = false then abort .errSeq true s else rxFail s
  else emit 0x15 s

/-- R82: `frame_end(crc_hi)`. -/
def frameEnd (crcHi : Byte) (s : State) : State :=
  if s.frameOk crcHi then sequenceFrame { s with lastRecvTime := s.now } else rxFail s

/-- R74, R75: `frame_start(h)`. -/
def frameStart (k : PayloadLen) (s : State) : State :=
  { s with df := { s.df with state := .blk, plen := k, pos := 1 }, lastByteTime := s.now }

/-- R81: the byte is counted and timed before the deframer looks at its position. -/
def countByte (s : State) : State :=
  { s with df := { s.df with pos := s.df.pos + 1 }, lastByteTime := s.now }

/-- R81: what the deframer does with a byte already counted. -/
def deframeAt (b : Byte) (s : State) : State :=
  match s.df.state with
  | .hunt => s
  | .blk => { s with df := { s.df with blk := b, state := .nblk } }
  | .nblk => { s with df := { s.df with nblk := b, state := .data } }
  | .data =>
    { s with
      rxfb := s.rxfb.set (s.df.pos.toNat - 4) b
      df := { s.df with
        state := if s.df.pos.toNat = s.df.plen.toNat + 3 then .crcLo else .data } }
  | .crcLo => { s with df := { s.df with crcLo := b, state := .crcHi } }
  | .crcHi => frameEnd b { s with df := { s.df with state := .hunt, pos := 0 } }

/-- R81: `deframe(b)`. -/
def deframe (b : Byte) (s : State) : State := deframeAt b (countByte s)

/-! ## The rows of a drained byte -/

/-- R69: `hs_connect()`. -/
def hsConnect (s : State) : State :=
  sfifoPush (statusByte .connected s.stage) { s with conn := .connected, firstConnect := false }

/-- SIG_C while DETECTING (R69). -/
def wireSigC (s : State) : State := hsConnect s

/-- Any other byte while DETECTING (R70). -/
def wireDetectOther (_b : Byte) (s : State) : State := s

/-- A byte inside a frame (R81). -/
def wireFrameByte (b : Byte) (s : State) : State := deframe b s

/-- SOH at header position (R73, R74). -/
def wireSoh (s : State) : State := if s.readActive then s else frameStart .short s

/-- STX at header position (R73, R75). -/
def wireStx (s : State) : State := if s.readActive then s else frameStart .long s

/-- ACK at header position (R73, R76). -/
def wireAck (s : State) : State := if s.awaitingAck then txAck s else s

/-- NAK at header position (R73, R77). -/
def wireNak (s : State) : State := if s.awaitingAck then txFail s else s

/-- CAN at header position (R73, R78). -/
def wireCan (s : State) : State := if s.abortable then abort .errCan false s else s

/-- SIG_A at header position (R79). -/
def wireSigA (s : State) : State := s

/-- Any other byte at header position (R80). -/
def wireNoise (_b : Byte) (s : State) : State := s

/-- R73: `header_byte(b)`. -/
def headerByte (b : Byte) (s : State) : State :=
  if b = 0x01 then wireSoh s
  else if b = 0x02 then wireStx s
  else if b = 0x06 then wireAck s
  else if b = 0x15 then wireNak s
  else if b = 0x18 then wireCan s
  else if b = 0x41 then wireSigA s
  else wireNoise b s

/-- R72: `rx_byte(b)`. -/
def rxByte (b : Byte) (s : State) : State :=
  match s.wireCtx with
  | .detecting => if b = 0x43 then wireSigC s else wireDetectOther b s
  | .inFrame => wireFrameByte b s
  | .header => headerByte b s

/-- `rx_byte` on each byte in turn. -/
def rxBytes : List Byte → State → State
  | [], s => s
  | b :: rest, s => rxBytes rest (rxByte b s)

/-! ## Timers -/

/-- R68: the SIG_A of phase P2 while DETECTING. -/
def sigATimer (s : State) : State :=
  if s.hsStarted = false ∨ s.elapsedSince s.lastSendTime ≥ Config.tSigaMs then
    emit 0x41 { s with lastSendTime := s.now, hsStarted := true }
  else s

/-- R100: the partial-frame timeout. -/
def partialFrameTimer (s : State) : State :=
  if s.df.state ≠ .hunt ∧ s.elapsedSince s.lastByteTime ≥ s.settings.tRx.toNat then
    rxFail { s with df := { s.df with state := .hunt, pos := 0 } }
  else s

/-- R99: the ACK timeout. -/
def ackTimer (s : State) : State :=
  if s.awaitingAck = true ∧ s.elapsedSince s.lastSendTime ≥ s.settings.tAck.toNat then txFail s
  else s

/-- R98: phase P2. -/
def timers (s : State) : State :=
  match s.conn with
  | .detecting => sigATimer s
  | .connected => ackTimer (partialFrameTimer s)

end Sys2Proof.Machine
end

