-- ==== Sys2Proof/Machine/Commands.lean ====
section
/-!
DEFINITION. Machine/Commands.lean: the meanings of the CMD32 rows (43_bridge.md §1) and the phases of POLL that are
not the codec's: the drain of the receive ring (P1), the bridge (P4, R120, R125) and activation (P5, R112).
-/

namespace Sys2Proof.Machine

/-! ## INIT and DEINIT -/

/-- What INIT and DEINIT both set back (R117, R118): the task queue, the transmit stage's counters, the
deframer's position, the ring, a pending rate, the connection state and the stage. -/
def dropSession (s : State) : State :=
  { s with
    conn := .detecting
    stage := .cmdRecv
    retries := 0
    taskq := []
    active := false
    tx := { s.tx with wait := false, len := 0, chunk := 0 }
    df := { s.df with state := .hunt, pos := 0 }
    rxq := []
    baudPending := false }

/-- R71: INIT keeps the SIG_A cadence only for an abbreviated handshake. -/
def State.keepsCadence (s : State) : Bool := s.settings.abbrevHs && !s.firstConnect

/-- INIT (R117). -/
def execInit (s : State) : Host.Outcome State Fault Refusal :=
  .next { dropSession s with
    en := true
    rxSeq := Config.seqInit
    txSeq := Config.seqInit
    sfifo := []
    evt := .empty
    hsStarted := if s.keepsCadence then s.hsStarted else false }

/-- DEINIT (R118). -/
def execDeinit (s : State) : Host.Outcome State Fault Refusal :=
  .next (if s.en then { dropSession s with en := false } else s)

/-! ## POLL -/

/-- P1 (R119): each byte leaves the ring before its `rx_byte`. -/
def drain : List Byte → State → State
  | [], s => s
  | b :: rest, s => drain rest (rxByte b { s with rxq := rest })

/-- R125: the flush and the request of `try_baud`. -/
def flushForBaud (s : State) : State := { s with rxq := [], baudPending := false }

/-- R125: what the link's answer `ok` does. -/
def applyBaud (ok : Bool) (s : State) : State :=
  if ok then { s with curBaud := s.pendingBaud } else { s with err := { s.err with baud := true } }

/-- R125: `try_baud()`. -/
def tryBaud (s : State) : State :=
  if s.baudPending && s.baudSafe then
    applyBaud (s.linkAnswer s.pendingBaud) (linkRequest s.pendingBaud (flushForBaud s))
  else s

/-- P4 (R120): `bridge()`. -/
def bridge (s : State) : State :=
  match s.stage with
  | .dataSendDone => setStage .sendAck (retire (postEvent .txDone .read s.head.xfer s))
  | .dataRecvDone =>
    retire (postEvent .rxDone .write s.head.xfer (setStage .waitAck s))
  | .sendAck | .waitAck => setStage .cmdRecv (tryBaud s)
  | .cmdRecv => if s.active then s else tryBaud s
  | .dataSend | .dataSendBuf | .dataRecv | .dataRecvBuf => s

/-- R112: a task can be activated. -/
def State.activatable (s : State) : Bool :=
  s.conn == .connected && s.stage == .cmdRecv && !s.active && s.df.state == .hunt
    && !s.taskq.isEmpty

/-- P5 (R112): `activate()`. -/
def activate (s : State) : State :=
  if s.activatable then
    setStage (if s.head.dir = .read then .dataSend else .dataRecv)
      { updateHead (fun t => { t with status := .active }) s with active := true, retries := 0 }
  else s

/-- POLL (R119): the five phases in order. -/
def execPoll (s : State) : Host.Outcome State Fault Refusal :=
  .next (if s.en then activate (bridge (txStart (timers (drain s.rxq s)))) else s)

/-! ## SUBMIT, BAUD_SET, INVALID -/

/-- R111: `enqueue(t)`. -/
def enqueue (t : Task) (s : State) : State := { s with taskq := s.taskq ++ [t] }

/-- R121: the submit is refused. -/
def State.submitRefused (s : State) : Bool :=
  !s.en || !regionLegal s.operands.taskOff s.operands.taskLen
    || s.taskq.length == Config.tqDepth

/-- R121: the task a submit queues. -/
def State.submittedTask (s : State) (dir : Dir) : Task :=
  { dir := dir, off := s.operands.taskOff, len := s.operands.taskLen, xfer := 0, status := .pending }

/-- R121: `submit(dir)`. -/
def submit (dir : Dir) (s : State) : State :=
  if s.submitRefused then raiseSubmitError s else enqueue (s.submittedTask dir) s

/-- SUBMIT_READ (R122). -/
def execSubmitRead (s : State) : Host.Outcome State Fault Refusal := .next (submit .read s)

/-- SUBMIT_WRITE (R123). -/
def execSubmitWrite (s : State) : Host.Outcome State Fault Refusal := .next (submit .write s)

/-- BAUD_SET (R124). -/
def execBaudSet (s : State) : Host.Outcome State Fault Refusal :=
  .next (if s.en then { s with pendingBaud := s.operands.baudReq, baudPending := true }
    else raiseCmdError s)

/-- CMD_INVALID (R126): whatever the word. -/
def execCmdInvalid (_w : Word) (s : State) : Host.Outcome State Fault Refusal :=
  .next (raiseCmdError s)

end Sys2Proof.Machine
end

