-- ==== Sys2Proof/Machine/Bus.lean ====
section
/-!
DEFINITION. Machine/Bus.lean: the meanings of the BUS rows: register reads and writes (R17-R36), the writes with an
effect of their own (R22, R27, R34), the status FIFO pop (R107), scratch accesses (R43) and the accesses
that break the rules (R41, R42).
-/

namespace Sys2Proof.Machine

/-- REG_READ (R17, R44): the register's value, and no side effect. -/
def execRegRead (r : Reg) (s : State) : Host.Outcome State Fault Refusal :=
  .next (setData (regValue s r) s)

/-- The state a 32-bit write of a register without side effects leaves (R17-R25): an RW register stores its
writable bits, an RO register ignores the write. The three registers whose write has an effect of its
own (R44) have rows of their own. -/
def writeReg (r : Reg) (v : Word) (s : State) : State :=
  match r with
  | .ctrl => { s with settings := { s.settings with
      irqEn := v.getLsbD 0, abbrevHs := v.getLsbD 1, seqPolicy := v.getLsbD 2 } }
  | .retry => { s with settings := { s.settings with retryMax := v.extractLsb' 0 8 } }
  | .tack => { s with settings := { s.settings with tAck := v.extractLsb' 0 16 } }
  | .trx => { s with settings := { s.settings with tRx := v.extractLsb' 0 16 } }
  | .taskOff => { s with operands := { s.operands with taskOff := v.extractLsb' 0 16 } }
  | .taskLen => { s with operands := { s.operands with taskLen := v.extractLsb' 0 17 } }
  | .baudReq => { s with operands := { s.operands with baudReq := v } }
  | .status | .seq | .curBaud | .now | .lastRecv | .lastSend | .xfer | .frame | .evt | .sfifo
  | .rxcnt => s
  | .cmd | .err | .evtClr => s

/-- REG_WRITE (R17). -/
def execRegWrite (r : Reg) (v : Word) (s : State) : Host.Outcome State Fault Refusal :=
  .next (writeReg r v s)

/-- CMD_WRITE (R22, R54): the word is decoded by the CMD32 rows, and the row's meaning runs in this step. -/
def execCmdWrite (w : Word) (s : State) : Host.Outcome State Fault Refusal :=
  match decodeOp w with
  | some .init => execInit s
  | some .deinit => execDeinit s
  | some .poll => execPoll s
  | some .submitRead => execSubmitRead s
  | some .submitWrite => execSubmitWrite s
  | some .baudSet => execBaudSet s
  | none => execCmdInvalid w s

/-- R27: the flags a W1C write leaves set. -/
def ErrFlags.clearOnes (e : ErrFlags) (v : Word) : ErrFlags :=
  { submit := e.submit && !v.getLsbD 0
    rxOvf := e.rxOvf && !v.getLsbD 1
    baud := e.baud && !v.getLsbD 2
    evtOvf := e.evtOvf && !v.getLsbD 3
    cmd := e.cmd && !v.getLsbD 4
    access := e.access && !v.getLsbD 5 }

/-- ERR_W1C (R27). -/
def execErrW1c (v : Word) (s : State) : Host.Outcome State Fault Refusal :=
  .next { s with err := s.err.clearOnes v }

/-- EVT_CLR (R34): bit 0 = 1 clears the latch. -/
def execEvtClr (v : Word) (s : State) : Host.Outcome State Fault Refusal :=
  .next (if v.getLsbD 0 then clearEvent s else s)

/-- SFIFO_POP (R107): the oldest entry leaves; an empty FIFO answers 0. -/
def execSfifoPop (s : State) : Host.Outcome State Fault Refusal :=
  .next (setData (sfifoWord s.sfifo) { s with sfifo := s.sfifo.tail })

/-- SCR_READ (R43). -/
def execScrRead (size : Size) (k : BitVec 16) (s : State) : Host.Outcome State Fault Refusal :=
  .next (if naturallyAligned k size then setData (s.memRead k size) s
    else setData 0 (raiseAccessError s))

/-- SCR_WRITE (R43). -/
def execScrWrite (size : Size) (k : BitVec 16) (v : Word) (s : State) :
    Host.Outcome State Fault Refusal :=
  .next (if naturallyAligned k size then memWrite k size v s else raiseAccessError s)

/-- R41, R42: a refused access: a read returns 0, a write does nothing, and ACCESS_ERR is set. -/
def refuseAccess (a : BusAccess) (s : State) : State :=
  match a with
  | .read _ _ => setData 0 (raiseAccessError s)
  | .write _ _ _ => raiseAccessError s

/-- REG_BAD_ACCESS (R41). -/
def execRegBadAccess (a : BusAccess) (s : State) : Host.Outcome State Fault Refusal :=
  .next (refuseAccess a s)

/-- REG_UNMAPPED (R42). -/
def execRegUnmapped (a : BusAccess) (s : State) : Host.Outcome State Fault Refusal :=
  .next (refuseAccess a s)

end Sys2Proof.Machine
end

