-- ==== Sys2Proof/Machine/Pins.lean ====
section
/-!
DEFINITION. Machine/Pins.lean: the meanings of the PIN rows: RESET (R151), MS_TICK (R131) and RX_BYTE (R130).
-/

namespace Sys2Proof.Machine

/-- RESET (R151): every field takes its reset value. The scratch RAM becomes unspecified again: nothing is
listed, and the free contents are those of the new reset. The environment keeps what it has seen and what
it has still to do (R132). DEDUCED, log entry 11 (safe). -/
def execReset (s : State) : Host.Outcome State Fault Refusal :=
  .next { State.reset with crc := s.crc, env := { s.env with resets := s.env.resets + 1 } }

/-- MS_TICK (R131): `now <- (now + 1) mod 2^32`. -/
def execMsTick (s : State) : Host.Outcome State Fault Refusal := .next { s with now := s.now + 1 }

/-- RX_BYTE (R130). -/
def execRxByte (b : Byte) (s : State) : Host.Outcome State Fault Refusal :=
  .next <|
    if s.en then
      if s.rxq.length = Config.rxqDepth then { s with err := { s.err with rxOvf := true } }
      else { s with rxq := s.rxq ++ [b] }
    else s

end Sys2Proof.Machine
end

