-- ==== Sys2Proof/Machine/Wire.lean ====
section
/-!
DEFINITION. Machine/Wire.lean: the meanings of the WIRE8 and FRAME rows of the opcode table. A WIRE8 row is what
P1 of a POLL does with one byte in the row's context (R72, R73); a FRAME row is what it does with the bytes
of a whole frame, one after another (R81, R82). In a step of the machine these run inside POLL
(Machine/Commands.lean, `drain`), in the context `State.wireCtx` finds. DEDUCED, log
entry 7 (safe).
-/

namespace Sys2Proof.Machine

/-- SOH (R74). -/
def execSoh (s : State) : Host.Outcome State Fault Refusal := .next (wireSoh s)

/-- STX (R75). -/
def execStx (s : State) : Host.Outcome State Fault Refusal := .next (wireStx s)

/-- ACK (R76). -/
def execAck (s : State) : Host.Outcome State Fault Refusal := .next (wireAck s)

/-- NAK (R77). -/
def execNak (s : State) : Host.Outcome State Fault Refusal := .next (wireNak s)

/-- CAN (R78). -/
def execCan (s : State) : Host.Outcome State Fault Refusal := .next (wireCan s)

/-- SIG_A (R79). -/
def execSigA (s : State) : Host.Outcome State Fault Refusal := .next (wireSigA s)

/-- NOISE (R80). -/
def execNoise (b : Byte) (s : State) : Host.Outcome State Fault Refusal := .next (wireNoise b s)

/-- SIG_C (R69). -/
def execSigC (s : State) : Host.Outcome State Fault Refusal := .next (wireSigC s)

/-- DETECT_OTHER (R70). -/
def execDetectOther (b : Byte) (s : State) : Host.Outcome State Fault Refusal :=
  .next (wireDetectOther b s)

/-- FRAME_BYTE (R81). -/
def execFrameByte (b : Byte) (s : State) : Host.Outcome State Fault Refusal :=
  .next (wireFrameByte b s)

/-- FRAME_SHORT (R58, R82): SOH and the 180 bytes after it, drained in order. -/
def execFrameShort (blk nblk : Byte) (payload : List Byte) (crcLo crcHi : Byte) (s : State) :
    Host.Outcome State Fault Refusal :=
  .next (rxBytes (frameBytes 0x01 blk nblk payload crcLo crcHi) s)

/-- FRAME_LONG (R58, R82): STX and the 1028 bytes after it, drained in order. -/
def execFrameLong (blk nblk : Byte) (payload : List Byte) (crcLo crcHi : Byte) (s : State) :
    Host.Outcome State Fault Refusal :=
  .next (rxBytes (frameBytes 0x02 blk nblk payload crcLo crcHi) s)

end Sys2Proof.Machine
end

