-- ==== Sys2Proof/Machine/Dispatch.lean ====
section
/-!
DEFINITION. Machine/Dispatch.lean: the meaning of each row of the opcode table, one arm per constructor.
-/

namespace Sys2Proof.Machine

def exec (i : Instr) (s : State) : Host.Outcome State Fault Refusal :=
  match i with
  | .init => Sys2Proof.Machine.execInit s
  | .deinit => Sys2Proof.Machine.execDeinit s
  | .poll => Sys2Proof.Machine.execPoll s
  | .submitRead => Sys2Proof.Machine.execSubmitRead s
  | .submitWrite => Sys2Proof.Machine.execSubmitWrite s
  | .baudSet => Sys2Proof.Machine.execBaudSet s
  | .cmdInvalid w => Sys2Proof.Machine.execCmdInvalid w s
  | .soh => Sys2Proof.Machine.execSoh s
  | .stx => Sys2Proof.Machine.execStx s
  | .ack => Sys2Proof.Machine.execAck s
  | .nak => Sys2Proof.Machine.execNak s
  | .can => Sys2Proof.Machine.execCan s
  | .sigA => Sys2Proof.Machine.execSigA s
  | .noise b => Sys2Proof.Machine.execNoise b s
  | .sigC => Sys2Proof.Machine.execSigC s
  | .detectOther b => Sys2Proof.Machine.execDetectOther b s
  | .frameByte b => Sys2Proof.Machine.execFrameByte b s
  | .frameShort blk nblk payload lo hi => Sys2Proof.Machine.execFrameShort blk nblk payload lo hi s
  | .frameLong blk nblk payload lo hi => Sys2Proof.Machine.execFrameLong blk nblk payload lo hi s
  | .reset => Sys2Proof.Machine.execReset s
  | .msTick => Sys2Proof.Machine.execMsTick s
  | .rxByte b => Sys2Proof.Machine.execRxByte b s
  | .regRead r => Sys2Proof.Machine.execRegRead r s
  | .regWrite r v => Sys2Proof.Machine.execRegWrite r v s
  | .cmdWrite w => Sys2Proof.Machine.execCmdWrite w s
  | .errW1c v => Sys2Proof.Machine.execErrW1c v s
  | .evtClr v => Sys2Proof.Machine.execEvtClr v s
  | .sfifoPop => Sys2Proof.Machine.execSfifoPop s
  | .scrRead size k => Sys2Proof.Machine.execScrRead size k s
  | .scrWrite size k v => Sys2Proof.Machine.execScrWrite size k v s
  | .regBadAccess a => Sys2Proof.Machine.execRegBadAccess a s
  | .regUnmapped a => Sys2Proof.Machine.execRegUnmapped a s

end Sys2Proof.Machine
end

