-- ==== Sys2Proof/Machine/Fetch.lean ====
section
/-!
DEFINITION. Machine/Fetch.lean: where the machine takes its next instruction from. The block has no program counter
and fetches nothing (R16, R51): its next instruction is whichever agent step comes next (R9), the head of
`Env.inputs`. `placeImage` puts an image where the next step will run it.
-/

namespace Sys2Proof.Machine

/-- The state with another list of agent steps to come. -/
def State.withInputs (s : State) (inputs : List Input) : State :=
  { s with env := { s.env with inputs := inputs } }

/-- The agent step that comes next, and the state without it. -/
def fetch (s : State) : Option (Input × State) :=
  match s.env.inputs with
  | [] => none
  | i :: rest => some (i, s.withInputs rest)

/-- The agent step `i` comes before those already waiting. -/
def placeInput (i : Input) (s : State) : State := s.withInputs (i :: s.env.inputs)

/-- The bus access that writes POLL to CMD (R65). -/
def pollAccess : BusAccess := .write .b4 Reg.cmd.offset CmdOp.poll.word

/-- Received bytes run inside the P1 of a POLL only (R119), so the enabled block is put in the context they are
for, they are placed in the receive ring, and the next agent step is a POLL. -/
def placeBytes (ctx : WireCtx) (bytes : List Byte) (s : State) : State :=
  let s' := placeInput (.bus pollAccess) s
  match ctx with
  | .detecting => { s' with
      en := true, conn := .detecting, df := { s.df with state := .hunt, pos := 0 }, rxq := bytes }
  | .header => { s' with
      en := true, conn := .connected, df := { s.df with state := .hunt, pos := 0 }, rxq := bytes }
  | .inFrame => { s' with en := true, conn := .connected, rxq := bytes }

/-- The state in which the next step runs an image. -/
def placeImage (image : Image) (s : State) : State :=
  match image with
  | .cmd32 w => placeInput (.bus (.write .b4 Reg.cmd.offset w)) s
  | .wire8 ctx b => placeBytes ctx [b] s
  | .frame bytes => placeBytes .header bytes s
  | .input i => placeInput i s

end Sys2Proof.Machine
end

