-- ==== Sys2Proof/Machine/Step.lean ====
section
/-!
DEFINITION. Machine/Step.lean: one step of the machine is one step of one agent (R9): the next one waiting is decoded
and runs. With none waiting nothing happens.
-/

namespace Sys2Proof.Machine

/-- One atomic step (R9). DESIGN CHOICE, log entry 4: the list of steps to come, and the idle step (safe). -/
def step (s : State) : Host.Outcome State Fault Refusal :=
  match fetch s with
  | some (i, s') => exec (decodeInput i) s'
  | none => .next s

/-- `s` with the instruction that `nbits` bits `w` of the opcode table stand for placed where the next step runs
it (log entry 8). -/
def State.withFetchWord (s : State) (nbits w : Nat) : State :=
  match tableImage nbits w with
  | some image => placeImage image s
  | none => s

end Sys2Proof.Machine
end

