-- ==== Sys2Proof/Safety.lean ====
section
/-!
DEFINITION. Safety.lean: what holds of every state of a run. `BlockInv` holds between and inside the phases of a step: it is
R13 with the facts about the staged frame, the deframer's position and the buffers that make it inductive.
`Settled` adds what holds only between steps: no DONE stage is left (R120).
-/

namespace Sys2Proof.Machine

/-- A queued task: its region is the one its submit checked (R121), and R13 item 1. -/
structure TaskOk (t : Task) : Prop where
  lenPos : 1 ≤ t.len.toNat
  region : t.off.toNat + t.len.toNat ≤ Config.scratchSize
  xferLe : t.xfer.toNat ≤ t.len.toNat
  fresh : t.status = .pending → t.xfer = 0

/-- R13 items 1, 2 and 7: the queue. -/
structure QueueOk (s : State) : Prop where
  tasks : ∀ t ∈ s.taskq, TaskOk t
  bound : s.taskq.length ≤ Config.tqDepth
  busy : s.active = true →
    ∃ t rest, s.taskq = t :: rest ∧ t.status = .active ∧ ∀ u ∈ rest, u.status = .pending
  idle : s.active = false → ∀ t ∈ s.taskq, t.status = .pending

/-- R13 items 3 and 4: the stage and the head task. -/
structure StageOk (s : State) : Prop where
  transfer : s.active = (s.stage.sending || s.stage.recving)
  dir : s.active = true → s.head.dir = if s.stage.sending then .read else .write
  wait : s.tx.wait = decide (s.stage = .dataSendBuf)
  unfinished : s.abortable = true → s.head.xfer.toNat < s.head.len.toNat
  finished : s.stage = .dataSendDone ∨ s.stage = .dataRecvDone → s.head.xfer = s.head.len

/-- The frame in `txfb` is the next one of the head task: its block number is `tx_seq` (R96) and its data bytes are
the next of the task (R92). -/
structure FrameStaged (s : State) (k : PayloadLen) (payload : List Byte) : Prop where
  kind : k = txKind s.head.remaining
  payloadLen : payload.length = k.toNat
  bytes : s.tx.buf.take s.tx.len.toNat = txFrame s.crc k s.txSeq payload
  len : s.tx.len.toNat = k.toNat + 5
  chunk : s.tx.chunk.toNat = min s.head.remaining k.toNat

/-- The transmit stage. -/
structure TxOk (s : State) : Prop where
  bufLen : s.tx.buf.length = Config.longLen + 5
  staged : s.tx.wait = true → ∃ k payload, FrameStaged s k payload
  unstaged : s.tx.wait = false → s.tx.len = 0 ∧ s.tx.chunk = 0

/-- `df_pos` counts the bytes of the frame consumed so far (R11, R81). -/
def Deframer.posOk (d : Deframer) : Prop :=
  match d.state with
  | .hunt => d.pos.toNat = 0
  | .blk => d.pos.toNat = 1
  | .nblk => d.pos.toNat = 2
  | .data => 3 ≤ d.pos.toNat ∧ d.pos.toNat < d.plen.toNat + 3
  | .crcLo => d.pos.toNat = d.plen.toNat + 3
  | .crcHi => d.pos.toNat = d.plen.toNat + 4

/-- The receive side: R13 items 7 and 8, and the deframer. -/
structure RxOk (s : State) : Prop where
  bufLen : s.rxfb.length = Config.longLen
  pos : s.df.posOk
  readHunt : s.readActive = true → s.df.state = .hunt
  ring : s.rxq.length ≤ Config.rxqDepth

/-- R13 items 5, 6 and 7: the session. -/
structure SessionOk (s : State) : Prop where
  detecting : s.conn = .detecting → s.active = false ∧ s.df.state = .hunt ∧ s.stage = .cmdRecv
  disabled : s.en = false → s.taskq = [] ∧ s.rxq = [] ∧ s.baudPending = false ∧ s.conn = .detecting
  connected : s.conn = .connected → s.firstConnect = false
  fifo : s.sfifo.length ≤ Config.sfifoDepth
  latch : s.evt.code = .none → s.evt = .empty

/-- What holds of every state of a run, inside a step too. -/
structure BlockInv (s : State) : Prop where
  queue : QueueOk s
  stage : StageOk s
  tx : TxOk s
  rx : RxOk s
  session : SessionOk s
  memory : Memory.wf s.scratch

/-- What holds between steps: the DONE stages last only from the frame rule that set them to P4 of the same POLL
(R120). -/
structure Settled (s : State) : Prop where
  inv : BlockInv s
  notDone : s.stage ≠ .dataSendDone ∧ s.stage ≠ .dataRecvDone

/-- The values R151 gives the fields of the state record, and the registers and the interrupt after RESET. -/
structure ResetValues (t : State) : Prop where
  session : t.en = false ∧ t.conn = .detecting ∧ t.firstConnect = true ∧ t.hsStarted = false
    ∧ t.stage = .cmdRecv ∧ t.rxSeq = 0x01 ∧ t.txSeq = 0x01 ∧ t.retries = 0
  times : t.now = 0 ∧ t.lastRecvTime = 0 ∧ t.lastSendTime = 0 ∧ t.lastByteTime = 0
  deframer : t.df = { state := .hunt, plen := .short, pos := 0, blk := 0, nblk := 0, crcLo := 0 }
  transmit : t.tx.len = 0 ∧ t.tx.chunk = 0 ∧ t.tx.wait = false
  queues : t.taskq = [] ∧ t.active = false ∧ t.sfifo = [] ∧ t.rxq = []
  latch : t.evt = { code := .none, dir := false, count := 0 }
  flags : t.err = { submit := false, rxOvf := false, baud := false, evtOvf := false, cmd := false,
                    access := false }
  settings : t.settings = { irqEn := false, abbrevHs := false, seqPolicy := false, retryMax := 10,
                            tAck := 1000, tRx := 1000 }
  operands : t.operands = { taskOff := 0, taskLen := 0, baudReq := 0 }
  baud : t.baudPending = false ∧ t.pendingBaud = 0 ∧ t.curBaud = Config.resetBaud
  registers : regValue t .status = 0x00000004 ∧ regValue t .seq = 0x00000101
    ∧ regValue t .retry = 0x0000000A ∧ regValue t .tack = 0x000003E8 ∧ regValue t .trx = 0x000003E8
    ∧ regValue t .curBaud = Config.resetBaud
    ∧ ∀ r, r ∉ [Reg.status, .seq, .retry, .tack, .trx, .curBaud] → regValue t r = 0
  interrupt : t.irq = false

/-- The writable bits of each register (R17-R25): the mask of an RW register, 0 for the others. -/
def writableBits : Reg → Word
  | .ctrl => 0x00000007
  | .retry => 0x000000FF
  | .tack | .trx | .taskOff => 0x0000FFFF
  | .taskLen => 0x0001FFFF
  | .baudReq => 0xFFFFFFFF
  | .cmd | .status | .err | .seq | .curBaud | .now | .lastRecv | .lastSend | .xfer | .frame | .evt
  | .evtClr | .sfifo | .rxcnt => 0

/-- The CRC function tells payloads of `n` bytes apart that differ in one byte (what R103 needs of it). -/
def CrcFn.DetectsOneByte (f : CrcFn) (n : Nat) : Prop :=
  ∀ (payload : List Byte) (i : Nat) (b : Byte), payload.length = n → i < n → payload[i]? ≠ some b →
    crc16 f (payload.set i b) ≠ crc16 f payload

/-- What the codec's procedures (P1 to P3 of a POLL) never change, and the two directions in which they may: the
transmitted stream only grows (R132), EVT_OVF is only set (R27), FIRST_CONNECT only falls (R37) and a
connection is never lost (R69). -/
structure CodecKeeps (s t : State) : Prop where
  en : t.en = s.en
  now : t.now = s.now
  settings : t.settings = s.settings
  operands : t.operands = s.operands
  baudPending : t.baudPending = s.baudPending
  pendingBaud : t.pendingBaud = s.pendingBaud
  curBaud : t.curBaud = s.curBaud
  rxq : t.rxq = s.rxq
  crc : t.crc = s.crc
  err : t.err = { s.err with evtOvf := t.err.evtOvf }
  evtOvf : s.err.evtOvf = true → t.err.evtOvf = true
  env : t.env = { s.env with txout := t.env.txout }
  txout : s.env.txout <+: t.env.txout
  firstConnect : t.firstConnect = true → s.firstConnect = true
  conn : s.conn = .connected → t.conn = .connected

end Sys2Proof.Machine
end

