-- ==== Sys2Proof/Certificates/Slice0/Obligations.lean ====
section
/-!
DEFINITION. Certificates/Slice0/Obligations.lean: the statements for the provers, by the spec's sub-blocks. The docstring of
each says which rules of spec/ it formalises. A statement equates `exec i s` with the whole next state
wherever it can, so that it is the result, the frame and the completion of the instruction at once.
-/

open Sys2Proof Sys2Proof.Machine

/-! ## The step -/

/-- One step of the machine takes the next agent step, decodes it and runs it; with none waiting the state stays
(R9; the list of agent steps is the model's own, log entry 3). -/
def Obligations.StepRunsTheNextAgentStep : Prop :=
  (∀ (s : State) (i : Input) (rest : List Input), s.env.inputs = i :: rest →
    step s = exec (decodeInput i) { s with env := { s.env with inputs := rest } })
  ∧ ∀ s : State, s.env.inputs = [] → step s = .next s

/-- From every state that meets the invariant a step answers a next state that meets it too: R13 items 1 to 8, the
staged frame, the deframer's position, the canonical memory, and no DONE stage between steps. No step changes the
configured CRC function (R61; that State holds its name is the model's choice, log entry 6). -/
def Obligations.StepKeepsTheInvariant : Prop :=
  ∀ s : State, Settled s → ∃ t, step s = .next t ∧ Settled t ∧ t.crc = s.crc

/-- The state right after reset meets the invariant. -/
def Obligations.ResetStateMeetsTheInvariant : Prop := Settled State.reset

/-- A word written to CMD runs the row it decodes to, in the same step (R22). -/
def Obligations.CmdWriteRunsTheDecodedCommand : Prop :=
  ∀ (w : Word) (s : State), ∃ t, exec (.cmdWrite w) s = .next t ∧ exec (decodeCmd w) s = .next t

/-- P1 runs the row a drained byte decodes to in its context, oldest byte first, each byte removed from the ring
before it runs (R72). -/
def Obligations.DrainRunsTheRowOfEachByte : Prop :=
  (∀ (b : Byte) (s : State), exec (decodeWire s.wireCtx b) s = .next (rxByte b s))
  ∧ (∀ (b : Byte) (rest : List Byte) (s : State),
      drain (b :: rest) s = drain rest (rxByte b { s with rxq := rest }))
  ∧ ∀ s : State, drain [] s = s

/-! ## Encodings -/

/-- Decoding the image of any well-formed instruction gives the instruction back, with every operand. -/
def Obligations.DecodeOfEncodeIsTheInstruction : Prop :=
  ∀ i : Instr, i.wellFormed = true → decode (encode i) = .ok i

/-- Every image that decodes at all is the image of the one well-formed instruction it decodes to: no two rows
overlap and no bit of an image is dropped. -/
def Obligations.EncodeOfDecodeIsTheImage : Prop :=
  ∀ (image : Image) (i : Instr), decode image = .ok i → i.wellFormed = true ∧ encode i = image

/-- The command decoder is the table of R54: six words, and every other word is INVALID. -/
def Obligations.CommandWordsDecodeByTheTable : Prop :=
  ∀ w : Word, decodeCmd w =
    if w = 0x01000000 then .init
    else if w = 0x02000000 then .deinit
    else if w = 0x03000000 then .poll
    else if w = 0x10000000 then .submitRead
    else if w = 0x11000000 then .submitWrite
    else if w = 0x20000000 then .baudSet
    else .cmdInvalid w

/-- The bus decoder by offset and width (R17, R39, R41, R42, R43): the scratch window from 0x10000, the 21 registers at
aligned 32-bit accesses below 0x054, unmapped offsets above, everything else in the page a bad access. The
block answers the 128 KiB from BASE and nothing else, and at a 128 KiB aligned BASE the offset is the low 17
bits of the bus address. -/
def Obligations.BusAccessesDecodeByTheMap : Prop :=
  (∀ base addr : Nat,
    (addr < base ∨ base + 0x20000 ≤ addr → windowOffset base addr = none)
    ∧ (base ≤ addr → addr < base + 0x20000 → base % 0x20000 = 0 →
        windowOffset base addr = some (BitVec.ofNat 17 addr)))
  ∧ ∀ a : BusAccess,
    (0x10000 ≤ a.off.toNat →
      decodeBus a = match a with
        | .read size off => .scrRead size (BitVec.ofNat 16 (off.toNat - 0x10000))
        | .write size off v => .scrWrite size (BitVec.ofNat 16 (off.toNat - 0x10000)) v)
    ∧ (a.off.toNat < 0x10000 → ¬(a.size = .b4 ∧ a.off.toNat % 4 = 0) → decodeBus a = .regBadAccess a)
    ∧ (0x54 ≤ a.off.toNat → a.off.toNat < 0x10000 → a.size = .b4 → a.off.toNat % 4 = 0 →
        decodeBus a = .regUnmapped a)
    ∧ (a.off.toNat < 0x54 → a.size = .b4 → a.off.toNat % 4 = 0 →
        ∃ r : Reg, r.offset = a.off ∧ decodeBus a = match a with
          | .read _ _ => if r = .sfifo then .sfifoPop else .regRead r
          | .write _ _ v =>
            if r = .cmd then .cmdWrite v
            else if r = .err then .errW1c v
            else if r = .evtClr then .evtClr v
            else .regWrite r v)

/-- Sanity: words written out from the tables of the spec decode to the rows they stand for. -/
def Obligations.WrittenOutWordsDecode : Prop :=
  decode (.cmd32 0x03000000) = .ok .poll
  ∧ decode (.cmd32 0x11000000) = .ok .submitWrite
  ∧ decode (.cmd32 0x03000001) = .ok (.cmdInvalid 0x03000001)
  ∧ decode (.wire8 .header 0x18) = .ok .can
  ∧ decode (.wire8 .inFrame 0x18) = .ok (.frameByte 0x18)
  ∧ decode (.wire8 .detecting 0x43) = .ok .sigC
  ∧ decode (.wire8 .header 0x43) = .ok (.noise 0x43)
  ∧ decode (.frame [0x04, 0x01, 0xFE]) = .error (.notAHeader 0x04)
  ∧ decode (.input (.bus (.read .b4 0x0004C))) = .ok .sfifoPop
  ∧ decode (.input (.bus (.write .b4 0x00010 0x01000000))) = .ok (.cmdWrite 0x01000000)
  ∧ decode (.input (.bus (.read .b2 0x00020))) = .ok (.regBadAccess (.read .b2 0x00020))
  ∧ decode (.input (.bus (.read .b4 0x00054))) = .ok (.regUnmapped (.read .b4 0x00054))
  ∧ decode (.input (.bus (.write .b1 0x10001 0x22))) = .ok (.scrWrite .b1 0x0001 0x22)

/-! ## Reset and registers -/

/-- RESET sets every field of the state record that R151 gives a value, and leaves the transmitted stream alone; the
block is then disabled: it drops received bytes and does nothing on POLL. -/
def Obligations.ResetSetsEveryField : Prop :=
  ResetValues State.reset
  ∧ ∀ s : State, ∃ t, exec .reset s = .next t ∧ ResetValues t
    ∧ t.env.txout = s.env.txout
    ∧ exec .poll t = .next t ∧ ∀ b, exec (.rxByte b) t = .next t

/-- The fields of STATUS (R26), its reset value, and that a write of it is ignored. -/
def Obligations.StatusReportsLiveState : Prop :=
  regValue State.reset .status = 0x00000004 ∧ ∀ s : State,
    (let v := regValue s .status
     v.extractLsb' 0 1 = BitVec.ofBool s.en
      ∧ v.extractLsb' 1 1 = (if s.conn = .connected then 1 else 0)
      ∧ v.extractLsb' 2 1 = BitVec.ofBool s.firstConnect
      ∧ v.extractLsb' 3 1 = BitVec.ofBool s.active
      ∧ v.extractLsb' 4 4 = s.stage.code
      ∧ v.extractLsb' 8 3 = s.df.state.code
      ∧ v.extractLsb' 11 1 = BitVec.ofBool s.tx.wait
      ∧ v.extractLsb' 12 3 = BitVec.ofNat 3 s.taskq.length
      ∧ v.extractLsb' 15 1 = BitVec.ofBool s.baudPending
      ∧ v.extractLsb' 16 1 = (if s.evt.code = .none then 0 else 1)
      ∧ v.extractLsb' 17 1 = (if s.active = true ∧ s.head.dir = .write then 1 else 0)
      ∧ v.extractLsb' 18 14 = 0)
    ∧ ∀ v, exec (.regWrite .status v) s = .next s

/-- The fields of SEQ, XFER, FRAME, EVT and RXCNT (R28, R31, R32, R33, R36), the plain read-only registers (R29, R30),
and their reset values. -/
def Obligations.ReadOnlyRegistersReportTheirFields : Prop :=
  (regValue State.reset .seq = 0x00000101 ∧ regValue State.reset .curBaud = Config.resetBaud
    ∧ ∀ r ∈ [Reg.now, .lastRecv, .lastSend, .xfer, .frame, .evt, .rxcnt], regValue State.reset r = 0)
  ∧ ∀ s : State,
    (let v := regValue s .seq
     v.extractLsb' 0 8 = s.rxSeq ∧ v.extractLsb' 8 8 = s.txSeq ∧ v.extractLsb' 16 8 = s.retries
      ∧ v.extractLsb' 24 8 = 0)
    ∧ regValue s .curBaud = s.curBaud
    ∧ (regValue s .now = s.now ∧ regValue s .lastRecv = s.lastRecvTime
        ∧ regValue s .lastSend = s.lastSendTime)
    ∧ (let v := regValue s .xfer
       v.extractLsb' 0 17 = (if s.active then s.head.xfer else 0) ∧ v.extractLsb' 17 15 = 0)
    ∧ (let v := regValue s .frame
       (s.readActive = true → v.extractLsb' 0 11 = s.tx.chunk
          ∧ v.extractLsb' 16 11 = if s.tx.wait then s.tx.len else 0)
        ∧ (s.readActive = false → s.df.state = .hunt → v = 0)
        ∧ (s.readActive = false → s.df.state ≠ .hunt →
            v.extractLsb' 0 11 = BitVec.ofNat 11 s.df.plen.toNat ∧ v.extractLsb' 16 11 = s.df.pos)
        ∧ v.extractLsb' 11 5 = 0 ∧ v.extractLsb' 27 5 = 0)
    ∧ (let v := regValue s .evt
       v.extractLsb' 0 4 = s.evt.code.code ∧ v.extractLsb' 7 1 = BitVec.ofBool s.evt.dir
        ∧ v.extractLsb' 8 17 = s.evt.count ∧ v.extractLsb' 4 3 = 0 ∧ v.extractLsb' 25 7 = 0)
    ∧ (let v := regValue s .rxcnt
       v.extractLsb' 0 12 = BitVec.ofNat 12 s.rxq.length ∧ v.extractLsb' 12 20 = 0)

/-- A register read returns the register's value, 0 for the write-only ones, and changes nothing else (R17, R44). -/
def Obligations.RegisterReadHasNoSideEffect : Prop :=
  (∀ (s : State) (r : Reg), r ≠ .sfifo →
    exec (.regRead r) s = .next { s with env := { s.env with rdata := regValue s r } })
  ∧ ∀ s : State, regValue s .cmd = 0 ∧ regValue s .evtClr = 0

/-- A register write stores the writable bits of that register and nothing else: the register reads back as the value
under its mask, every other register reads as before, and outside the configuration and operand
registers the state is the same; a read-only register ignores the write (R17-R21, R23-R25). -/
def Obligations.RegisterWriteStoresItsWritableBits : Prop :=
  ∀ (s : State) (r : Reg) (v : Word), r ∉ [Reg.cmd, .err, .evtClr] →
    ∃ t, exec (.regWrite r v) s = .next t
      ∧ t = { s with settings := t.settings, operands := t.operands }
      ∧ (∀ r', r' ≠ r → regValue t r' = regValue s r')
      ∧ (writableBits r ≠ 0 → regValue t r = v &&& writableBits r)
      ∧ (writableBits r = 0 → t = s)

/-- ERR bits fall only where a 1 is written, and nothing else changes (R27). -/
def Obligations.ErrWriteClearsTheWrittenOnes : Prop :=
  ∀ (s : State) (v : Word), ∃ t, exec (.errW1c v) s = .next t
    ∧ t = { s with err := t.err } ∧ regValue t .err = regValue s .err &&& ~~~v

/-- Every sticky error flag: once set, no step clears it but RESET and an ERR write with its bit set (R27). -/
def Obligations.ErrorFlagsAreSticky : Prop :=
  ∀ (s t : State) (i : Input) (rest : List Input) (n : Nat),
    s.env.inputs = i :: rest → step s = .next t → n < 6 →
    (regValue s .err).getLsbD n = true → (regValue t .err).getLsbD n = false →
    i = .reset ∨ ∃ v : Word, decodeInput i = .errW1c v ∧ v.getLsbD n = true

/-- EVT_CLR with bit 0 set empties the latch, with bit 0 clear it does nothing; bits [31:1] are ignored and a read
returns 0 (R34). -/
def Obligations.EvtClrEmptiesTheLatch : Prop :=
  ∀ (s : State) (v : Word),
    exec (.evtClr v) s = .next (if v.getLsbD 0 = true
      then { s with evt := { code := .none, dir := false, count := 0 } } else s)
    ∧ exec (.regRead .evtClr) s = .next { s with env := { s.env with rdata := 0 } }

/-- An SFIFO read pops the oldest entry and returns COUNT before the pop, VALID and DATA; an empty FIFO answers 0 and
nothing changes; a write is ignored (R35, R107). -/
def Obligations.SfifoReadPopsTheOldest : Prop :=
  ∀ s : State,
    (s.sfifo = [] → exec .sfifoPop s = .next { s with env := { s.env with rdata := 0 } })
    ∧ (∀ v : Word, exec (.regWrite .sfifo v) s = .next s)
    ∧ ∀ (v : Byte) (rest : List Byte), s.sfifo = v :: rest → s.sfifo.length ≤ 8 →
        ∃ w : Word, exec .sfifoPop s = .next { s with sfifo := rest, env := { s.env with rdata := w } }
          ∧ w.toNat = (rest.length + 1) * 2 ^ 12 + 2 ^ 8 + v.toNat

/-- A push appends the entry, and a full FIFO loses its oldest (R105): afterwards it holds `min(old + 1, 8)`
entries, the newest ones in order. -/
def Obligations.StatusFifoKeepsTheNewestEight : Prop :=
  ∀ (s : State) (v : Byte), s.sfifo.length ≤ 8 →
    sfifoPush v s = { s with sfifo := (sfifoPush v s).sfifo }
    ∧ (sfifoPush v s).sfifo.length = min (s.sfifo.length + 1) 8
    ∧ (sfifoPush v s).sfifo = (s.sfifo ++ [v]).drop (s.sfifo.length + 1 - 8)

/-! ## Scratch RAM -/

/-- A scratch read of an aligned access returns its bytes little-endian and changes nothing else; a misaligned one
returns 0 and sets ACCESS_ERR (R43, R46). The clause that bounds the data by the access's width says that the
lines above a narrow read are 0: no rule of the spec says so, it is the model's choice (DEDUCED, log entry 14). -/
def Obligations.ScratchReadIsLittleEndian : Prop :=
  ∀ (s : State) (size : Size) (k : BitVec 16),
    (k.toNat % size.bytes = 0 →
      ∃ v : Word, exec (.scrRead size k) s = .next { s with env := { s.env with rdata := v } }
        ∧ (∀ i < size.bytes, v.extractLsb' (8 * i) 8 = s.scratchByte (k + BitVec.ofNat 16 i))
        ∧ v.toNat < 256 ^ size.bytes)
    ∧ (k.toNat % size.bytes ≠ 0 →
      exec (.scrRead size k) s = .next { s with
        err := { s.err with access := true }, env := { s.env with rdata := 0 } })

/-- A scratch write of an aligned access stores the low bytes of the data little-endian at its offset, leaves every
other byte as it reads, and changes nothing else; a misaligned one only sets ACCESS_ERR (R43). -/
def Obligations.ScratchWriteStoresLittleEndian : Prop :=
  ∀ (s : State) (size : Size) (k : BitVec 16) (v : Word),
    (k.toNat % size.bytes = 0 →
      ∃ t, exec (.scrWrite size k v) s = .next t ∧ t = { s with scratch := t.scratch }
        ∧ (∀ i < size.bytes, t.scratchByte (k + BitVec.ofNat 16 i) = v.extractLsb' (8 * i) 8)
        ∧ ∀ a : BitVec 16, (∀ i < size.bytes, a ≠ k + BitVec.ofNat 16 i) →
            t.scratchByte a = s.scratchByte a)
    ∧ (k.toNat % size.bytes ≠ 0 →
      exec (.scrWrite size k v) s = .next { s with err := { s.err with access := true } })

/-- An access that breaks the rules reads 0, writes nothing, executes no command, pops nothing, and sets
ACCESS_ERR (R41, R42). -/
def Obligations.BadAccessesOnlySetAccessErr : Prop :=
  ∀ (s : State) (size : Size) (off : BitVec 17) (v : Word),
    let refusedRead : State :=
      { s with err := { s.err with access := true }, env := { s.env with rdata := 0 } }
    let refusedWrite : State := { s with err := { s.err with access := true } }
    exec (.regBadAccess (.read size off)) s = .next refusedRead
    ∧ exec (.regUnmapped (.read size off)) s = .next refusedRead
    ∧ exec (.regBadAccess (.write size off v)) s = .next refusedWrite
    ∧ exec (.regUnmapped (.write size off v)) s = .next refusedWrite

/-- Instructions that store nothing: after any of them every scratch byte reads as before. The storing ones are a
scratch write, RESET (which makes the contents unspecified), and what can accept a frame: POLL (as such or
through CMD_WRITE), a byte inside a frame, a whole frame. -/
def Obligations.OnlyStoringInstructionsChangeScratch : Prop :=
  ∀ (i : Instr) (s t : State), exec i s = .next t →
    (match i with
      | .scrWrite .. | .reset | .poll | .cmdWrite _ | .frameByte _ | .frameShort .. | .frameLong .. => False
      | _ => True) →
    ∀ a : BitVec 16, t.scratchByte a = s.scratchByte a

/-! ## Commands -/

/-- INIT starts a session (R117): every field it sets, every other field unchanged; `hs_started` stays only for an
abbreviated handshake (R71); `irq` drops. -/
def Obligations.InitStartsASession : Prop :=
  ∀ s : State, ∃ t, exec .init s = .next t
    ∧ t = { s with
        en := true, conn := .detecting, stage := .cmdRecv, rxSeq := 0x01, txSeq := 0x01, retries := 0,
        taskq := [], active := false, tx := { s.tx with wait := false, len := 0, chunk := 0 },
        df := { s.df with state := .hunt, pos := 0 }, rxq := [], sfifo := [],
        evt := { code := .none, dir := false, count := 0 }, baudPending := false,
        hsStarted := if s.settings.abbrevHs = true ∧ s.firstConnect = false then s.hsStarted else false }
    ∧ t.irq = false

/-- DEINIT ends the session (R118), and does nothing while disabled. -/
def Obligations.DeinitEndsTheSession : Prop :=
  ∀ s : State,
    (s.en = true → exec .deinit s = .next { s with
      taskq := [], active := false, tx := { s.tx with wait := false, len := 0, chunk := 0 },
      retries := 0, df := { s.df with state := .hunt, pos := 0 }, rxq := [], baudPending := false,
      conn := .detecting, stage := .cmdRecv, en := false })
    ∧ (s.en = false → exec .deinit s = .next s)

/-- SUBMIT_READ and SUBMIT_WRITE queue a pending task with the operands as they stand, or are refused with
SUBMIT_ERR (R121, R122, R123). -/
def Obligations.SubmitQueuesOrIsRefused : Prop :=
  ∀ (s : State) (d : Dir),
    let off := s.operands.taskOff
    let len := s.operands.taskLen
    exec (if d = .read then .submitRead else .submitWrite) s = .next (
      if s.en = false ∨ len.toNat = 0 ∨ len.toNat > 65536 ∨ off.toNat + len.toNat > 65536
          ∨ s.taskq.length = 4
      then { s with err := { s.err with submit := true } }
      else { s with taskq := s.taskq ++
        [{ dir := d, off := off, len := len, xfer := 0, status := .pending }] })

/-- BAUD_SET latches the requested rate, a later request replacing an earlier one, or sets CMD_ERR while disabled
(R124). -/
def Obligations.BaudSetLatchesTheRate : Prop :=
  ∀ s : State,
    (s.en = true → exec .baudSet s = .next
      { s with pendingBaud := s.operands.baudReq, baudPending := true })
    ∧ (s.en = false → exec .baudSet s = .next { s with err := { s.err with cmd := true } })

/-- An invalid command word sets CMD_ERR and does nothing else (R126). -/
def Obligations.InvalidCommandOnlySetsCmdErr : Prop :=
  (∀ (w : Word) (s : State),
    exec (.cmdInvalid w) s = .next { s with err := { s.err with cmd := true } })
  ∧ ∀ (w : Word) (s : State),
    (w.extractLsb' 24 8 ∉ [0x01, 0x02, 0x03, 0x10, 0x11, 0x20] ∨ w.extractLsb' 0 24 ≠ 0) →
    exec (.cmdWrite w) s = .next { s with err := { s.err with cmd := true } }

/-- The disabled block (R127, R130, R131): POLL and DEINIT do nothing, a submit and BAUD_SET are refused, a received
byte is dropped, the tick counts, INIT enables. -/
def Obligations.DisabledBlockRefusesWork : Prop :=
  ∀ s : State, s.en = false →
    exec .poll s = .next s ∧ exec .deinit s = .next s
    ∧ exec .submitRead s = .next { s with err := { s.err with submit := true } }
    ∧ exec .submitWrite s = .next { s with err := { s.err with submit := true } }
    ∧ exec .baudSet s = .next { s with err := { s.err with cmd := true } }
    ∧ (∀ w, exec (.cmdInvalid w) s = .next { s with err := { s.err with cmd := true } })
    ∧ (∀ b, exec (.rxByte b) s = .next s)
    ∧ exec .msTick s = .next { s with now := s.now + 1 }
    ∧ ∃ t, exec .init s = .next t ∧ t.en = true

/-- POLL runs the drain, the timers, the transmit start, the bridge and the activation in this order, and does nothing
while disabled (R119). -/
def Obligations.PollRunsItsPhasesInOrder : Prop :=
  ∀ s : State,
    (s.en = true →
      exec .poll s = .next (activate (bridge (txStart (timers (drain s.rxq s))))))
    ∧ (s.en = false → exec .poll s = .next s)

/-- What POLL may not change (R128, column POLL): EN, the tick, the configuration and operand registers, the other
error flags, the rate waiting, the configured CRC function (log entry 6); the ring is drained; the transmitted stream only grows; EVT_OVF and BAUD_ERR
are only set; FIRST_CONNECT only falls; CUR_BAUD changes only from a pending request. -/
def Obligations.PollFrame : Prop :=
  ∀ s : State, ∃ t, exec .poll s = .next t
    ∧ t.en = s.en ∧ t.now = s.now ∧ t.settings = s.settings ∧ t.operands = s.operands
    ∧ t.pendingBaud = s.pendingBaud ∧ t.crc = s.crc
    ∧ t.err = { s.err with evtOvf := t.err.evtOvf, baud := t.err.baud }
    ∧ (s.err.evtOvf = true → t.err.evtOvf = true) ∧ (s.err.baud = true → t.err.baud = true)
    ∧ (s.en = true → t.rxq = [])
    ∧ s.env.txout <+: t.env.txout
    ∧ t.env.inputs = s.env.inputs ∧ t.env.rdata = s.env.rdata ∧ t.env.resets = s.env.resets
    ∧ (t.firstConnect = true → s.firstConnect = true)
    ∧ (s.conn = .connected → t.conn = .connected)
    ∧ (t.curBaud ≠ s.curBaud →
        s.baudPending = true ∧ t.curBaud = s.pendingBaud ∧ t.baudPending = false)

/-- POLL stores only into the region of the WRITE task that is active when it starts (R45, R85): every other scratch
byte reads as before. -/
def Obligations.PollStoresOnlyInTheActiveRegion : Prop :=
  ∀ s t : State, Settled s → exec .poll s = .next t →
    ∀ a : BitVec 16,
      ¬(s.active = true ∧ s.head.dir = .write
        ∧ s.head.off.toNat ≤ a.toNat ∧ a.toNat < s.head.off.toNat + s.head.len.toNat) →
      t.scratchByte a = s.scratchByte a

/-- At most one event is posted in one POLL (R139): a POLL that starts with an empty latch loses no event. -/
def Obligations.OnePollPostsAtMostOneEvent : Prop :=
  ∀ s t : State, Settled s → s.evt.code = .none → exec .poll s = .next t →
    t.err.evtOvf = s.err.evtOvf

/-- Tasks keep their order and are removed only from the head, one per step at most and only when active, unless INIT,
DEINIT or RESET drops them all (R114, R115): what a step leaves of the queue is the queue before it, without
its head if that was retired, and with at most one task more at the tail. -/
def Obligations.TasksLeaveOnlyFromTheHead : Prop :=
  ∀ (s t : State) (i : Input) (rest : List Input), Settled s → s.env.inputs = i :: rest →
    step s = .next t → i ≠ .reset → decodeInput i ≠ .cmdWrite CmdOp.init.word →
    decodeInput i ≠ .cmdWrite CmdOp.deinit.word →
    ∃ gone new : List (Dir × BitVec 16 × BitVec 17),
      s.taskq.map (fun u => (u.dir, u.off, u.len)) ++ new
        = gone ++ t.taskq.map (fun u => (u.dir, u.off, u.len))
      ∧ gone.length + new.length ≤ 1 ∧ (gone ≠ [] → s.active = true)

/-! ## Phases of POLL -/

/-- P2 while DETECTING (R68): SIG_A goes out when none has been sent in the cadence, or 1000 ms after the last, and
restarts the interval. -/
def Obligations.SigAGoesOutEverySecondWhileDetecting : Prop :=
  ∀ s : State, s.conn = .detecting →
    timers s = if s.hsStarted = false ∨ (s.now - s.lastSendTime).toNat ≥ 1000
      then { s with
        lastSendTime := s.now, hsStarted := true, env := { s.env with txout := s.env.txout ++ [0x41] } }
      else s

/-- P2 while CONNECTED (R98, R99, R100): first the partial-frame timeout, then the ACK timeout. -/
def Obligations.TimeoutsFireInOrderWhileConnected : Prop :=
  ∀ s : State, s.conn = .connected →
    ∃ u, timers s = (if u.awaitingAck = true ∧ (u.now - u.lastSendTime).toNat ≥ u.settings.tAck.toNat
        then txFail u else u)
      ∧ u = if s.df.state ≠ .hunt ∧ (s.now - s.lastByteTime).toNat ≥ s.settings.tRx.toNat
        then rxFail { s with df := { s.df with state := .hunt, pos := 0 } } else s

/-- P3 (R91): a READ task in DATA_SEND moves to DATA_SEND_BUF and sends its first frame; otherwise P3 does nothing. -/
def Obligations.TransmitStartsTheActiveRead : Prop :=
  ∀ s : State,
    (s.active = true → s.head.dir = .read → s.stage = .dataSend →
      txStart s = txStage (setStage .dataSendBuf s))
    ∧ (¬(s.active = true ∧ s.head.dir = .read ∧ s.stage = .dataSend) → txStart s = s)

/-- P4 (R120): a DONE stage posts its event with the task's count, retires the task and moves to SEND_ACK or WAIT_ACK;
those move to CMD_RECV after the baud safe point; idle CMD_RECV is a safe point; nothing else is. -/
def Obligations.BridgeServicesTheStage : Prop :=
  ∀ s : State,
    (s.stage = .dataSendDone → bridge s = { s with
      evt := { code := .txDone, dir := false, count := s.head.xfer },
      err := { s.err with evtOvf := s.err.evtOvf || decide (s.evt.code ≠ .none) },
      taskq := s.taskq.tail, active := false, stage := .sendAck,
      sfifo := (sfifoPush (statusByte s.conn .sendAck) s).sfifo })
    ∧ (s.stage = .dataRecvDone → bridge s = { s with
      evt := { code := .rxDone, dir := true, count := s.head.xfer },
      err := { s.err with evtOvf := s.err.evtOvf || decide (s.evt.code ≠ .none) },
      taskq := s.taskq.tail, active := false, stage := .waitAck,
      sfifo := (sfifoPush (statusByte s.conn .waitAck) s).sfifo })
    ∧ (s.stage = .sendAck ∨ s.stage = .waitAck → bridge s = setStage .cmdRecv (tryBaud s))
    ∧ (s.stage = .cmdRecv → bridge s = if s.active = true then s else tryBaud s)
    ∧ (s.stage ∈ [.dataSend, .dataSendBuf, .dataRecv, .dataRecvBuf] → bridge s = s)

/-- The pending rate is applied only at the safe point (R125): the ring is flushed, the link is asked once, and its answer
decides between the new rate and BAUD_ERR. The answer is free: the statement holds for both. The lists that hold
the answers and the requests are the model's own (log entries 3 and 9). -/
def Obligations.PendingRateIsAppliedAtTheSafePoint : Prop :=
  ∀ s : State,
    (s.baudPending = true → s.baudSafe = true →
      ∃ ok : Bool, tryBaud s = { s with
        rxq := [], baudPending := false,
        curBaud := if ok then s.pendingBaud else s.curBaud,
        err := { s.err with baud := s.err.baud || !ok },
        env := { s.env with
          linkAnswers := s.env.linkAnswers.tail,
          linkRequests := s.env.linkRequests ++ [s.pendingBaud] } }
        ∧ ∀ a rest, s.env.linkAnswers = a :: rest → ok = a)
    ∧ (¬(s.baudPending = true ∧ s.baudSafe = true) → tryBaud s = s)

/-- P5 (R112): an idle, CONNECTED block in CMD_RECV with its deframer in HUNT activates the oldest task; otherwise, and
with an empty queue, P5 does nothing. -/
def Obligations.ActivationTakesTheOldestTask : Prop :=
  ∀ s : State,
    (s.taskq = [] → activate s = s)
    ∧ ∀ (h : Task) (rest : List Task), s.taskq = h :: rest →
      (s.conn = .connected ∧ s.stage = .cmdRecv ∧ s.active = false ∧ s.df.state = .hunt →
        activate s = setStage (if h.dir = .read then .dataSend else .dataRecv)
          { s with taskq := { h with status := .active } :: rest, active := true, retries := 0 })
      ∧ (¬(s.conn = .connected ∧ s.stage = .cmdRecv ∧ s.active = false ∧ s.df.state = .hunt) →
        activate s = s)

/-- `set_stage` (R66): a new stage is stored and recorded in the status FIFO, the current one leaves everything alone. -/
def Obligations.StageChangesAreRecorded : Prop :=
  ∀ (s : State) (g : Stage),
    (g = s.stage → setStage g s = s)
    ∧ (g ≠ s.stage → setStage g s = { s with
        stage := g,
        sfifo := (sfifoPush ((if s.conn = .connected then 0x80 else 0) ||| g.code.setWidth 8) s).sfifo })


/-! ## The rows of a drained byte -/

/-- SOH and STX at header position start a frame of 176 or 1024 payload bytes (R74, R75), and are ignored while a READ
task is active (R73). -/
def Obligations.HeaderBytesStartAFrame : Prop :=
  ∀ s : State,
    (¬(s.active = true ∧ s.head.dir = .read) →
      exec .soh s = .next { s with
        df := { s.df with state := .blk, plen := .short, pos := 1 }, lastByteTime := s.now }
      ∧ exec .stx s = .next { s with
        df := { s.df with state := .blk, plen := .long, pos := 1 }, lastByteTime := s.now })
    ∧ (s.active = true ∧ s.head.dir = .read → exec .soh s = .next s ∧ exec .stx s = .next s)

/-- The bytes that have no effect: SIG_A and noise while CONNECTED (R79, R80), all but SIG_C while DETECTING (R70), ACK
and NAK with nothing awaited, CAN with nothing to abort (R73). -/
def Obligations.IgnoredBytesHaveNoEffect : Prop :=
  ∀ s : State,
    exec .sigA s = .next s ∧ (∀ b, exec (.noise b) s = .next s) ∧ (∀ b, exec (.detectOther b) s = .next s)
    ∧ (¬(s.active = true ∧ s.head.dir = .read ∧ s.stage = .dataSendBuf ∧ s.tx.wait = true) →
        exec .ack s = .next s ∧ exec .nak s = .next s)
    ∧ (¬(s.active = true ∧ s.stage ∈ [.dataSend, .dataSendBuf, .dataRecv, .dataRecvBuf]) →
        exec .can s = .next s)

/-- SIG_C connects (R69): CONN is set, FIRST_CONNECT cleared, and the status FIFO gets the entry of the new state,
0x80 in every state of a run. -/
def Obligations.SigCConnects : Prop :=
  ∀ s : State,
    exec .sigC s = .next { s with
      conn := .connected, firstConnect := false,
      sfifo := (sfifoPush (0x80 ||| s.stage.code.setWidth 8) s).sfifo }
    ∧ (Settled s → s.conn = .detecting → (0x80 ||| s.stage.code.setWidth 8 : Byte) = 0x80)

/-- ACK of the awaited frame (R76, R94): its data bytes are counted and the next block number is due; the task is done,
or its next frame goes out at once. -/
def Obligations.AckCountsAndContinues : Prop :=
  ∀ (s : State) (h : Task) (rest : List Task), s.taskq = h :: rest →
    s.active = true → h.dir = .read → s.stage = .dataSendBuf → s.tx.wait = true →
    (h.xfer + s.tx.chunk.setWidth 17 = h.len → exec .ack s = .next { s with
      taskq := { h with xfer := h.len } :: rest, txSeq := s.txSeq + 1, retries := 0,
      tx := { s.tx with wait := false, chunk := 0, len := 0 }, stage := .dataSendDone,
      sfifo := (sfifoPush (statusByte s.conn .dataSendDone) s).sfifo })
    ∧ (h.xfer + s.tx.chunk.setWidth 17 ≠ h.len → exec .ack s = .next (txStage { s with
      taskq := { h with xfer := h.xfer + s.tx.chunk.setWidth 17 } :: rest, txSeq := s.txSeq + 1,
      retries := 0, tx := { s.tx with wait := false } }))

/-- NAK of the awaited frame (R77, R95, R96): the staged bytes go out again as they stand and the retry is counted; at
the ceiling the task ends with one CAN and ERR_RETRY (R97). -/
def Obligations.NakRetransmitsOrAborts : Prop :=
  ∀ (s : State) (h : Task) (rest : List Task), s.taskq = h :: rest →
    s.active = true → h.dir = .read → s.stage = .dataSendBuf → s.tx.wait = true →
    (s.retries < s.settings.retryMax → exec .nak s = .next { s with
      retries := s.retries + 1, lastSendTime := s.now,
      env := { s.env with txout := s.env.txout ++ s.tx.buf.take s.tx.len.toNat } })
    ∧ (¬ s.retries < s.settings.retryMax → exec .nak s = .next { s with
      env := { s.env with txout := s.env.txout ++ [0x18] },
      err := { s.err with evtOvf := s.err.evtOvf || decide (s.evt.code ≠ .none) },
      evt := { code := .errRetry, dir := false, count := h.xfer },
      taskq := rest, active := false, tx := { s.tx with wait := false, chunk := 0, len := 0 },
      retries := 0, df := { s.df with state := .hunt, pos := 0 }, stage := .cmdRecv,
      sfifo := (sfifoPush (statusByte s.conn .cmdRecv) s).sfifo })

/-- CAN aborts the active task in its four abortable stages (R78, R97): ERR_CAN with the task's direction and count, no
CAN in answer, any partial frame discarded, the queued tasks and the block numbers kept. -/
def Obligations.CanAbortsTheActiveTask : Prop :=
  ∀ (s : State) (h : Task) (rest : List Task), s.taskq = h :: rest → s.active = true →
    s.stage ∈ [.dataSend, .dataSendBuf, .dataRecv, .dataRecvBuf] →
    exec .can s = .next { s with
      err := { s.err with evtOvf := s.err.evtOvf || decide (s.evt.code ≠ .none) },
      evt := { code := .errCan, dir := decide (h.dir = .write), count := h.xfer },
      taskq := rest, active := false, tx := { s.tx with wait := false, chunk := 0, len := 0 },
      retries := 0, df := { s.df with state := .hunt, pos := 0 }, stage := .cmdRecv,
      sfifo := (sfifoPush (statusByte s.conn .cmdRecv) s).sfifo }

/-! ## Frames -/

/-- A byte inside a frame advances the deframer by one position (R81), whatever its value. -/
def Obligations.FrameByteAdvancesTheDeframer : Prop :=
  ∀ (s : State) (b : Byte),
    (s.df.state = .blk → exec (.frameByte b) s = .next { s with
      df := { s.df with pos := s.df.pos + 1, blk := b, state := .nblk }, lastByteTime := s.now })
    ∧ (s.df.state = .nblk → exec (.frameByte b) s = .next { s with
      df := { s.df with pos := s.df.pos + 1, nblk := b, state := .data }, lastByteTime := s.now })
    ∧ (s.df.state = .data → exec (.frameByte b) s = .next { s with
      rxfb := s.rxfb.set ((s.df.pos + 1).toNat - 4) b,
      df := { s.df with
        pos := s.df.pos + 1,
        state := if (s.df.pos + 1).toNat = s.df.plen.toNat + 3 then .crcLo else .data },
      lastByteTime := s.now })
    ∧ (s.df.state = .crcLo → exec (.frameByte b) s = .next { s with
      df := { s.df with pos := s.df.pos + 1, crcLo := b, state := .crcHi }, lastByteTime := s.now })
    ∧ (s.df.state = .crcHi → exec (.frameByte b) s = .next (frameEnd b { s with
      df := { s.df with state := .hunt, pos := 0 }, lastByteTime := s.now }))

/-- The bytes of a whole frame run one by one; at header position, with no READ task active, they fill the receive
buffer with the payload and end in the verdict on the frame's own fields (R58, R59, R81). -/
def Obligations.WholeFrameReachesItsVerdict : Prop :=
  ∀ (s : State) (blk nblk : Byte) (payload : List Byte) (lo hi : Byte),
    exec (.frameShort blk nblk payload lo hi) s
      = .next (rxBytes ([0x01, blk, nblk] ++ payload ++ [lo, hi]) s)
    ∧ exec (.frameLong blk nblk payload lo hi) s
      = .next (rxBytes ([0x02, blk, nblk] ++ payload ++ [lo, hi]) s)
    ∧ (s.conn = .connected → s.df.state = .hunt → ¬(s.active = true ∧ s.head.dir = .read) →
        s.rxfb.length = 1024 →
      (payload.length = 176 → exec (.frameShort blk nblk payload lo hi) s = .next (frameEnd hi { s with
        df := { state := .hunt, plen := .short, pos := 0, blk := blk, nblk := nblk, crcLo := lo },
        rxfb := payload ++ s.rxfb.drop 176, lastByteTime := s.now }))
      ∧ (payload.length = 1024 → exec (.frameLong blk nblk payload lo hi) s = .next (frameEnd hi { s with
        df := { state := .hunt, plen := .long, pos := 0, blk := blk, nblk := nblk, crcLo := lo },
        rxfb := payload, lastByteTime := s.now })))

/-- The verdict at a frame's last byte, the validators before the sequencer (R82 with R83, R84, R86, R87, R88). The
CRC is the configured function, whichever it is (R61). -/
def Obligations.VerdictChecksBeforeSequence : Prop :=
  ∀ (s : State) (hi : Byte),
    (¬(s.df.blk + s.df.nblk = 0xFF ∧ hi ++ s.df.crcLo = crc16 s.crc (s.rxfb.take s.df.plen.toNat)) →
      frameEnd hi s = rxFail s)
    ∧ (s.df.blk + s.df.nblk = 0xFF → hi ++ s.df.crcLo = crc16 s.crc (s.rxfb.take s.df.plen.toNat) →
      let u : State := { s with lastRecvTime := s.now }
      (s.receiving = true ∧ s.df.blk = s.rxSeq → frameEnd hi s = rxAccept u)
      ∧ (¬(s.receiving = true ∧ s.df.blk = s.rxSeq) → s.df.blk = s.rxSeq - 1 →
          frameEnd hi s = { u with env := { s.env with txout := s.env.txout ++ [0x06] } })
      ∧ (s.receiving = true → s.df.blk ≠ s.rxSeq → s.df.blk ≠ s.rxSeq - 1 →
          (s.settings.seqPolicy = true → frameEnd hi s = rxFail u)
          ∧ (s.settings.seqPolicy = false → ∀ h rest, s.taskq = h :: rest →
              frameEnd hi s = { s with
                lastRecvTime := s.now, env := { s.env with txout := s.env.txout ++ [0x18] },
                err := { s.err with evtOvf := s.err.evtOvf || decide (s.evt.code ≠ .none) },
                evt := { code := .errSeq, dir := true, count := h.xfer },
                taskq := rest, active := false,
                tx := { s.tx with wait := false, chunk := 0, len := 0 }, retries := 0,
                df := { s.df with state := .hunt, pos := 0 }, stage := .cmdRecv,
                sfifo := (sfifoPush (statusByte s.conn .cmdRecv) s).sfifo }))
      ∧ (s.receiving = false → s.df.blk ≠ s.rxSeq - 1 →
          frameEnd hi s = { u with env := { s.env with txout := s.env.txout ++ [0x15] } }))

/-- An accepted frame (R85): its bytes, as many as the task still takes, are stored in order at `off + xfer` and counted,
every other scratch byte reads as before, ACK goes out, and the stage moves to DATA_RECV_BUF and, when the
length is reached, to DATA_RECV_DONE, each move with its status-FIFO entry. -/
def Obligations.AcceptedFrameIsStoredAndCounted : Prop :=
  ∀ (s : State) (h : Task) (rest : List Task) (n : Nat), s.taskq = h :: rest →
    s.active = true → h.dir = .write → (s.stage = .dataRecv ∨ s.stage = .dataRecvBuf) →
    s.rxfb.length = 1024 → n = min (h.len.toNat - h.xfer.toNat) s.df.plen.toNat →
    ∃ t, rxAccept s = t
      ∧ (∀ i < n, some (t.scratchByte (h.off + h.xfer.setWidth 16 + BitVec.ofNat 16 i)) = s.rxfb[i]?)
      ∧ (∀ a : BitVec 16, (∀ i < n, a ≠ h.off + h.xfer.setWidth 16 + BitVec.ofNat 16 i) →
          t.scratchByte a = s.scratchByte a)
      ∧ t = { s with
          scratch := t.scratch, sfifo := t.sfifo,
          taskq := { h with xfer := h.xfer + BitVec.ofNat 17 n } :: rest,
          rxSeq := s.rxSeq + 1, retries := 0, env := { s.env with txout := s.env.txout ++ [0x06] },
          stage := if h.xfer + BitVec.ofNat 17 n = h.len then .dataRecvDone else .dataRecvBuf }
      ∧ ∀ begun : State, begun = (if s.stage = .dataRecv
            then sfifoPush (statusByte s.conn .dataRecvBuf) s else s) →
          t.sfifo = (if h.xfer + BitVec.ofNat 17 n = h.len
            then sfifoPush (statusByte s.conn .dataRecvDone) begun else begun).sfifo

/-- A failed frame (R89): NAK, and a counted retry while a WRITE task is receiving, whose ceiling ends the task with one
CAN and ERR_RETRY. -/
def Obligations.FailedFrameIsNakedOrAborts : Prop :=
  ∀ s : State,
    (s.receiving = false → rxFail s = { s with env := { s.env with txout := s.env.txout ++ [0x15] } })
    ∧ (s.receiving = true → s.retries < s.settings.retryMax → rxFail s = { s with
        retries := s.retries + 1, env := { s.env with txout := s.env.txout ++ [0x15] } })
    ∧ (s.receiving = true → ¬ s.retries < s.settings.retryMax → ∀ h rest, s.taskq = h :: rest →
        rxFail s = { s with
          env := { s.env with txout := s.env.txout ++ [0x18] },
          err := { s.err with evtOvf := s.err.evtOvf || decide (s.evt.code ≠ .none) },
          evt := { code := .errRetry, dir := true, count := h.xfer },
          taskq := rest, active := false, tx := { s.tx with wait := false, chunk := 0, len := 0 },
          retries := 0, df := { s.df with state := .hunt, pos := 0 }, stage := .cmdRecv,
          sfifo := (sfifoPush (statusByte s.conn .cmdRecv) s).sfifo })

/-- One wrong byte at any position but the header's makes a valid frame fail (R103, derived in the spec): the changed
bytes are again a frame of the same length, and the complement or the CRC check rejects it. This holds for every
CRC function (R61) at the block, complement and CRC bytes, and at a payload byte for every function that tells
payloads apart which differ in one byte; the default, CRC-16/XMODEM, does. -/
def Obligations.OneWrongByteFailsTheFrame : Prop :=
  (∀ (f : CrcFn) (k : PayloadLen) (blk nblk : Byte) (payload : List Byte) (lo hi : Byte) (i : Nat) (b : Byte),
    payload.length = k.toNat → complementOk blk nblk = true → checksumOk f payload lo hi = true →
    1 ≤ i → i < k.toNat + 5 → (frameBytes k.header blk nblk payload lo hi)[i]? ≠ some b →
    (3 ≤ i → i < k.toNat + 3 → f.DetectsOneByte k.toNat) →
    ∃ (blk' nblk' : Byte) (payload' : List Byte) (lo' hi' : Byte),
      (frameBytes k.header blk nblk payload lo hi).set i b
        = frameBytes k.header blk' nblk' payload' lo' hi'
      ∧ payload'.length = k.toNat
      ∧ ¬(complementOk blk' nblk' = true ∧ checksumOk f payload' lo' hi' = true))
  ∧ ∀ k : PayloadLen, CrcFn.DetectsOneByte .xmodem k.toNat

/-- A staged frame (R92, R93, with the layout of R58 and R60): long when 1024 bytes or more remain, else short; the task's
next bytes from the scratch RAM, then 0x1A; sent at once and awaiting its ACK. A receiver with the
same CRC function decodes it as one frame and passes both checks on it, whichever function that is (R61). -/
def Obligations.StagedFrameCarriesTheNextBytes : Prop :=
  ∀ (s : State) (h : Task) (rest : List Task) (k : PayloadLen) (n : Nat), s.taskq = h :: rest →
    s.tx.buf.length = 1029 →
    k = (if 1024 ≤ h.len.toNat - h.xfer.toNat then .long else .short) →
    n = min (h.len.toNat - h.xfer.toNat) k.toNat →
    ∃ payload frame : List Byte, payload.length = k.toNat
      ∧ (∀ i < n, payload[i]? = some (s.scratchByte (h.off + h.xfer.setWidth 16 + BitVec.ofNat 16 i)))
      ∧ (∀ i < k.toNat, n ≤ i → payload[i]? = some 0x1A)
      ∧ frame = [if k = .long then 0x02 else 0x01, s.txSeq, 0xFF - s.txSeq] ++ payload
          ++ [(crc16 s.crc payload).extractLsb' 0 8, (crc16 s.crc payload).extractLsb' 8 8]
      ∧ txStage s = { s with
          tx := { buf := frame ++ s.tx.buf.drop (k.toNat + 5), len := BitVec.ofNat 11 (k.toNat + 5),
                  chunk := BitVec.ofNat 11 n, wait := true },
          lastSendTime := s.now, env := { s.env with txout := s.env.txout ++ frame } }
      ∧ (∃ i, decode (.frame frame) = .ok i)
      ∧ complementOk s.txSeq (0xFF - s.txSeq) = true
      ∧ checksumOk s.crc payload ((crc16 s.crc payload).extractLsb' 0 8) ((crc16 s.crc payload).extractLsb' 8 8) = true

/-- Sanity: the check value of the default CRC (R61) and two values of the spec's own list (95_test_vectors.md); with
another function configured, the CRC is that function. -/
def Obligations.CrcCheckValues : Prop :=
  crc16 .xmodem [0x31, 0x32, 0x33, 0x34, 0x35, 0x36, 0x37, 0x38, 0x39] = 0x31C3
  ∧ crc16 .xmodem [0x01] = 0x1021 ∧ crc16 .xmodem [0x41] = 0x58E5
  ∧ ∀ payload, crc16 .configured payload = Config.crc16 payload

/-! ## Pins and events -/

/-- RX_BYTE and MS_TICK (R130, R131): a byte joins the ring, is dropped with RX_OVF when it is full and without a flag
while disabled; a tick advances `now` modulo 2^32. -/
def Obligations.PinEventsActAsGiven : Prop :=
  ∀ (s : State) (b : Byte),
    (s.en = true → s.rxq.length = 2048 →
      exec (.rxByte b) s = .next { s with err := { s.err with rxOvf := true } })
    ∧ (s.en = true → s.rxq.length ≠ 2048 → exec (.rxByte b) s = .next { s with rxq := s.rxq ++ [b] })
    ∧ (s.en = false → exec (.rxByte b) s = .next s)
    ∧ ∃ t : Word, exec .msTick s = .next { s with now := t } ∧ t.toNat = (s.now.toNat + 1) % 2 ^ 32

/-- The event latch keeps the newest event and EVT_OVF tells of a lost one (R137); `irq` is the level of
`CTRL.IRQ_EN` and a full latch (R140). -/
def Obligations.LatchKeepsTheNewestEvent : Prop :=
  ∀ (s : State) (c : EvtCode) (d : Dir) (n : BitVec 17),
    postEvent c d n s = { s with
      err := { s.err with evtOvf := if s.evt.code = .none then s.err.evtOvf else true },
      evt := { code := c, dir := decide (d = .write), count := n } }
    ∧ (s.irq = true ↔ (regValue s .ctrl).getLsbD 0 = true ∧ (regValue s .evt).extractLsb' 0 4 ≠ 0)

/-! ## The whole machine -/

/-- Bytes go out only inside an enabled POLL, and none that went out is ever taken back (R132). -/
def Obligations.OnlyPollTransmits : Prop :=
  ∀ (s t : State) (i : Input) (rest : List Input), s.env.inputs = i :: rest → step s = .next t →
    s.env.txout <+: t.env.txout
    ∧ (t.env.txout ≠ s.env.txout → s.en = true ∧ decodeInput i = .cmdWrite 0x03000000)

/-- The connection (R37): made only by a SIG_C that an enabled POLL drains, lost only by INIT, DEINIT or RESET;
FIRST_CONNECT falls only with a connection and rises only at RESET. -/
def Obligations.ConnectionChangesOnlyAsListed : Prop :=
  ∀ (s t : State) (i : Input) (rest : List Input), s.env.inputs = i :: rest → step s = .next t →
    (s.conn = .detecting → t.conn = .connected →
      s.en = true ∧ decodeInput i = .cmdWrite 0x03000000 ∧ 0x43 ∈ s.rxq ∧ t.firstConnect = false)
    ∧ (s.conn = .connected → t.conn = .detecting →
      i = .reset ∨ decodeInput i = .cmdWrite 0x01000000 ∨ decodeInput i = .cmdWrite 0x02000000)
    ∧ (s.firstConnect = false → t.firstConnect = true → i = .reset)
    ∧ (s.firstConnect = true → t.firstConnect = false → s.conn = .detecting ∧ t.conn = .connected)
end

