-- ==== Sys2Proof/Laws/State.lean ====
section
/-!
SUPPORT. Laws/State.lean: what each primitive update of the state leaves in each field, one lemma per field, so that
no later proof unfolds a record update.
-/

namespace Sys2Proof.Machine

/-! ## `emit` -/

@[simp] theorem emit_en (b : Byte) (s : State) : (emit b s).en = s.en := rfl
@[simp] theorem emit_conn (b : Byte) (s : State) : (emit b s).conn = s.conn := rfl
@[simp] theorem emit_firstConnect (b : Byte) (s : State) :
    (emit b s).firstConnect = s.firstConnect := rfl
@[simp] theorem emit_hsStarted (b : Byte) (s : State) : (emit b s).hsStarted = s.hsStarted := rfl
@[simp] theorem emit_stage (b : Byte) (s : State) : (emit b s).stage = s.stage := rfl
@[simp] theorem emit_rxSeq (b : Byte) (s : State) : (emit b s).rxSeq = s.rxSeq := rfl
@[simp] theorem emit_txSeq (b : Byte) (s : State) : (emit b s).txSeq = s.txSeq := rfl
@[simp] theorem emit_retries (b : Byte) (s : State) : (emit b s).retries = s.retries := rfl
@[simp] theorem emit_now (b : Byte) (s : State) : (emit b s).now = s.now := rfl
@[simp] theorem emit_lastRecvTime (b : Byte) (s : State) :
    (emit b s).lastRecvTime = s.lastRecvTime := rfl
@[simp] theorem emit_lastSendTime (b : Byte) (s : State) :
    (emit b s).lastSendTime = s.lastSendTime := rfl
@[simp] theorem emit_lastByteTime (b : Byte) (s : State) :
    (emit b s).lastByteTime = s.lastByteTime := rfl
@[simp] theorem emit_df (b : Byte) (s : State) : (emit b s).df = s.df := rfl
@[simp] theorem emit_rxfb (b : Byte) (s : State) : (emit b s).rxfb = s.rxfb := rfl
@[simp] theorem emit_tx (b : Byte) (s : State) : (emit b s).tx = s.tx := rfl
@[simp] theorem emit_taskq (b : Byte) (s : State) : (emit b s).taskq = s.taskq := rfl
@[simp] theorem emit_active (b : Byte) (s : State) : (emit b s).active = s.active := rfl
@[simp] theorem emit_sfifo (b : Byte) (s : State) : (emit b s).sfifo = s.sfifo := rfl
@[simp] theorem emit_evt (b : Byte) (s : State) : (emit b s).evt = s.evt := rfl
@[simp] theorem emit_err (b : Byte) (s : State) : (emit b s).err = s.err := rfl
@[simp] theorem emit_settings (b : Byte) (s : State) : (emit b s).settings = s.settings := rfl
@[simp] theorem emit_operands (b : Byte) (s : State) : (emit b s).operands = s.operands := rfl
@[simp] theorem emit_baudPending (b : Byte) (s : State) :
    (emit b s).baudPending = s.baudPending := rfl
@[simp] theorem emit_pendingBaud (b : Byte) (s : State) :
    (emit b s).pendingBaud = s.pendingBaud := rfl
@[simp] theorem emit_curBaud (b : Byte) (s : State) : (emit b s).curBaud = s.curBaud := rfl
@[simp] theorem emit_rxq (b : Byte) (s : State) : (emit b s).rxq = s.rxq := rfl
@[simp] theorem emit_scratch (b : Byte) (s : State) : (emit b s).scratch = s.scratch := rfl
@[simp] theorem emit_crc (b : Byte) (s : State) : (emit b s).crc = s.crc := rfl
@[simp] theorem emit_env (b : Byte) (s : State) :
    (emit b s).env = { s.env with txout := s.env.txout ++ [b] } := rfl

/-! ## `emitBytes` -/

@[simp] theorem emitBytes_en (bs : List Byte) (s : State) : (emitBytes bs s).en = s.en := rfl
@[simp] theorem emitBytes_conn (bs : List Byte) (s : State) : (emitBytes bs s).conn = s.conn := rfl
@[simp] theorem emitBytes_firstConnect (bs : List Byte) (s : State) :
    (emitBytes bs s).firstConnect = s.firstConnect := rfl
@[simp] theorem emitBytes_hsStarted (bs : List Byte) (s : State) :
    (emitBytes bs s).hsStarted = s.hsStarted := rfl
@[simp] theorem emitBytes_stage (bs : List Byte) (s : State) :
    (emitBytes bs s).stage = s.stage := rfl
@[simp] theorem emitBytes_rxSeq (bs : List Byte) (s : State) :
    (emitBytes bs s).rxSeq = s.rxSeq := rfl
@[simp] theorem emitBytes_txSeq (bs : List Byte) (s : State) :
    (emitBytes bs s).txSeq = s.txSeq := rfl
@[simp] theorem emitBytes_retries (bs : List Byte) (s : State) :
    (emitBytes bs s).retries = s.retries := rfl
@[simp] theorem emitBytes_now (bs : List Byte) (s : State) : (emitBytes bs s).now = s.now := rfl
@[simp] theorem emitBytes_lastRecvTime (bs : List Byte) (s : State) :
    (emitBytes bs s).lastRecvTime = s.lastRecvTime := rfl
@[simp] theorem emitBytes_lastSendTime (bs : List Byte) (s : State) :
    (emitBytes bs s).lastSendTime = s.lastSendTime := rfl
@[simp] theorem emitBytes_lastByteTime (bs : List Byte) (s : State) :
    (emitBytes bs s).lastByteTime = s.lastByteTime := rfl
@[simp] theorem emitBytes_df (bs : List Byte) (s : State) : (emitBytes bs s).df = s.df := rfl
@[simp] theorem emitBytes_rxfb (bs : List Byte) (s : State) : (emitBytes bs s).rxfb = s.rxfb := rfl
@[simp] theorem emitBytes_tx (bs : List Byte) (s : State) : (emitBytes bs s).tx = s.tx := rfl
@[simp] theorem emitBytes_taskq (bs : List Byte) (s : State) :
    (emitBytes bs s).taskq = s.taskq := rfl
@[simp] theorem emitBytes_active (bs : List Byte) (s : State) :
    (emitBytes bs s).active = s.active := rfl
@[simp] theorem emitBytes_sfifo (bs : List Byte) (s : State) :
    (emitBytes bs s).sfifo = s.sfifo := rfl
@[simp] theorem emitBytes_evt (bs : List Byte) (s : State) : (emitBytes bs s).evt = s.evt := rfl
@[simp] theorem emitBytes_err (bs : List Byte) (s : State) : (emitBytes bs s).err = s.err := rfl
@[simp] theorem emitBytes_settings (bs : List Byte) (s : State) :
    (emitBytes bs s).settings = s.settings := rfl
@[simp] theorem emitBytes_operands (bs : List Byte) (s : State) :
    (emitBytes bs s).operands = s.operands := rfl
@[simp] theorem emitBytes_baudPending (bs : List Byte) (s : State) :
    (emitBytes bs s).baudPending = s.baudPending := rfl
@[simp] theorem emitBytes_pendingBaud (bs : List Byte) (s : State) :
    (emitBytes bs s).pendingBaud = s.pendingBaud := rfl
@[simp] theorem emitBytes_curBaud (bs : List Byte) (s : State) :
    (emitBytes bs s).curBaud = s.curBaud := rfl
@[simp] theorem emitBytes_rxq (bs : List Byte) (s : State) : (emitBytes bs s).rxq = s.rxq := rfl
@[simp] theorem emitBytes_scratch (bs : List Byte) (s : State) :
    (emitBytes bs s).scratch = s.scratch := rfl
@[simp] theorem emitBytes_crc (bs : List Byte) (s : State) : (emitBytes bs s).crc = s.crc := rfl
@[simp] theorem emitBytes_env (bs : List Byte) (s : State) :
    (emitBytes bs s).env = { s.env with txout := s.env.txout ++ bs } := rfl

/-! ## `setData` -/

@[simp] theorem setData_en (v : Word) (s : State) : (setData v s).en = s.en := rfl
@[simp] theorem setData_conn (v : Word) (s : State) : (setData v s).conn = s.conn := rfl
@[simp] theorem setData_firstConnect (v : Word) (s : State) :
    (setData v s).firstConnect = s.firstConnect := rfl
@[simp] theorem setData_hsStarted (v : Word) (s : State) :
    (setData v s).hsStarted = s.hsStarted := rfl
@[simp] theorem setData_stage (v : Word) (s : State) : (setData v s).stage = s.stage := rfl
@[simp] theorem setData_rxSeq (v : Word) (s : State) : (setData v s).rxSeq = s.rxSeq := rfl
@[simp] theorem setData_txSeq (v : Word) (s : State) : (setData v s).txSeq = s.txSeq := rfl
@[simp] theorem setData_retries (v : Word) (s : State) : (setData v s).retries = s.retries := rfl
@[simp] theorem setData_now (v : Word) (s : State) : (setData v s).now = s.now := rfl
@[simp] theorem setData_lastRecvTime (v : Word) (s : State) :
    (setData v s).lastRecvTime = s.lastRecvTime := rfl
@[simp] theorem setData_lastSendTime (v : Word) (s : State) :
    (setData v s).lastSendTime = s.lastSendTime := rfl
@[simp] theorem setData_lastByteTime (v : Word) (s : State) :
    (setData v s).lastByteTime = s.lastByteTime := rfl
@[simp] theorem setData_df (v : Word) (s : State) : (setData v s).df = s.df := rfl
@[simp] theorem setData_rxfb (v : Word) (s : State) : (setData v s).rxfb = s.rxfb := rfl
@[simp] theorem setData_tx (v : Word) (s : State) : (setData v s).tx = s.tx := rfl
@[simp] theorem setData_taskq (v : Word) (s : State) : (setData v s).taskq = s.taskq := rfl
@[simp] theorem setData_active (v : Word) (s : State) : (setData v s).active = s.active := rfl
@[simp] theorem setData_sfifo (v : Word) (s : State) : (setData v s).sfifo = s.sfifo := rfl
@[simp] theorem setData_evt (v : Word) (s : State) : (setData v s).evt = s.evt := rfl
@[simp] theorem setData_err (v : Word) (s : State) : (setData v s).err = s.err := rfl
@[simp] theorem setData_settings (v : Word) (s : State) : (setData v s).settings = s.settings := rfl
@[simp] theorem setData_operands (v : Word) (s : State) : (setData v s).operands = s.operands := rfl
@[simp] theorem setData_baudPending (v : Word) (s : State) :
    (setData v s).baudPending = s.baudPending := rfl
@[simp] theorem setData_pendingBaud (v : Word) (s : State) :
    (setData v s).pendingBaud = s.pendingBaud := rfl
@[simp] theorem setData_curBaud (v : Word) (s : State) : (setData v s).curBaud = s.curBaud := rfl
@[simp] theorem setData_rxq (v : Word) (s : State) : (setData v s).rxq = s.rxq := rfl
@[simp] theorem setData_scratch (v : Word) (s : State) : (setData v s).scratch = s.scratch := rfl
@[simp] theorem setData_crc (v : Word) (s : State) : (setData v s).crc = s.crc := rfl
@[simp] theorem setData_env (v : Word) (s : State) :
    (setData v s).env = { s.env with rdata := v } := rfl

/-! ## `linkRequest` -/

@[simp] theorem linkRequest_en (r : Word) (s : State) : (linkRequest r s).en = s.en := rfl
@[simp] theorem linkRequest_conn (r : Word) (s : State) : (linkRequest r s).conn = s.conn := rfl
@[simp] theorem linkRequest_firstConnect (r : Word) (s : State) :
    (linkRequest r s).firstConnect = s.firstConnect := rfl
@[simp] theorem linkRequest_hsStarted (r : Word) (s : State) :
    (linkRequest r s).hsStarted = s.hsStarted := rfl
@[simp] theorem linkRequest_stage (r : Word) (s : State) : (linkRequest r s).stage = s.stage := rfl
@[simp] theorem linkRequest_rxSeq (r : Word) (s : State) : (linkRequest r s).rxSeq = s.rxSeq := rfl
@[simp] theorem linkRequest_txSeq (r : Word) (s : State) : (linkRequest r s).txSeq = s.txSeq := rfl
@[simp] theorem linkRequest_retries (r : Word) (s : State) :
    (linkRequest r s).retries = s.retries := rfl
@[simp] theorem linkRequest_now (r : Word) (s : State) : (linkRequest r s).now = s.now := rfl
@[simp] theorem linkRequest_lastRecvTime (r : Word) (s : State) :
    (linkRequest r s).lastRecvTime = s.lastRecvTime := rfl
@[simp] theorem linkRequest_lastSendTime (r : Word) (s : State) :
    (linkRequest r s).lastSendTime = s.lastSendTime := rfl
@[simp] theorem linkRequest_lastByteTime (r : Word) (s : State) :
    (linkRequest r s).lastByteTime = s.lastByteTime := rfl
@[simp] theorem linkRequest_df (r : Word) (s : State) : (linkRequest r s).df = s.df := rfl
@[simp] theorem linkRequest_rxfb (r : Word) (s : State) : (linkRequest r s).rxfb = s.rxfb := rfl
@[simp] theorem linkRequest_tx (r : Word) (s : State) : (linkRequest r s).tx = s.tx := rfl
@[simp] theorem linkRequest_taskq (r : Word) (s : State) : (linkRequest r s).taskq = s.taskq := rfl
@[simp] theorem linkRequest_active (r : Word) (s : State) :
    (linkRequest r s).active = s.active := rfl
@[simp] theorem linkRequest_sfifo (r : Word) (s : State) : (linkRequest r s).sfifo = s.sfifo := rfl
@[simp] theorem linkRequest_evt (r : Word) (s : State) : (linkRequest r s).evt = s.evt := rfl
@[simp] theorem linkRequest_err (r : Word) (s : State) : (linkRequest r s).err = s.err := rfl
@[simp] theorem linkRequest_settings (r : Word) (s : State) :
    (linkRequest r s).settings = s.settings := rfl
@[simp] theorem linkRequest_operands (r : Word) (s : State) :
    (linkRequest r s).operands = s.operands := rfl
@[simp] theorem linkRequest_baudPending (r : Word) (s : State) :
    (linkRequest r s).baudPending = s.baudPending := rfl
@[simp] theorem linkRequest_pendingBaud (r : Word) (s : State) :
    (linkRequest r s).pendingBaud = s.pendingBaud := rfl
@[simp] theorem linkRequest_curBaud (r : Word) (s : State) :
    (linkRequest r s).curBaud = s.curBaud := rfl
@[simp] theorem linkRequest_rxq (r : Word) (s : State) : (linkRequest r s).rxq = s.rxq := rfl
@[simp] theorem linkRequest_scratch (r : Word) (s : State) :
    (linkRequest r s).scratch = s.scratch := rfl
@[simp] theorem linkRequest_crc (r : Word) (s : State) : (linkRequest r s).crc = s.crc := rfl

/-! ## `withInputs` -/

@[simp] theorem withInputs_en (l : List Input) (s : State) : (s.withInputs l).en = s.en := rfl
@[simp] theorem withInputs_conn (l : List Input) (s : State) : (s.withInputs l).conn = s.conn := rfl
@[simp] theorem withInputs_firstConnect (l : List Input) (s : State) :
    (s.withInputs l).firstConnect = s.firstConnect := rfl
@[simp] theorem withInputs_hsStarted (l : List Input) (s : State) :
    (s.withInputs l).hsStarted = s.hsStarted := rfl
@[simp] theorem withInputs_stage (l : List Input) (s : State) :
    (s.withInputs l).stage = s.stage := rfl
@[simp] theorem withInputs_rxSeq (l : List Input) (s : State) :
    (s.withInputs l).rxSeq = s.rxSeq := rfl
@[simp] theorem withInputs_txSeq (l : List Input) (s : State) :
    (s.withInputs l).txSeq = s.txSeq := rfl
@[simp] theorem withInputs_retries (l : List Input) (s : State) :
    (s.withInputs l).retries = s.retries := rfl
@[simp] theorem withInputs_now (l : List Input) (s : State) : (s.withInputs l).now = s.now := rfl
@[simp] theorem withInputs_lastRecvTime (l : List Input) (s : State) :
    (s.withInputs l).lastRecvTime = s.lastRecvTime := rfl
@[simp] theorem withInputs_lastSendTime (l : List Input) (s : State) :
    (s.withInputs l).lastSendTime = s.lastSendTime := rfl
@[simp] theorem withInputs_lastByteTime (l : List Input) (s : State) :
    (s.withInputs l).lastByteTime = s.lastByteTime := rfl
@[simp] theorem withInputs_df (l : List Input) (s : State) : (s.withInputs l).df = s.df := rfl
@[simp] theorem withInputs_rxfb (l : List Input) (s : State) : (s.withInputs l).rxfb = s.rxfb := rfl
@[simp] theorem withInputs_tx (l : List Input) (s : State) : (s.withInputs l).tx = s.tx := rfl
@[simp] theorem withInputs_taskq (l : List Input) (s : State) :
    (s.withInputs l).taskq = s.taskq := rfl
@[simp] theorem withInputs_active (l : List Input) (s : State) :
    (s.withInputs l).active = s.active := rfl
@[simp] theorem withInputs_sfifo (l : List Input) (s : State) :
    (s.withInputs l).sfifo = s.sfifo := rfl
@[simp] theorem withInputs_evt (l : List Input) (s : State) : (s.withInputs l).evt = s.evt := rfl
@[simp] theorem withInputs_err (l : List Input) (s : State) : (s.withInputs l).err = s.err := rfl
@[simp] theorem withInputs_settings (l : List Input) (s : State) :
    (s.withInputs l).settings = s.settings := rfl
@[simp] theorem withInputs_operands (l : List Input) (s : State) :
    (s.withInputs l).operands = s.operands := rfl
@[simp] theorem withInputs_baudPending (l : List Input) (s : State) :
    (s.withInputs l).baudPending = s.baudPending := rfl
@[simp] theorem withInputs_pendingBaud (l : List Input) (s : State) :
    (s.withInputs l).pendingBaud = s.pendingBaud := rfl
@[simp] theorem withInputs_curBaud (l : List Input) (s : State) :
    (s.withInputs l).curBaud = s.curBaud := rfl
@[simp] theorem withInputs_rxq (l : List Input) (s : State) : (s.withInputs l).rxq = s.rxq := rfl
@[simp] theorem withInputs_scratch (l : List Input) (s : State) :
    (s.withInputs l).scratch = s.scratch := rfl
@[simp] theorem withInputs_crc (l : List Input) (s : State) : (s.withInputs l).crc = s.crc := rfl
@[simp] theorem withInputs_env (l : List Input) (s : State) :
    (s.withInputs l).env = { s.env with inputs := l } := rfl

/-! ## `sfifoPush` -/

@[simp] theorem sfifoPush_en (v : Byte) (s : State) : (sfifoPush v s).en = s.en := rfl
@[simp] theorem sfifoPush_conn (v : Byte) (s : State) : (sfifoPush v s).conn = s.conn := rfl
@[simp] theorem sfifoPush_firstConnect (v : Byte) (s : State) :
    (sfifoPush v s).firstConnect = s.firstConnect := rfl
@[simp] theorem sfifoPush_hsStarted (v : Byte) (s : State) :
    (sfifoPush v s).hsStarted = s.hsStarted := rfl
@[simp] theorem sfifoPush_stage (v : Byte) (s : State) : (sfifoPush v s).stage = s.stage := rfl
@[simp] theorem sfifoPush_rxSeq (v : Byte) (s : State) : (sfifoPush v s).rxSeq = s.rxSeq := rfl
@[simp] theorem sfifoPush_txSeq (v : Byte) (s : State) : (sfifoPush v s).txSeq = s.txSeq := rfl
@[simp] theorem sfifoPush_retries (v : Byte) (s : State) :
    (sfifoPush v s).retries = s.retries := rfl
@[simp] theorem sfifoPush_now (v : Byte) (s : State) : (sfifoPush v s).now = s.now := rfl
@[simp] theorem sfifoPush_lastRecvTime (v : Byte) (s : State) :
    (sfifoPush v s).lastRecvTime = s.lastRecvTime := rfl
@[simp] theorem sfifoPush_lastSendTime (v : Byte) (s : State) :
    (sfifoPush v s).lastSendTime = s.lastSendTime := rfl
@[simp] theorem sfifoPush_lastByteTime (v : Byte) (s : State) :
    (sfifoPush v s).lastByteTime = s.lastByteTime := rfl
@[simp] theorem sfifoPush_df (v : Byte) (s : State) : (sfifoPush v s).df = s.df := rfl
@[simp] theorem sfifoPush_rxfb (v : Byte) (s : State) : (sfifoPush v s).rxfb = s.rxfb := rfl
@[simp] theorem sfifoPush_tx (v : Byte) (s : State) : (sfifoPush v s).tx = s.tx := rfl
@[simp] theorem sfifoPush_taskq (v : Byte) (s : State) : (sfifoPush v s).taskq = s.taskq := rfl
@[simp] theorem sfifoPush_active (v : Byte) (s : State) : (sfifoPush v s).active = s.active := rfl
@[simp] theorem sfifoPush_evt (v : Byte) (s : State) : (sfifoPush v s).evt = s.evt := rfl
@[simp] theorem sfifoPush_err (v : Byte) (s : State) : (sfifoPush v s).err = s.err := rfl
@[simp] theorem sfifoPush_settings (v : Byte) (s : State) :
    (sfifoPush v s).settings = s.settings := rfl
@[simp] theorem sfifoPush_operands (v : Byte) (s : State) :
    (sfifoPush v s).operands = s.operands := rfl
@[simp] theorem sfifoPush_baudPending (v : Byte) (s : State) :
    (sfifoPush v s).baudPending = s.baudPending := rfl
@[simp] theorem sfifoPush_pendingBaud (v : Byte) (s : State) :
    (sfifoPush v s).pendingBaud = s.pendingBaud := rfl
@[simp] theorem sfifoPush_curBaud (v : Byte) (s : State) :
    (sfifoPush v s).curBaud = s.curBaud := rfl
@[simp] theorem sfifoPush_rxq (v : Byte) (s : State) : (sfifoPush v s).rxq = s.rxq := rfl
@[simp] theorem sfifoPush_scratch (v : Byte) (s : State) :
    (sfifoPush v s).scratch = s.scratch := rfl
@[simp] theorem sfifoPush_crc (v : Byte) (s : State) : (sfifoPush v s).crc = s.crc := rfl
@[simp] theorem sfifoPush_env (v : Byte) (s : State) : (sfifoPush v s).env = s.env := rfl

/-! ## `setStage` -/

@[simp] theorem setStage_en (g : Stage) (s : State) :
    (setStage g s).en = s.en := by unfold setStage; split <;> simp_all
@[simp] theorem setStage_conn (g : Stage) (s : State) :
    (setStage g s).conn = s.conn := by unfold setStage; split <;> simp_all
@[simp] theorem setStage_firstConnect (g : Stage) (s : State) :
    (setStage g s).firstConnect = s.firstConnect := by unfold setStage; split <;> simp_all
@[simp] theorem setStage_hsStarted (g : Stage) (s : State) :
    (setStage g s).hsStarted = s.hsStarted := by unfold setStage; split <;> simp_all
@[simp] theorem setStage_stage (g : Stage) (s : State) :
    (setStage g s).stage = g := by unfold setStage; split <;> simp_all
@[simp] theorem setStage_rxSeq (g : Stage) (s : State) :
    (setStage g s).rxSeq = s.rxSeq := by unfold setStage; split <;> simp_all
@[simp] theorem setStage_txSeq (g : Stage) (s : State) :
    (setStage g s).txSeq = s.txSeq := by unfold setStage; split <;> simp_all
@[simp] theorem setStage_retries (g : Stage) (s : State) :
    (setStage g s).retries = s.retries := by unfold setStage; split <;> simp_all
@[simp] theorem setStage_now (g : Stage) (s : State) :
    (setStage g s).now = s.now := by unfold setStage; split <;> simp_all
@[simp] theorem setStage_lastRecvTime (g : Stage) (s : State) :
    (setStage g s).lastRecvTime = s.lastRecvTime := by unfold setStage; split <;> simp_all
@[simp] theorem setStage_lastSendTime (g : Stage) (s : State) :
    (setStage g s).lastSendTime = s.lastSendTime := by unfold setStage; split <;> simp_all
@[simp] theorem setStage_lastByteTime (g : Stage) (s : State) :
    (setStage g s).lastByteTime = s.lastByteTime := by unfold setStage; split <;> simp_all
@[simp] theorem setStage_df (g : Stage) (s : State) :
    (setStage g s).df = s.df := by unfold setStage; split <;> simp_all
@[simp] theorem setStage_rxfb (g : Stage) (s : State) :
    (setStage g s).rxfb = s.rxfb := by unfold setStage; split <;> simp_all
@[simp] theorem setStage_tx (g : Stage) (s : State) :
    (setStage g s).tx = s.tx := by unfold setStage; split <;> simp_all
@[simp] theorem setStage_taskq (g : Stage) (s : State) :
    (setStage g s).taskq = s.taskq := by unfold setStage; split <;> simp_all
@[simp] theorem setStage_active (g : Stage) (s : State) :
    (setStage g s).active = s.active := by unfold setStage; split <;> simp_all
@[simp] theorem setStage_evt (g : Stage) (s : State) :
    (setStage g s).evt = s.evt := by unfold setStage; split <;> simp_all
@[simp] theorem setStage_err (g : Stage) (s : State) :
    (setStage g s).err = s.err := by unfold setStage; split <;> simp_all
@[simp] theorem setStage_settings (g : Stage) (s : State) :
    (setStage g s).settings = s.settings := by unfold setStage; split <;> simp_all
@[simp] theorem setStage_operands (g : Stage) (s : State) :
    (setStage g s).operands = s.operands := by unfold setStage; split <;> simp_all
@[simp] theorem setStage_baudPending (g : Stage) (s : State) :
    (setStage g s).baudPending = s.baudPending := by unfold setStage; split <;> simp_all
@[simp] theorem setStage_pendingBaud (g : Stage) (s : State) :
    (setStage g s).pendingBaud = s.pendingBaud := by unfold setStage; split <;> simp_all
@[simp] theorem setStage_curBaud (g : Stage) (s : State) :
    (setStage g s).curBaud = s.curBaud := by unfold setStage; split <;> simp_all
@[simp] theorem setStage_rxq (g : Stage) (s : State) :
    (setStage g s).rxq = s.rxq := by unfold setStage; split <;> simp_all
@[simp] theorem setStage_scratch (g : Stage) (s : State) :
    (setStage g s).scratch = s.scratch := by unfold setStage; split <;> simp_all
@[simp] theorem setStage_crc (g : Stage) (s : State) :
    (setStage g s).crc = s.crc := by unfold setStage; split <;> simp_all
@[simp] theorem setStage_env (g : Stage) (s : State) :
    (setStage g s).env = s.env := by unfold setStage; split <;> simp_all

/-! ## `raiseSubmitError` -/

@[simp] theorem raiseSubmitError_en (s : State) : (raiseSubmitError s).en = s.en := rfl
@[simp] theorem raiseSubmitError_conn (s : State) : (raiseSubmitError s).conn = s.conn := rfl
@[simp] theorem raiseSubmitError_firstConnect (s : State) :
    (raiseSubmitError s).firstConnect = s.firstConnect := rfl
@[simp] theorem raiseSubmitError_hsStarted (s : State) :
    (raiseSubmitError s).hsStarted = s.hsStarted := rfl
@[simp] theorem raiseSubmitError_stage (s : State) : (raiseSubmitError s).stage = s.stage := rfl
@[simp] theorem raiseSubmitError_rxSeq (s : State) : (raiseSubmitError s).rxSeq = s.rxSeq := rfl
@[simp] theorem raiseSubmitError_txSeq (s : State) : (raiseSubmitError s).txSeq = s.txSeq := rfl
@[simp] theorem raiseSubmitError_retries (s : State) :
    (raiseSubmitError s).retries = s.retries := rfl
@[simp] theorem raiseSubmitError_now (s : State) : (raiseSubmitError s).now = s.now := rfl
@[simp] theorem raiseSubmitError_lastRecvTime (s : State) :
    (raiseSubmitError s).lastRecvTime = s.lastRecvTime := rfl
@[simp] theorem raiseSubmitError_lastSendTime (s : State) :
    (raiseSubmitError s).lastSendTime = s.lastSendTime := rfl
@[simp] theorem raiseSubmitError_lastByteTime (s : State) :
    (raiseSubmitError s).lastByteTime = s.lastByteTime := rfl
@[simp] theorem raiseSubmitError_df (s : State) : (raiseSubmitError s).df = s.df := rfl
@[simp] theorem raiseSubmitError_rxfb (s : State) : (raiseSubmitError s).rxfb = s.rxfb := rfl
@[simp] theorem raiseSubmitError_tx (s : State) : (raiseSubmitError s).tx = s.tx := rfl
@[simp] theorem raiseSubmitError_taskq (s : State) : (raiseSubmitError s).taskq = s.taskq := rfl
@[simp] theorem raiseSubmitError_active (s : State) : (raiseSubmitError s).active = s.active := rfl
@[simp] theorem raiseSubmitError_sfifo (s : State) : (raiseSubmitError s).sfifo = s.sfifo := rfl
@[simp] theorem raiseSubmitError_evt (s : State) : (raiseSubmitError s).evt = s.evt := rfl
@[simp] theorem raiseSubmitError_err (s : State) :
    (raiseSubmitError s).err = { s.err with submit := true } := rfl
@[simp] theorem raiseSubmitError_settings (s : State) :
    (raiseSubmitError s).settings = s.settings := rfl
@[simp] theorem raiseSubmitError_operands (s : State) :
    (raiseSubmitError s).operands = s.operands := rfl
@[simp] theorem raiseSubmitError_baudPending (s : State) :
    (raiseSubmitError s).baudPending = s.baudPending := rfl
@[simp] theorem raiseSubmitError_pendingBaud (s : State) :
    (raiseSubmitError s).pendingBaud = s.pendingBaud := rfl
@[simp] theorem raiseSubmitError_curBaud (s : State) :
    (raiseSubmitError s).curBaud = s.curBaud := rfl
@[simp] theorem raiseSubmitError_rxq (s : State) : (raiseSubmitError s).rxq = s.rxq := rfl
@[simp] theorem raiseSubmitError_scratch (s : State) :
    (raiseSubmitError s).scratch = s.scratch := rfl
@[simp] theorem raiseSubmitError_crc (s : State) : (raiseSubmitError s).crc = s.crc := rfl
@[simp] theorem raiseSubmitError_env (s : State) : (raiseSubmitError s).env = s.env := rfl

/-! ## `raiseCmdError` -/

@[simp] theorem raiseCmdError_en (s : State) : (raiseCmdError s).en = s.en := rfl
@[simp] theorem raiseCmdError_conn (s : State) : (raiseCmdError s).conn = s.conn := rfl
@[simp] theorem raiseCmdError_firstConnect (s : State) :
    (raiseCmdError s).firstConnect = s.firstConnect := rfl
@[simp] theorem raiseCmdError_hsStarted (s : State) :
    (raiseCmdError s).hsStarted = s.hsStarted := rfl
@[simp] theorem raiseCmdError_stage (s : State) : (raiseCmdError s).stage = s.stage := rfl
@[simp] theorem raiseCmdError_rxSeq (s : State) : (raiseCmdError s).rxSeq = s.rxSeq := rfl
@[simp] theorem raiseCmdError_txSeq (s : State) : (raiseCmdError s).txSeq = s.txSeq := rfl
@[simp] theorem raiseCmdError_retries (s : State) : (raiseCmdError s).retries = s.retries := rfl
@[simp] theorem raiseCmdError_now (s : State) : (raiseCmdError s).now = s.now := rfl
@[simp] theorem raiseCmdError_lastRecvTime (s : State) :
    (raiseCmdError s).lastRecvTime = s.lastRecvTime := rfl
@[simp] theorem raiseCmdError_lastSendTime (s : State) :
    (raiseCmdError s).lastSendTime = s.lastSendTime := rfl
@[simp] theorem raiseCmdError_lastByteTime (s : State) :
    (raiseCmdError s).lastByteTime = s.lastByteTime := rfl
@[simp] theorem raiseCmdError_df (s : State) : (raiseCmdError s).df = s.df := rfl
@[simp] theorem raiseCmdError_rxfb (s : State) : (raiseCmdError s).rxfb = s.rxfb := rfl
@[simp] theorem raiseCmdError_tx (s : State) : (raiseCmdError s).tx = s.tx := rfl
@[simp] theorem raiseCmdError_taskq (s : State) : (raiseCmdError s).taskq = s.taskq := rfl
@[simp] theorem raiseCmdError_active (s : State) : (raiseCmdError s).active = s.active := rfl
@[simp] theorem raiseCmdError_sfifo (s : State) : (raiseCmdError s).sfifo = s.sfifo := rfl
@[simp] theorem raiseCmdError_evt (s : State) : (raiseCmdError s).evt = s.evt := rfl
@[simp] theorem raiseCmdError_err (s : State) :
    (raiseCmdError s).err = { s.err with cmd := true } := rfl
@[simp] theorem raiseCmdError_settings (s : State) : (raiseCmdError s).settings = s.settings := rfl
@[simp] theorem raiseCmdError_operands (s : State) : (raiseCmdError s).operands = s.operands := rfl
@[simp] theorem raiseCmdError_baudPending (s : State) :
    (raiseCmdError s).baudPending = s.baudPending := rfl
@[simp] theorem raiseCmdError_pendingBaud (s : State) :
    (raiseCmdError s).pendingBaud = s.pendingBaud := rfl
@[simp] theorem raiseCmdError_curBaud (s : State) : (raiseCmdError s).curBaud = s.curBaud := rfl
@[simp] theorem raiseCmdError_rxq (s : State) : (raiseCmdError s).rxq = s.rxq := rfl
@[simp] theorem raiseCmdError_scratch (s : State) : (raiseCmdError s).scratch = s.scratch := rfl
@[simp] theorem raiseCmdError_crc (s : State) : (raiseCmdError s).crc = s.crc := rfl
@[simp] theorem raiseCmdError_env (s : State) : (raiseCmdError s).env = s.env := rfl

/-! ## `raiseAccessError` -/

@[simp] theorem raiseAccessError_en (s : State) : (raiseAccessError s).en = s.en := rfl
@[simp] theorem raiseAccessError_conn (s : State) : (raiseAccessError s).conn = s.conn := rfl
@[simp] theorem raiseAccessError_firstConnect (s : State) :
    (raiseAccessError s).firstConnect = s.firstConnect := rfl
@[simp] theorem raiseAccessError_hsStarted (s : State) :
    (raiseAccessError s).hsStarted = s.hsStarted := rfl
@[simp] theorem raiseAccessError_stage (s : State) : (raiseAccessError s).stage = s.stage := rfl
@[simp] theorem raiseAccessError_rxSeq (s : State) : (raiseAccessError s).rxSeq = s.rxSeq := rfl
@[simp] theorem raiseAccessError_txSeq (s : State) : (raiseAccessError s).txSeq = s.txSeq := rfl
@[simp] theorem raiseAccessError_retries (s : State) :
    (raiseAccessError s).retries = s.retries := rfl
@[simp] theorem raiseAccessError_now (s : State) : (raiseAccessError s).now = s.now := rfl
@[simp] theorem raiseAccessError_lastRecvTime (s : State) :
    (raiseAccessError s).lastRecvTime = s.lastRecvTime := rfl
@[simp] theorem raiseAccessError_lastSendTime (s : State) :
    (raiseAccessError s).lastSendTime = s.lastSendTime := rfl
@[simp] theorem raiseAccessError_lastByteTime (s : State) :
    (raiseAccessError s).lastByteTime = s.lastByteTime := rfl
@[simp] theorem raiseAccessError_df (s : State) : (raiseAccessError s).df = s.df := rfl
@[simp] theorem raiseAccessError_rxfb (s : State) : (raiseAccessError s).rxfb = s.rxfb := rfl
@[simp] theorem raiseAccessError_tx (s : State) : (raiseAccessError s).tx = s.tx := rfl
@[simp] theorem raiseAccessError_taskq (s : State) : (raiseAccessError s).taskq = s.taskq := rfl
@[simp] theorem raiseAccessError_active (s : State) : (raiseAccessError s).active = s.active := rfl
@[simp] theorem raiseAccessError_sfifo (s : State) : (raiseAccessError s).sfifo = s.sfifo := rfl
@[simp] theorem raiseAccessError_evt (s : State) : (raiseAccessError s).evt = s.evt := rfl
@[simp] theorem raiseAccessError_err (s : State) :
    (raiseAccessError s).err = { s.err with access := true } := rfl
@[simp] theorem raiseAccessError_settings (s : State) :
    (raiseAccessError s).settings = s.settings := rfl
@[simp] theorem raiseAccessError_operands (s : State) :
    (raiseAccessError s).operands = s.operands := rfl
@[simp] theorem raiseAccessError_baudPending (s : State) :
    (raiseAccessError s).baudPending = s.baudPending := rfl
@[simp] theorem raiseAccessError_pendingBaud (s : State) :
    (raiseAccessError s).pendingBaud = s.pendingBaud := rfl
@[simp] theorem raiseAccessError_curBaud (s : State) :
    (raiseAccessError s).curBaud = s.curBaud := rfl
@[simp] theorem raiseAccessError_rxq (s : State) : (raiseAccessError s).rxq = s.rxq := rfl
@[simp] theorem raiseAccessError_scratch (s : State) :
    (raiseAccessError s).scratch = s.scratch := rfl
@[simp] theorem raiseAccessError_crc (s : State) : (raiseAccessError s).crc = s.crc := rfl
@[simp] theorem raiseAccessError_env (s : State) : (raiseAccessError s).env = s.env := rfl

/-! ## `postEvent` -/

@[simp] theorem postEvent_en (c : EvtCode) (d : Dir) (n : BitVec 17) (s : State) :
    (postEvent c d n s).en = s.en := rfl
@[simp] theorem postEvent_conn (c : EvtCode) (d : Dir) (n : BitVec 17) (s : State) :
    (postEvent c d n s).conn = s.conn := rfl
@[simp] theorem postEvent_firstConnect (c : EvtCode) (d : Dir) (n : BitVec 17) (s : State) :
    (postEvent c d n s).firstConnect = s.firstConnect := rfl
@[simp] theorem postEvent_hsStarted (c : EvtCode) (d : Dir) (n : BitVec 17) (s : State) :
    (postEvent c d n s).hsStarted = s.hsStarted := rfl
@[simp] theorem postEvent_stage (c : EvtCode) (d : Dir) (n : BitVec 17) (s : State) :
    (postEvent c d n s).stage = s.stage := rfl
@[simp] theorem postEvent_rxSeq (c : EvtCode) (d : Dir) (n : BitVec 17) (s : State) :
    (postEvent c d n s).rxSeq = s.rxSeq := rfl
@[simp] theorem postEvent_txSeq (c : EvtCode) (d : Dir) (n : BitVec 17) (s : State) :
    (postEvent c d n s).txSeq = s.txSeq := rfl
@[simp] theorem postEvent_retries (c : EvtCode) (d : Dir) (n : BitVec 17) (s : State) :
    (postEvent c d n s).retries = s.retries := rfl
@[simp] theorem postEvent_now (c : EvtCode) (d : Dir) (n : BitVec 17) (s : State) :
    (postEvent c d n s).now = s.now := rfl
@[simp] theorem postEvent_lastRecvTime (c : EvtCode) (d : Dir) (n : BitVec 17) (s : State) :
    (postEvent c d n s).lastRecvTime = s.lastRecvTime := rfl
@[simp] theorem postEvent_lastSendTime (c : EvtCode) (d : Dir) (n : BitVec 17) (s : State) :
    (postEvent c d n s).lastSendTime = s.lastSendTime := rfl
@[simp] theorem postEvent_lastByteTime (c : EvtCode) (d : Dir) (n : BitVec 17) (s : State) :
    (postEvent c d n s).lastByteTime = s.lastByteTime := rfl
@[simp] theorem postEvent_df (c : EvtCode) (d : Dir) (n : BitVec 17) (s : State) :
    (postEvent c d n s).df = s.df := rfl
@[simp] theorem postEvent_rxfb (c : EvtCode) (d : Dir) (n : BitVec 17) (s : State) :
    (postEvent c d n s).rxfb = s.rxfb := rfl
@[simp] theorem postEvent_tx (c : EvtCode) (d : Dir) (n : BitVec 17) (s : State) :
    (postEvent c d n s).tx = s.tx := rfl
@[simp] theorem postEvent_taskq (c : EvtCode) (d : Dir) (n : BitVec 17) (s : State) :
    (postEvent c d n s).taskq = s.taskq := rfl
@[simp] theorem postEvent_active (c : EvtCode) (d : Dir) (n : BitVec 17) (s : State) :
    (postEvent c d n s).active = s.active := rfl
@[simp] theorem postEvent_sfifo (c : EvtCode) (d : Dir) (n : BitVec 17) (s : State) :
    (postEvent c d n s).sfifo = s.sfifo := rfl
@[simp] theorem postEvent_evt (c : EvtCode) (d : Dir) (n : BitVec 17) (s : State) :
    (postEvent c d n s).evt = { code := c, dir := d.bit, count := n } := rfl
@[simp] theorem postEvent_err (c : EvtCode) (d : Dir) (n : BitVec 17) (s : State) :
    (postEvent c d n s).err = { s.err with evtOvf := s.err.evtOvf || s.evt.code != .none } := rfl
@[simp] theorem postEvent_settings (c : EvtCode) (d : Dir) (n : BitVec 17) (s : State) :
    (postEvent c d n s).settings = s.settings := rfl
@[simp] theorem postEvent_operands (c : EvtCode) (d : Dir) (n : BitVec 17) (s : State) :
    (postEvent c d n s).operands = s.operands := rfl
@[simp] theorem postEvent_baudPending (c : EvtCode) (d : Dir) (n : BitVec 17) (s : State) :
    (postEvent c d n s).baudPending = s.baudPending := rfl
@[simp] theorem postEvent_pendingBaud (c : EvtCode) (d : Dir) (n : BitVec 17) (s : State) :
    (postEvent c d n s).pendingBaud = s.pendingBaud := rfl
@[simp] theorem postEvent_curBaud (c : EvtCode) (d : Dir) (n : BitVec 17) (s : State) :
    (postEvent c d n s).curBaud = s.curBaud := rfl
@[simp] theorem postEvent_rxq (c : EvtCode) (d : Dir) (n : BitVec 17) (s : State) :
    (postEvent c d n s).rxq = s.rxq := rfl
@[simp] theorem postEvent_scratch (c : EvtCode) (d : Dir) (n : BitVec 17) (s : State) :
    (postEvent c d n s).scratch = s.scratch := rfl
@[simp] theorem postEvent_crc (c : EvtCode) (d : Dir) (n : BitVec 17) (s : State) :
    (postEvent c d n s).crc = s.crc := rfl
@[simp] theorem postEvent_env (c : EvtCode) (d : Dir) (n : BitVec 17) (s : State) :
    (postEvent c d n s).env = s.env := rfl

/-! ## `clearEvent` -/

@[simp] theorem clearEvent_en (s : State) : (clearEvent s).en = s.en := rfl
@[simp] theorem clearEvent_conn (s : State) : (clearEvent s).conn = s.conn := rfl
@[simp] theorem clearEvent_firstConnect (s : State) :
    (clearEvent s).firstConnect = s.firstConnect := rfl
@[simp] theorem clearEvent_hsStarted (s : State) : (clearEvent s).hsStarted = s.hsStarted := rfl
@[simp] theorem clearEvent_stage (s : State) : (clearEvent s).stage = s.stage := rfl
@[simp] theorem clearEvent_rxSeq (s : State) : (clearEvent s).rxSeq = s.rxSeq := rfl
@[simp] theorem clearEvent_txSeq (s : State) : (clearEvent s).txSeq = s.txSeq := rfl
@[simp] theorem clearEvent_retries (s : State) : (clearEvent s).retries = s.retries := rfl
@[simp] theorem clearEvent_now (s : State) : (clearEvent s).now = s.now := rfl
@[simp] theorem clearEvent_lastRecvTime (s : State) :
    (clearEvent s).lastRecvTime = s.lastRecvTime := rfl
@[simp] theorem clearEvent_lastSendTime (s : State) :
    (clearEvent s).lastSendTime = s.lastSendTime := rfl
@[simp] theorem clearEvent_lastByteTime (s : State) :
    (clearEvent s).lastByteTime = s.lastByteTime := rfl
@[simp] theorem clearEvent_df (s : State) : (clearEvent s).df = s.df := rfl
@[simp] theorem clearEvent_rxfb (s : State) : (clearEvent s).rxfb = s.rxfb := rfl
@[simp] theorem clearEvent_tx (s : State) : (clearEvent s).tx = s.tx := rfl
@[simp] theorem clearEvent_taskq (s : State) : (clearEvent s).taskq = s.taskq := rfl
@[simp] theorem clearEvent_active (s : State) : (clearEvent s).active = s.active := rfl
@[simp] theorem clearEvent_sfifo (s : State) : (clearEvent s).sfifo = s.sfifo := rfl
@[simp] theorem clearEvent_evt (s : State) : (clearEvent s).evt = .empty := rfl
@[simp] theorem clearEvent_err (s : State) : (clearEvent s).err = s.err := rfl
@[simp] theorem clearEvent_settings (s : State) : (clearEvent s).settings = s.settings := rfl
@[simp] theorem clearEvent_operands (s : State) : (clearEvent s).operands = s.operands := rfl
@[simp] theorem clearEvent_baudPending (s : State) :
    (clearEvent s).baudPending = s.baudPending := rfl
@[simp] theorem clearEvent_pendingBaud (s : State) :
    (clearEvent s).pendingBaud = s.pendingBaud := rfl
@[simp] theorem clearEvent_curBaud (s : State) : (clearEvent s).curBaud = s.curBaud := rfl
@[simp] theorem clearEvent_rxq (s : State) : (clearEvent s).rxq = s.rxq := rfl
@[simp] theorem clearEvent_scratch (s : State) : (clearEvent s).scratch = s.scratch := rfl
@[simp] theorem clearEvent_crc (s : State) : (clearEvent s).crc = s.crc := rfl
@[simp] theorem clearEvent_env (s : State) : (clearEvent s).env = s.env := rfl

/-! ## `retire` -/

@[simp] theorem retire_en (s : State) : (retire s).en = s.en := rfl
@[simp] theorem retire_conn (s : State) : (retire s).conn = s.conn := rfl
@[simp] theorem retire_firstConnect (s : State) : (retire s).firstConnect = s.firstConnect := rfl
@[simp] theorem retire_hsStarted (s : State) : (retire s).hsStarted = s.hsStarted := rfl
@[simp] theorem retire_stage (s : State) : (retire s).stage = s.stage := rfl
@[simp] theorem retire_rxSeq (s : State) : (retire s).rxSeq = s.rxSeq := rfl
@[simp] theorem retire_txSeq (s : State) : (retire s).txSeq = s.txSeq := rfl
@[simp] theorem retire_retries (s : State) : (retire s).retries = s.retries := rfl
@[simp] theorem retire_now (s : State) : (retire s).now = s.now := rfl
@[simp] theorem retire_lastRecvTime (s : State) : (retire s).lastRecvTime = s.lastRecvTime := rfl
@[simp] theorem retire_lastSendTime (s : State) : (retire s).lastSendTime = s.lastSendTime := rfl
@[simp] theorem retire_lastByteTime (s : State) : (retire s).lastByteTime = s.lastByteTime := rfl
@[simp] theorem retire_df (s : State) : (retire s).df = s.df := rfl
@[simp] theorem retire_rxfb (s : State) : (retire s).rxfb = s.rxfb := rfl
@[simp] theorem retire_tx (s : State) : (retire s).tx = s.tx := rfl
@[simp] theorem retire_taskq (s : State) : (retire s).taskq = s.taskq.tail := rfl
@[simp] theorem retire_active (s : State) : (retire s).active = false := rfl
@[simp] theorem retire_sfifo (s : State) : (retire s).sfifo = s.sfifo := rfl
@[simp] theorem retire_evt (s : State) : (retire s).evt = s.evt := rfl
@[simp] theorem retire_err (s : State) : (retire s).err = s.err := rfl
@[simp] theorem retire_settings (s : State) : (retire s).settings = s.settings := rfl
@[simp] theorem retire_operands (s : State) : (retire s).operands = s.operands := rfl
@[simp] theorem retire_baudPending (s : State) : (retire s).baudPending = s.baudPending := rfl
@[simp] theorem retire_pendingBaud (s : State) : (retire s).pendingBaud = s.pendingBaud := rfl
@[simp] theorem retire_curBaud (s : State) : (retire s).curBaud = s.curBaud := rfl
@[simp] theorem retire_rxq (s : State) : (retire s).rxq = s.rxq := rfl
@[simp] theorem retire_scratch (s : State) : (retire s).scratch = s.scratch := rfl
@[simp] theorem retire_crc (s : State) : (retire s).crc = s.crc := rfl
@[simp] theorem retire_env (s : State) : (retire s).env = s.env := rfl

/-! ## `dropFrames` -/

@[simp] theorem dropFrames_en (s : State) : (dropFrames s).en = s.en := rfl
@[simp] theorem dropFrames_conn (s : State) : (dropFrames s).conn = s.conn := rfl
@[simp] theorem dropFrames_firstConnect (s : State) :
    (dropFrames s).firstConnect = s.firstConnect := rfl
@[simp] theorem dropFrames_hsStarted (s : State) : (dropFrames s).hsStarted = s.hsStarted := rfl
@[simp] theorem dropFrames_stage (s : State) : (dropFrames s).stage = s.stage := rfl
@[simp] theorem dropFrames_rxSeq (s : State) : (dropFrames s).rxSeq = s.rxSeq := rfl
@[simp] theorem dropFrames_txSeq (s : State) : (dropFrames s).txSeq = s.txSeq := rfl
@[simp] theorem dropFrames_retries (s : State) : (dropFrames s).retries = 0 := rfl
@[simp] theorem dropFrames_now (s : State) : (dropFrames s).now = s.now := rfl
@[simp] theorem dropFrames_lastRecvTime (s : State) :
    (dropFrames s).lastRecvTime = s.lastRecvTime := rfl
@[simp] theorem dropFrames_lastSendTime (s : State) :
    (dropFrames s).lastSendTime = s.lastSendTime := rfl
@[simp] theorem dropFrames_lastByteTime (s : State) :
    (dropFrames s).lastByteTime = s.lastByteTime := rfl
@[simp] theorem dropFrames_df (s : State) :
    (dropFrames s).df = { s.df with state := .hunt, pos := 0 } := rfl
@[simp] theorem dropFrames_rxfb (s : State) : (dropFrames s).rxfb = s.rxfb := rfl
@[simp] theorem dropFrames_tx (s : State) :
    (dropFrames s).tx = { s.tx with wait := false, chunk := 0, len := 0 } := rfl
@[simp] theorem dropFrames_taskq (s : State) : (dropFrames s).taskq = s.taskq := rfl
@[simp] theorem dropFrames_active (s : State) : (dropFrames s).active = s.active := rfl
@[simp] theorem dropFrames_sfifo (s : State) : (dropFrames s).sfifo = s.sfifo := rfl
@[simp] theorem dropFrames_evt (s : State) : (dropFrames s).evt = s.evt := rfl
@[simp] theorem dropFrames_err (s : State) : (dropFrames s).err = s.err := rfl
@[simp] theorem dropFrames_settings (s : State) : (dropFrames s).settings = s.settings := rfl
@[simp] theorem dropFrames_operands (s : State) : (dropFrames s).operands = s.operands := rfl
@[simp] theorem dropFrames_baudPending (s : State) :
    (dropFrames s).baudPending = s.baudPending := rfl
@[simp] theorem dropFrames_pendingBaud (s : State) :
    (dropFrames s).pendingBaud = s.pendingBaud := rfl
@[simp] theorem dropFrames_curBaud (s : State) : (dropFrames s).curBaud = s.curBaud := rfl
@[simp] theorem dropFrames_rxq (s : State) : (dropFrames s).rxq = s.rxq := rfl
@[simp] theorem dropFrames_scratch (s : State) : (dropFrames s).scratch = s.scratch := rfl
@[simp] theorem dropFrames_crc (s : State) : (dropFrames s).crc = s.crc := rfl
@[simp] theorem dropFrames_env (s : State) : (dropFrames s).env = s.env := rfl

/-! ## `updateHead` -/

@[simp] theorem updateHead_en (f : Task → Task) (s : State) : (updateHead f s).en = s.en := rfl
@[simp] theorem updateHead_conn (f : Task → Task) (s : State) :
    (updateHead f s).conn = s.conn := rfl
@[simp] theorem updateHead_firstConnect (f : Task → Task) (s : State) :
    (updateHead f s).firstConnect = s.firstConnect := rfl
@[simp] theorem updateHead_hsStarted (f : Task → Task) (s : State) :
    (updateHead f s).hsStarted = s.hsStarted := rfl
@[simp] theorem updateHead_stage (f : Task → Task) (s : State) :
    (updateHead f s).stage = s.stage := rfl
@[simp] theorem updateHead_rxSeq (f : Task → Task) (s : State) :
    (updateHead f s).rxSeq = s.rxSeq := rfl
@[simp] theorem updateHead_txSeq (f : Task → Task) (s : State) :
    (updateHead f s).txSeq = s.txSeq := rfl
@[simp] theorem updateHead_retries (f : Task → Task) (s : State) :
    (updateHead f s).retries = s.retries := rfl
@[simp] theorem updateHead_now (f : Task → Task) (s : State) : (updateHead f s).now = s.now := rfl
@[simp] theorem updateHead_lastRecvTime (f : Task → Task) (s : State) :
    (updateHead f s).lastRecvTime = s.lastRecvTime := rfl
@[simp] theorem updateHead_lastSendTime (f : Task → Task) (s : State) :
    (updateHead f s).lastSendTime = s.lastSendTime := rfl
@[simp] theorem updateHead_lastByteTime (f : Task → Task) (s : State) :
    (updateHead f s).lastByteTime = s.lastByteTime := rfl
@[simp] theorem updateHead_df (f : Task → Task) (s : State) : (updateHead f s).df = s.df := rfl
@[simp] theorem updateHead_rxfb (f : Task → Task) (s : State) :
    (updateHead f s).rxfb = s.rxfb := rfl
@[simp] theorem updateHead_tx (f : Task → Task) (s : State) : (updateHead f s).tx = s.tx := rfl
@[simp] theorem updateHead_active (f : Task → Task) (s : State) :
    (updateHead f s).active = s.active := rfl
@[simp] theorem updateHead_sfifo (f : Task → Task) (s : State) :
    (updateHead f s).sfifo = s.sfifo := rfl
@[simp] theorem updateHead_evt (f : Task → Task) (s : State) : (updateHead f s).evt = s.evt := rfl
@[simp] theorem updateHead_err (f : Task → Task) (s : State) : (updateHead f s).err = s.err := rfl
@[simp] theorem updateHead_settings (f : Task → Task) (s : State) :
    (updateHead f s).settings = s.settings := rfl
@[simp] theorem updateHead_operands (f : Task → Task) (s : State) :
    (updateHead f s).operands = s.operands := rfl
@[simp] theorem updateHead_baudPending (f : Task → Task) (s : State) :
    (updateHead f s).baudPending = s.baudPending := rfl
@[simp] theorem updateHead_pendingBaud (f : Task → Task) (s : State) :
    (updateHead f s).pendingBaud = s.pendingBaud := rfl
@[simp] theorem updateHead_curBaud (f : Task → Task) (s : State) :
    (updateHead f s).curBaud = s.curBaud := rfl
@[simp] theorem updateHead_rxq (f : Task → Task) (s : State) : (updateHead f s).rxq = s.rxq := rfl
@[simp] theorem updateHead_scratch (f : Task → Task) (s : State) :
    (updateHead f s).scratch = s.scratch := rfl
@[simp] theorem updateHead_crc (f : Task → Task) (s : State) : (updateHead f s).crc = s.crc := rfl
@[simp] theorem updateHead_env (f : Task → Task) (s : State) : (updateHead f s).env = s.env := rfl

/-! ## `storeByte` -/

@[simp] theorem storeByte_en (k : BitVec 16) (b : Byte) (s : State) :
    (storeByte k b s).en = s.en := rfl
@[simp] theorem storeByte_conn (k : BitVec 16) (b : Byte) (s : State) :
    (storeByte k b s).conn = s.conn := rfl
@[simp] theorem storeByte_firstConnect (k : BitVec 16) (b : Byte) (s : State) :
    (storeByte k b s).firstConnect = s.firstConnect := rfl
@[simp] theorem storeByte_hsStarted (k : BitVec 16) (b : Byte) (s : State) :
    (storeByte k b s).hsStarted = s.hsStarted := rfl
@[simp] theorem storeByte_stage (k : BitVec 16) (b : Byte) (s : State) :
    (storeByte k b s).stage = s.stage := rfl
@[simp] theorem storeByte_rxSeq (k : BitVec 16) (b : Byte) (s : State) :
    (storeByte k b s).rxSeq = s.rxSeq := rfl
@[simp] theorem storeByte_txSeq (k : BitVec 16) (b : Byte) (s : State) :
    (storeByte k b s).txSeq = s.txSeq := rfl
@[simp] theorem storeByte_retries (k : BitVec 16) (b : Byte) (s : State) :
    (storeByte k b s).retries = s.retries := rfl
@[simp] theorem storeByte_now (k : BitVec 16) (b : Byte) (s : State) :
    (storeByte k b s).now = s.now := rfl
@[simp] theorem storeByte_lastRecvTime (k : BitVec 16) (b : Byte) (s : State) :
    (storeByte k b s).lastRecvTime = s.lastRecvTime := rfl
@[simp] theorem storeByte_lastSendTime (k : BitVec 16) (b : Byte) (s : State) :
    (storeByte k b s).lastSendTime = s.lastSendTime := rfl
@[simp] theorem storeByte_lastByteTime (k : BitVec 16) (b : Byte) (s : State) :
    (storeByte k b s).lastByteTime = s.lastByteTime := rfl
@[simp] theorem storeByte_df (k : BitVec 16) (b : Byte) (s : State) :
    (storeByte k b s).df = s.df := rfl
@[simp] theorem storeByte_rxfb (k : BitVec 16) (b : Byte) (s : State) :
    (storeByte k b s).rxfb = s.rxfb := rfl
@[simp] theorem storeByte_tx (k : BitVec 16) (b : Byte) (s : State) :
    (storeByte k b s).tx = s.tx := rfl
@[simp] theorem storeByte_taskq (k : BitVec 16) (b : Byte) (s : State) :
    (storeByte k b s).taskq = s.taskq := rfl
@[simp] theorem storeByte_active (k : BitVec 16) (b : Byte) (s : State) :
    (storeByte k b s).active = s.active := rfl
@[simp] theorem storeByte_sfifo (k : BitVec 16) (b : Byte) (s : State) :
    (storeByte k b s).sfifo = s.sfifo := rfl
@[simp] theorem storeByte_evt (k : BitVec 16) (b : Byte) (s : State) :
    (storeByte k b s).evt = s.evt := rfl
@[simp] theorem storeByte_err (k : BitVec 16) (b : Byte) (s : State) :
    (storeByte k b s).err = s.err := rfl
@[simp] theorem storeByte_settings (k : BitVec 16) (b : Byte) (s : State) :
    (storeByte k b s).settings = s.settings := rfl
@[simp] theorem storeByte_operands (k : BitVec 16) (b : Byte) (s : State) :
    (storeByte k b s).operands = s.operands := rfl
@[simp] theorem storeByte_baudPending (k : BitVec 16) (b : Byte) (s : State) :
    (storeByte k b s).baudPending = s.baudPending := rfl
@[simp] theorem storeByte_pendingBaud (k : BitVec 16) (b : Byte) (s : State) :
    (storeByte k b s).pendingBaud = s.pendingBaud := rfl
@[simp] theorem storeByte_curBaud (k : BitVec 16) (b : Byte) (s : State) :
    (storeByte k b s).curBaud = s.curBaud := rfl
@[simp] theorem storeByte_rxq (k : BitVec 16) (b : Byte) (s : State) :
    (storeByte k b s).rxq = s.rxq := rfl
@[simp] theorem storeByte_scratch (k : BitVec 16) (b : Byte) (s : State) :
    (storeByte k b s).scratch = Memory.set s.scratch k.toNat b := rfl
@[simp] theorem storeByte_crc (k : BitVec 16) (b : Byte) (s : State) :
    (storeByte k b s).crc = s.crc := rfl
@[simp] theorem storeByte_env (k : BitVec 16) (b : Byte) (s : State) :
    (storeByte k b s).env = s.env := rfl

/-! ## `enqueue` -/

@[simp] theorem enqueue_en (t : Task) (s : State) : (enqueue t s).en = s.en := rfl
@[simp] theorem enqueue_conn (t : Task) (s : State) : (enqueue t s).conn = s.conn := rfl
@[simp] theorem enqueue_firstConnect (t : Task) (s : State) :
    (enqueue t s).firstConnect = s.firstConnect := rfl
@[simp] theorem enqueue_hsStarted (t : Task) (s : State) :
    (enqueue t s).hsStarted = s.hsStarted := rfl
@[simp] theorem enqueue_stage (t : Task) (s : State) : (enqueue t s).stage = s.stage := rfl
@[simp] theorem enqueue_rxSeq (t : Task) (s : State) : (enqueue t s).rxSeq = s.rxSeq := rfl
@[simp] theorem enqueue_txSeq (t : Task) (s : State) : (enqueue t s).txSeq = s.txSeq := rfl
@[simp] theorem enqueue_retries (t : Task) (s : State) : (enqueue t s).retries = s.retries := rfl
@[simp] theorem enqueue_now (t : Task) (s : State) : (enqueue t s).now = s.now := rfl
@[simp] theorem enqueue_lastRecvTime (t : Task) (s : State) :
    (enqueue t s).lastRecvTime = s.lastRecvTime := rfl
@[simp] theorem enqueue_lastSendTime (t : Task) (s : State) :
    (enqueue t s).lastSendTime = s.lastSendTime := rfl
@[simp] theorem enqueue_lastByteTime (t : Task) (s : State) :
    (enqueue t s).lastByteTime = s.lastByteTime := rfl
@[simp] theorem enqueue_df (t : Task) (s : State) : (enqueue t s).df = s.df := rfl
@[simp] theorem enqueue_rxfb (t : Task) (s : State) : (enqueue t s).rxfb = s.rxfb := rfl
@[simp] theorem enqueue_tx (t : Task) (s : State) : (enqueue t s).tx = s.tx := rfl
@[simp] theorem enqueue_taskq (t : Task) (s : State) : (enqueue t s).taskq = s.taskq ++ [t] := rfl
@[simp] theorem enqueue_active (t : Task) (s : State) : (enqueue t s).active = s.active := rfl
@[simp] theorem enqueue_sfifo (t : Task) (s : State) : (enqueue t s).sfifo = s.sfifo := rfl
@[simp] theorem enqueue_evt (t : Task) (s : State) : (enqueue t s).evt = s.evt := rfl
@[simp] theorem enqueue_err (t : Task) (s : State) : (enqueue t s).err = s.err := rfl
@[simp] theorem enqueue_settings (t : Task) (s : State) : (enqueue t s).settings = s.settings := rfl
@[simp] theorem enqueue_operands (t : Task) (s : State) : (enqueue t s).operands = s.operands := rfl
@[simp] theorem enqueue_baudPending (t : Task) (s : State) :
    (enqueue t s).baudPending = s.baudPending := rfl
@[simp] theorem enqueue_pendingBaud (t : Task) (s : State) :
    (enqueue t s).pendingBaud = s.pendingBaud := rfl
@[simp] theorem enqueue_curBaud (t : Task) (s : State) : (enqueue t s).curBaud = s.curBaud := rfl
@[simp] theorem enqueue_rxq (t : Task) (s : State) : (enqueue t s).rxq = s.rxq := rfl
@[simp] theorem enqueue_scratch (t : Task) (s : State) : (enqueue t s).scratch = s.scratch := rfl
@[simp] theorem enqueue_crc (t : Task) (s : State) : (enqueue t s).crc = s.crc := rfl
@[simp] theorem enqueue_env (t : Task) (s : State) : (enqueue t s).env = s.env := rfl

/-! ## `flushForBaud` -/

@[simp] theorem flushForBaud_en (s : State) : (flushForBaud s).en = s.en := rfl
@[simp] theorem flushForBaud_conn (s : State) : (flushForBaud s).conn = s.conn := rfl
@[simp] theorem flushForBaud_firstConnect (s : State) :
    (flushForBaud s).firstConnect = s.firstConnect := rfl
@[simp] theorem flushForBaud_hsStarted (s : State) : (flushForBaud s).hsStarted = s.hsStarted := rfl
@[simp] theorem flushForBaud_stage (s : State) : (flushForBaud s).stage = s.stage := rfl
@[simp] theorem flushForBaud_rxSeq (s : State) : (flushForBaud s).rxSeq = s.rxSeq := rfl
@[simp] theorem flushForBaud_txSeq (s : State) : (flushForBaud s).txSeq = s.txSeq := rfl
@[simp] theorem flushForBaud_retries (s : State) : (flushForBaud s).retries = s.retries := rfl
@[simp] theorem flushForBaud_now (s : State) : (flushForBaud s).now = s.now := rfl
@[simp] theorem flushForBaud_lastRecvTime (s : State) :
    (flushForBaud s).lastRecvTime = s.lastRecvTime := rfl
@[simp] theorem flushForBaud_lastSendTime (s : State) :
    (flushForBaud s).lastSendTime = s.lastSendTime := rfl
@[simp] theorem flushForBaud_lastByteTime (s : State) :
    (flushForBaud s).lastByteTime = s.lastByteTime := rfl
@[simp] theorem flushForBaud_df (s : State) : (flushForBaud s).df = s.df := rfl
@[simp] theorem flushForBaud_rxfb (s : State) : (flushForBaud s).rxfb = s.rxfb := rfl
@[simp] theorem flushForBaud_tx (s : State) : (flushForBaud s).tx = s.tx := rfl
@[simp] theorem flushForBaud_taskq (s : State) : (flushForBaud s).taskq = s.taskq := rfl
@[simp] theorem flushForBaud_active (s : State) : (flushForBaud s).active = s.active := rfl
@[simp] theorem flushForBaud_sfifo (s : State) : (flushForBaud s).sfifo = s.sfifo := rfl
@[simp] theorem flushForBaud_evt (s : State) : (flushForBaud s).evt = s.evt := rfl
@[simp] theorem flushForBaud_err (s : State) : (flushForBaud s).err = s.err := rfl
@[simp] theorem flushForBaud_settings (s : State) : (flushForBaud s).settings = s.settings := rfl
@[simp] theorem flushForBaud_operands (s : State) : (flushForBaud s).operands = s.operands := rfl
@[simp] theorem flushForBaud_baudPending (s : State) : (flushForBaud s).baudPending = false := rfl
@[simp] theorem flushForBaud_pendingBaud (s : State) :
    (flushForBaud s).pendingBaud = s.pendingBaud := rfl
@[simp] theorem flushForBaud_curBaud (s : State) : (flushForBaud s).curBaud = s.curBaud := rfl
@[simp] theorem flushForBaud_rxq (s : State) : (flushForBaud s).rxq = [] := rfl
@[simp] theorem flushForBaud_scratch (s : State) : (flushForBaud s).scratch = s.scratch := rfl
@[simp] theorem flushForBaud_crc (s : State) : (flushForBaud s).crc = s.crc := rfl
@[simp] theorem flushForBaud_env (s : State) : (flushForBaud s).env = s.env := rfl

/-! ## `countByte` -/

@[simp] theorem countByte_en (s : State) : (countByte s).en = s.en := rfl
@[simp] theorem countByte_conn (s : State) : (countByte s).conn = s.conn := rfl
@[simp] theorem countByte_firstConnect (s : State) :
    (countByte s).firstConnect = s.firstConnect := rfl
@[simp] theorem countByte_hsStarted (s : State) : (countByte s).hsStarted = s.hsStarted := rfl
@[simp] theorem countByte_stage (s : State) : (countByte s).stage = s.stage := rfl
@[simp] theorem countByte_rxSeq (s : State) : (countByte s).rxSeq = s.rxSeq := rfl
@[simp] theorem countByte_txSeq (s : State) : (countByte s).txSeq = s.txSeq := rfl
@[simp] theorem countByte_retries (s : State) : (countByte s).retries = s.retries := rfl
@[simp] theorem countByte_now (s : State) : (countByte s).now = s.now := rfl
@[simp] theorem countByte_lastRecvTime (s : State) :
    (countByte s).lastRecvTime = s.lastRecvTime := rfl
@[simp] theorem countByte_lastSendTime (s : State) :
    (countByte s).lastSendTime = s.lastSendTime := rfl
@[simp] theorem countByte_lastByteTime (s : State) : (countByte s).lastByteTime = s.now := rfl
@[simp] theorem countByte_df (s : State) :
    (countByte s).df = { s.df with pos := s.df.pos + 1 } := rfl
@[simp] theorem countByte_rxfb (s : State) : (countByte s).rxfb = s.rxfb := rfl
@[simp] theorem countByte_tx (s : State) : (countByte s).tx = s.tx := rfl
@[simp] theorem countByte_taskq (s : State) : (countByte s).taskq = s.taskq := rfl
@[simp] theorem countByte_active (s : State) : (countByte s).active = s.active := rfl
@[simp] theorem countByte_sfifo (s : State) : (countByte s).sfifo = s.sfifo := rfl
@[simp] theorem countByte_evt (s : State) : (countByte s).evt = s.evt := rfl
@[simp] theorem countByte_err (s : State) : (countByte s).err = s.err := rfl
@[simp] theorem countByte_settings (s : State) : (countByte s).settings = s.settings := rfl
@[simp] theorem countByte_operands (s : State) : (countByte s).operands = s.operands := rfl
@[simp] theorem countByte_baudPending (s : State) : (countByte s).baudPending = s.baudPending := rfl
@[simp] theorem countByte_pendingBaud (s : State) : (countByte s).pendingBaud = s.pendingBaud := rfl
@[simp] theorem countByte_curBaud (s : State) : (countByte s).curBaud = s.curBaud := rfl
@[simp] theorem countByte_rxq (s : State) : (countByte s).rxq = s.rxq := rfl
@[simp] theorem countByte_scratch (s : State) : (countByte s).scratch = s.scratch := rfl
@[simp] theorem countByte_crc (s : State) : (countByte s).crc = s.crc := rfl
@[simp] theorem countByte_env (s : State) : (countByte s).env = s.env := rfl

/-! ## `frameStart` -/

@[simp] theorem frameStart_en (k : PayloadLen) (s : State) : (frameStart k s).en = s.en := rfl
@[simp] theorem frameStart_conn (k : PayloadLen) (s : State) : (frameStart k s).conn = s.conn := rfl
@[simp] theorem frameStart_firstConnect (k : PayloadLen) (s : State) :
    (frameStart k s).firstConnect = s.firstConnect := rfl
@[simp] theorem frameStart_hsStarted (k : PayloadLen) (s : State) :
    (frameStart k s).hsStarted = s.hsStarted := rfl
@[simp] theorem frameStart_stage (k : PayloadLen) (s : State) :
    (frameStart k s).stage = s.stage := rfl
@[simp] theorem frameStart_rxSeq (k : PayloadLen) (s : State) :
    (frameStart k s).rxSeq = s.rxSeq := rfl
@[simp] theorem frameStart_txSeq (k : PayloadLen) (s : State) :
    (frameStart k s).txSeq = s.txSeq := rfl
@[simp] theorem frameStart_retries (k : PayloadLen) (s : State) :
    (frameStart k s).retries = s.retries := rfl
@[simp] theorem frameStart_now (k : PayloadLen) (s : State) : (frameStart k s).now = s.now := rfl
@[simp] theorem frameStart_lastRecvTime (k : PayloadLen) (s : State) :
    (frameStart k s).lastRecvTime = s.lastRecvTime := rfl
@[simp] theorem frameStart_lastSendTime (k : PayloadLen) (s : State) :
    (frameStart k s).lastSendTime = s.lastSendTime := rfl
@[simp] theorem frameStart_lastByteTime (k : PayloadLen) (s : State) :
    (frameStart k s).lastByteTime = s.now := rfl
@[simp] theorem frameStart_df (k : PayloadLen) (s : State) :
    (frameStart k s).df = { s.df with state := .blk, plen := k, pos := 1 } := rfl
@[simp] theorem frameStart_rxfb (k : PayloadLen) (s : State) : (frameStart k s).rxfb = s.rxfb := rfl
@[simp] theorem frameStart_tx (k : PayloadLen) (s : State) : (frameStart k s).tx = s.tx := rfl
@[simp] theorem frameStart_taskq (k : PayloadLen) (s : State) :
    (frameStart k s).taskq = s.taskq := rfl
@[simp] theorem frameStart_active (k : PayloadLen) (s : State) :
    (frameStart k s).active = s.active := rfl
@[simp] theorem frameStart_sfifo (k : PayloadLen) (s : State) :
    (frameStart k s).sfifo = s.sfifo := rfl
@[simp] theorem frameStart_evt (k : PayloadLen) (s : State) : (frameStart k s).evt = s.evt := rfl
@[simp] theorem frameStart_err (k : PayloadLen) (s : State) : (frameStart k s).err = s.err := rfl
@[simp] theorem frameStart_settings (k : PayloadLen) (s : State) :
    (frameStart k s).settings = s.settings := rfl
@[simp] theorem frameStart_operands (k : PayloadLen) (s : State) :
    (frameStart k s).operands = s.operands := rfl
@[simp] theorem frameStart_baudPending (k : PayloadLen) (s : State) :
    (frameStart k s).baudPending = s.baudPending := rfl
@[simp] theorem frameStart_pendingBaud (k : PayloadLen) (s : State) :
    (frameStart k s).pendingBaud = s.pendingBaud := rfl
@[simp] theorem frameStart_curBaud (k : PayloadLen) (s : State) :
    (frameStart k s).curBaud = s.curBaud := rfl
@[simp] theorem frameStart_rxq (k : PayloadLen) (s : State) : (frameStart k s).rxq = s.rxq := rfl
@[simp] theorem frameStart_scratch (k : PayloadLen) (s : State) :
    (frameStart k s).scratch = s.scratch := rfl
@[simp] theorem frameStart_crc (k : PayloadLen) (s : State) : (frameStart k s).crc = s.crc := rfl
@[simp] theorem frameStart_env (k : PayloadLen) (s : State) : (frameStart k s).env = s.env := rfl

/-! ## `hsConnect` -/

@[simp] theorem hsConnect_en (s : State) : (hsConnect s).en = s.en := rfl
@[simp] theorem hsConnect_conn (s : State) : (hsConnect s).conn = .connected := rfl
@[simp] theorem hsConnect_firstConnect (s : State) : (hsConnect s).firstConnect = false := rfl
@[simp] theorem hsConnect_hsStarted (s : State) : (hsConnect s).hsStarted = s.hsStarted := rfl
@[simp] theorem hsConnect_stage (s : State) : (hsConnect s).stage = s.stage := rfl
@[simp] theorem hsConnect_rxSeq (s : State) : (hsConnect s).rxSeq = s.rxSeq := rfl
@[simp] theorem hsConnect_txSeq (s : State) : (hsConnect s).txSeq = s.txSeq := rfl
@[simp] theorem hsConnect_retries (s : State) : (hsConnect s).retries = s.retries := rfl
@[simp] theorem hsConnect_now (s : State) : (hsConnect s).now = s.now := rfl
@[simp] theorem hsConnect_lastRecvTime (s : State) :
    (hsConnect s).lastRecvTime = s.lastRecvTime := rfl
@[simp] theorem hsConnect_lastSendTime (s : State) :
    (hsConnect s).lastSendTime = s.lastSendTime := rfl
@[simp] theorem hsConnect_lastByteTime (s : State) :
    (hsConnect s).lastByteTime = s.lastByteTime := rfl
@[simp] theorem hsConnect_df (s : State) : (hsConnect s).df = s.df := rfl
@[simp] theorem hsConnect_rxfb (s : State) : (hsConnect s).rxfb = s.rxfb := rfl
@[simp] theorem hsConnect_tx (s : State) : (hsConnect s).tx = s.tx := rfl
@[simp] theorem hsConnect_taskq (s : State) : (hsConnect s).taskq = s.taskq := rfl
@[simp] theorem hsConnect_active (s : State) : (hsConnect s).active = s.active := rfl
@[simp] theorem hsConnect_evt (s : State) : (hsConnect s).evt = s.evt := rfl
@[simp] theorem hsConnect_err (s : State) : (hsConnect s).err = s.err := rfl
@[simp] theorem hsConnect_settings (s : State) : (hsConnect s).settings = s.settings := rfl
@[simp] theorem hsConnect_operands (s : State) : (hsConnect s).operands = s.operands := rfl
@[simp] theorem hsConnect_baudPending (s : State) : (hsConnect s).baudPending = s.baudPending := rfl
@[simp] theorem hsConnect_pendingBaud (s : State) : (hsConnect s).pendingBaud = s.pendingBaud := rfl
@[simp] theorem hsConnect_curBaud (s : State) : (hsConnect s).curBaud = s.curBaud := rfl
@[simp] theorem hsConnect_rxq (s : State) : (hsConnect s).rxq = s.rxq := rfl
@[simp] theorem hsConnect_scratch (s : State) : (hsConnect s).scratch = s.scratch := rfl
@[simp] theorem hsConnect_crc (s : State) : (hsConnect s).crc = s.crc := rfl
@[simp] theorem hsConnect_env (s : State) : (hsConnect s).env = s.env := rfl

/-! ## `fillFrame` -/

@[simp] theorem fillFrame_en (k : PayloadLen) (n : Nat) (s : State) :
    (fillFrame k n s).en = s.en := rfl
@[simp] theorem fillFrame_conn (k : PayloadLen) (n : Nat) (s : State) :
    (fillFrame k n s).conn = s.conn := rfl
@[simp] theorem fillFrame_firstConnect (k : PayloadLen) (n : Nat) (s : State) :
    (fillFrame k n s).firstConnect = s.firstConnect := rfl
@[simp] theorem fillFrame_hsStarted (k : PayloadLen) (n : Nat) (s : State) :
    (fillFrame k n s).hsStarted = s.hsStarted := rfl
@[simp] theorem fillFrame_stage (k : PayloadLen) (n : Nat) (s : State) :
    (fillFrame k n s).stage = s.stage := rfl
@[simp] theorem fillFrame_rxSeq (k : PayloadLen) (n : Nat) (s : State) :
    (fillFrame k n s).rxSeq = s.rxSeq := rfl
@[simp] theorem fillFrame_txSeq (k : PayloadLen) (n : Nat) (s : State) :
    (fillFrame k n s).txSeq = s.txSeq := rfl
@[simp] theorem fillFrame_retries (k : PayloadLen) (n : Nat) (s : State) :
    (fillFrame k n s).retries = s.retries := rfl
@[simp] theorem fillFrame_now (k : PayloadLen) (n : Nat) (s : State) :
    (fillFrame k n s).now = s.now := rfl
@[simp] theorem fillFrame_lastRecvTime (k : PayloadLen) (n : Nat) (s : State) :
    (fillFrame k n s).lastRecvTime = s.lastRecvTime := rfl
@[simp] theorem fillFrame_lastSendTime (k : PayloadLen) (n : Nat) (s : State) :
    (fillFrame k n s).lastSendTime = s.lastSendTime := rfl
@[simp] theorem fillFrame_lastByteTime (k : PayloadLen) (n : Nat) (s : State) :
    (fillFrame k n s).lastByteTime = s.lastByteTime := rfl
@[simp] theorem fillFrame_df (k : PayloadLen) (n : Nat) (s : State) :
    (fillFrame k n s).df = s.df := rfl
@[simp] theorem fillFrame_rxfb (k : PayloadLen) (n : Nat) (s : State) :
    (fillFrame k n s).rxfb = s.rxfb := rfl
@[simp] theorem fillFrame_taskq (k : PayloadLen) (n : Nat) (s : State) :
    (fillFrame k n s).taskq = s.taskq := rfl
@[simp] theorem fillFrame_active (k : PayloadLen) (n : Nat) (s : State) :
    (fillFrame k n s).active = s.active := rfl
@[simp] theorem fillFrame_sfifo (k : PayloadLen) (n : Nat) (s : State) :
    (fillFrame k n s).sfifo = s.sfifo := rfl
@[simp] theorem fillFrame_evt (k : PayloadLen) (n : Nat) (s : State) :
    (fillFrame k n s).evt = s.evt := rfl
@[simp] theorem fillFrame_err (k : PayloadLen) (n : Nat) (s : State) :
    (fillFrame k n s).err = s.err := rfl
@[simp] theorem fillFrame_settings (k : PayloadLen) (n : Nat) (s : State) :
    (fillFrame k n s).settings = s.settings := rfl
@[simp] theorem fillFrame_operands (k : PayloadLen) (n : Nat) (s : State) :
    (fillFrame k n s).operands = s.operands := rfl
@[simp] theorem fillFrame_baudPending (k : PayloadLen) (n : Nat) (s : State) :
    (fillFrame k n s).baudPending = s.baudPending := rfl
@[simp] theorem fillFrame_pendingBaud (k : PayloadLen) (n : Nat) (s : State) :
    (fillFrame k n s).pendingBaud = s.pendingBaud := rfl
@[simp] theorem fillFrame_curBaud (k : PayloadLen) (n : Nat) (s : State) :
    (fillFrame k n s).curBaud = s.curBaud := rfl
@[simp] theorem fillFrame_rxq (k : PayloadLen) (n : Nat) (s : State) :
    (fillFrame k n s).rxq = s.rxq := rfl
@[simp] theorem fillFrame_scratch (k : PayloadLen) (n : Nat) (s : State) :
    (fillFrame k n s).scratch = s.scratch := rfl
@[simp] theorem fillFrame_crc (k : PayloadLen) (n : Nat) (s : State) :
    (fillFrame k n s).crc = s.crc := rfl
@[simp] theorem fillFrame_env (k : PayloadLen) (n : Nat) (s : State) :
    (fillFrame k n s).env = s.env := rfl

/-! ## `txSend` -/

@[simp] theorem txSend_en (s : State) : (txSend s).en = s.en := rfl
@[simp] theorem txSend_conn (s : State) : (txSend s).conn = s.conn := rfl
@[simp] theorem txSend_firstConnect (s : State) : (txSend s).firstConnect = s.firstConnect := rfl
@[simp] theorem txSend_hsStarted (s : State) : (txSend s).hsStarted = s.hsStarted := rfl
@[simp] theorem txSend_stage (s : State) : (txSend s).stage = s.stage := rfl
@[simp] theorem txSend_rxSeq (s : State) : (txSend s).rxSeq = s.rxSeq := rfl
@[simp] theorem txSend_txSeq (s : State) : (txSend s).txSeq = s.txSeq := rfl
@[simp] theorem txSend_retries (s : State) : (txSend s).retries = s.retries := rfl
@[simp] theorem txSend_now (s : State) : (txSend s).now = s.now := rfl
@[simp] theorem txSend_lastRecvTime (s : State) : (txSend s).lastRecvTime = s.lastRecvTime := rfl
@[simp] theorem txSend_lastSendTime (s : State) : (txSend s).lastSendTime = s.now := rfl
@[simp] theorem txSend_lastByteTime (s : State) : (txSend s).lastByteTime = s.lastByteTime := rfl
@[simp] theorem txSend_df (s : State) : (txSend s).df = s.df := rfl
@[simp] theorem txSend_rxfb (s : State) : (txSend s).rxfb = s.rxfb := rfl
@[simp] theorem txSend_tx (s : State) : (txSend s).tx = { s.tx with wait := true } := rfl
@[simp] theorem txSend_taskq (s : State) : (txSend s).taskq = s.taskq := rfl
@[simp] theorem txSend_active (s : State) : (txSend s).active = s.active := rfl
@[simp] theorem txSend_sfifo (s : State) : (txSend s).sfifo = s.sfifo := rfl
@[simp] theorem txSend_evt (s : State) : (txSend s).evt = s.evt := rfl
@[simp] theorem txSend_err (s : State) : (txSend s).err = s.err := rfl
@[simp] theorem txSend_settings (s : State) : (txSend s).settings = s.settings := rfl
@[simp] theorem txSend_operands (s : State) : (txSend s).operands = s.operands := rfl
@[simp] theorem txSend_baudPending (s : State) : (txSend s).baudPending = s.baudPending := rfl
@[simp] theorem txSend_pendingBaud (s : State) : (txSend s).pendingBaud = s.pendingBaud := rfl
@[simp] theorem txSend_curBaud (s : State) : (txSend s).curBaud = s.curBaud := rfl
@[simp] theorem txSend_rxq (s : State) : (txSend s).rxq = s.rxq := rfl
@[simp] theorem txSend_scratch (s : State) : (txSend s).scratch = s.scratch := rfl
@[simp] theorem txSend_crc (s : State) : (txSend s).crc = s.crc := rfl
@[simp] theorem txSend_env (s : State) :
    (txSend s).env = { s.env with txout := s.env.txout ++ s.tx.buf.take s.tx.len.toNat } := rfl

/-! ## `txAdvance` -/

@[simp] theorem txAdvance_en (s : State) : (txAdvance s).en = s.en := rfl
@[simp] theorem txAdvance_conn (s : State) : (txAdvance s).conn = s.conn := rfl
@[simp] theorem txAdvance_firstConnect (s : State) :
    (txAdvance s).firstConnect = s.firstConnect := rfl
@[simp] theorem txAdvance_hsStarted (s : State) : (txAdvance s).hsStarted = s.hsStarted := rfl
@[simp] theorem txAdvance_stage (s : State) : (txAdvance s).stage = s.stage := rfl
@[simp] theorem txAdvance_rxSeq (s : State) : (txAdvance s).rxSeq = s.rxSeq := rfl
@[simp] theorem txAdvance_txSeq (s : State) : (txAdvance s).txSeq = s.txSeq + 1 := rfl
@[simp] theorem txAdvance_retries (s : State) : (txAdvance s).retries = 0 := rfl
@[simp] theorem txAdvance_now (s : State) : (txAdvance s).now = s.now := rfl
@[simp] theorem txAdvance_lastRecvTime (s : State) :
    (txAdvance s).lastRecvTime = s.lastRecvTime := rfl
@[simp] theorem txAdvance_lastSendTime (s : State) :
    (txAdvance s).lastSendTime = s.lastSendTime := rfl
@[simp] theorem txAdvance_lastByteTime (s : State) :
    (txAdvance s).lastByteTime = s.lastByteTime := rfl
@[simp] theorem txAdvance_df (s : State) : (txAdvance s).df = s.df := rfl
@[simp] theorem txAdvance_rxfb (s : State) : (txAdvance s).rxfb = s.rxfb := rfl
@[simp] theorem txAdvance_tx (s : State) : (txAdvance s).tx = { s.tx with wait := false } := rfl
@[simp] theorem txAdvance_active (s : State) : (txAdvance s).active = s.active := rfl
@[simp] theorem txAdvance_sfifo (s : State) : (txAdvance s).sfifo = s.sfifo := rfl
@[simp] theorem txAdvance_evt (s : State) : (txAdvance s).evt = s.evt := rfl
@[simp] theorem txAdvance_err (s : State) : (txAdvance s).err = s.err := rfl
@[simp] theorem txAdvance_settings (s : State) : (txAdvance s).settings = s.settings := rfl
@[simp] theorem txAdvance_operands (s : State) : (txAdvance s).operands = s.operands := rfl
@[simp] theorem txAdvance_baudPending (s : State) : (txAdvance s).baudPending = s.baudPending := rfl
@[simp] theorem txAdvance_pendingBaud (s : State) : (txAdvance s).pendingBaud = s.pendingBaud := rfl
@[simp] theorem txAdvance_curBaud (s : State) : (txAdvance s).curBaud = s.curBaud := rfl
@[simp] theorem txAdvance_rxq (s : State) : (txAdvance s).rxq = s.rxq := rfl
@[simp] theorem txAdvance_scratch (s : State) : (txAdvance s).scratch = s.scratch := rfl
@[simp] theorem txAdvance_crc (s : State) : (txAdvance s).crc = s.crc := rfl
@[simp] theorem txAdvance_env (s : State) : (txAdvance s).env = s.env := rfl

/-! ## `rxAdvance` -/

@[simp] theorem rxAdvance_en (n : Nat) (s : State) : (rxAdvance n s).en = s.en := rfl
@[simp] theorem rxAdvance_conn (n : Nat) (s : State) : (rxAdvance n s).conn = s.conn := rfl
@[simp] theorem rxAdvance_firstConnect (n : Nat) (s : State) :
    (rxAdvance n s).firstConnect = s.firstConnect := rfl
@[simp] theorem rxAdvance_hsStarted (n : Nat) (s : State) :
    (rxAdvance n s).hsStarted = s.hsStarted := rfl
@[simp] theorem rxAdvance_stage (n : Nat) (s : State) : (rxAdvance n s).stage = s.stage := rfl
@[simp] theorem rxAdvance_rxSeq (n : Nat) (s : State) : (rxAdvance n s).rxSeq = s.rxSeq + 1 := rfl
@[simp] theorem rxAdvance_txSeq (n : Nat) (s : State) : (rxAdvance n s).txSeq = s.txSeq := rfl
@[simp] theorem rxAdvance_retries (n : Nat) (s : State) : (rxAdvance n s).retries = 0 := rfl
@[simp] theorem rxAdvance_now (n : Nat) (s : State) : (rxAdvance n s).now = s.now := rfl
@[simp] theorem rxAdvance_lastRecvTime (n : Nat) (s : State) :
    (rxAdvance n s).lastRecvTime = s.lastRecvTime := rfl
@[simp] theorem rxAdvance_lastSendTime (n : Nat) (s : State) :
    (rxAdvance n s).lastSendTime = s.lastSendTime := rfl
@[simp] theorem rxAdvance_lastByteTime (n : Nat) (s : State) :
    (rxAdvance n s).lastByteTime = s.lastByteTime := rfl
@[simp] theorem rxAdvance_df (n : Nat) (s : State) : (rxAdvance n s).df = s.df := rfl
@[simp] theorem rxAdvance_rxfb (n : Nat) (s : State) : (rxAdvance n s).rxfb = s.rxfb := rfl
@[simp] theorem rxAdvance_tx (n : Nat) (s : State) : (rxAdvance n s).tx = s.tx := rfl
@[simp] theorem rxAdvance_active (n : Nat) (s : State) : (rxAdvance n s).active = s.active := rfl
@[simp] theorem rxAdvance_sfifo (n : Nat) (s : State) : (rxAdvance n s).sfifo = s.sfifo := rfl
@[simp] theorem rxAdvance_evt (n : Nat) (s : State) : (rxAdvance n s).evt = s.evt := rfl
@[simp] theorem rxAdvance_err (n : Nat) (s : State) : (rxAdvance n s).err = s.err := rfl
@[simp] theorem rxAdvance_settings (n : Nat) (s : State) :
    (rxAdvance n s).settings = s.settings := rfl
@[simp] theorem rxAdvance_operands (n : Nat) (s : State) :
    (rxAdvance n s).operands = s.operands := rfl
@[simp] theorem rxAdvance_baudPending (n : Nat) (s : State) :
    (rxAdvance n s).baudPending = s.baudPending := rfl
@[simp] theorem rxAdvance_pendingBaud (n : Nat) (s : State) :
    (rxAdvance n s).pendingBaud = s.pendingBaud := rfl
@[simp] theorem rxAdvance_curBaud (n : Nat) (s : State) : (rxAdvance n s).curBaud = s.curBaud := rfl
@[simp] theorem rxAdvance_rxq (n : Nat) (s : State) : (rxAdvance n s).rxq = s.rxq := rfl
@[simp] theorem rxAdvance_scratch (n : Nat) (s : State) : (rxAdvance n s).scratch = s.scratch := rfl
@[simp] theorem rxAdvance_crc (n : Nat) (s : State) : (rxAdvance n s).crc = s.crc := rfl
@[simp] theorem rxAdvance_env (n : Nat) (s : State) : (rxAdvance n s).env = s.env := rfl

/-! ## `txClear` -/

@[simp] theorem txClear_en (s : State) : (txClear s).en = s.en := rfl
@[simp] theorem txClear_conn (s : State) : (txClear s).conn = s.conn := rfl
@[simp] theorem txClear_firstConnect (s : State) : (txClear s).firstConnect = s.firstConnect := rfl
@[simp] theorem txClear_hsStarted (s : State) : (txClear s).hsStarted = s.hsStarted := rfl
@[simp] theorem txClear_stage (s : State) : (txClear s).stage = s.stage := rfl
@[simp] theorem txClear_rxSeq (s : State) : (txClear s).rxSeq = s.rxSeq := rfl
@[simp] theorem txClear_txSeq (s : State) : (txClear s).txSeq = s.txSeq := rfl
@[simp] theorem txClear_retries (s : State) : (txClear s).retries = s.retries := rfl
@[simp] theorem txClear_now (s : State) : (txClear s).now = s.now := rfl
@[simp] theorem txClear_lastRecvTime (s : State) : (txClear s).lastRecvTime = s.lastRecvTime := rfl
@[simp] theorem txClear_lastSendTime (s : State) : (txClear s).lastSendTime = s.lastSendTime := rfl
@[simp] theorem txClear_lastByteTime (s : State) : (txClear s).lastByteTime = s.lastByteTime := rfl
@[simp] theorem txClear_df (s : State) : (txClear s).df = s.df := rfl
@[simp] theorem txClear_rxfb (s : State) : (txClear s).rxfb = s.rxfb := rfl
@[simp] theorem txClear_tx (s : State) : (txClear s).tx = { s.tx with chunk := 0, len := 0 } := rfl
@[simp] theorem txClear_taskq (s : State) : (txClear s).taskq = s.taskq := rfl
@[simp] theorem txClear_active (s : State) : (txClear s).active = s.active := rfl
@[simp] theorem txClear_sfifo (s : State) : (txClear s).sfifo = s.sfifo := rfl
@[simp] theorem txClear_evt (s : State) : (txClear s).evt = s.evt := rfl
@[simp] theorem txClear_err (s : State) : (txClear s).err = s.err := rfl
@[simp] theorem txClear_settings (s : State) : (txClear s).settings = s.settings := rfl
@[simp] theorem txClear_operands (s : State) : (txClear s).operands = s.operands := rfl
@[simp] theorem txClear_baudPending (s : State) : (txClear s).baudPending = s.baudPending := rfl
@[simp] theorem txClear_pendingBaud (s : State) : (txClear s).pendingBaud = s.pendingBaud := rfl
@[simp] theorem txClear_curBaud (s : State) : (txClear s).curBaud = s.curBaud := rfl
@[simp] theorem txClear_rxq (s : State) : (txClear s).rxq = s.rxq := rfl
@[simp] theorem txClear_scratch (s : State) : (txClear s).scratch = s.scratch := rfl
@[simp] theorem txClear_crc (s : State) : (txClear s).crc = s.crc := rfl
@[simp] theorem txClear_env (s : State) : (txClear s).env = s.env := rfl

/-! ## Head task -/

@[simp] theorem updateHead_cons (f : Task → Task) (s : State) (t : Task) (rest : List Task)
    (h : s.taskq = t :: rest) : (updateHead f s).taskq = f t :: rest := by
  simp [updateHead, h]

@[simp] theorem updateHead_nil (f : Task → Task) (s : State) (h : s.taskq = []) :
    (updateHead f s).taskq = [] := by
  simp [updateHead, h]

@[simp] theorem updateHead_length (f : Task → Task) (s : State) :
    (updateHead f s).taskq.length = s.taskq.length := by
  unfold updateHead
  cases s.taskq <;> rfl

theorem head_of_cons {s : State} {t : Task} {rest : List Task} (h : s.taskq = t :: rest) :
    s.head = t := by
  simp [State.head, h]

theorem head_congr {s t : State} (h : t.taskq = s.taskq) : t.head = s.head := by
  simp [State.head, h]

/-! ## Status FIFO -/

/-- R66: a stage change writes one entry, and setting the current stage writes none. -/
theorem setStage_sfifo (g : Stage) (s : State) :
    (setStage g s).sfifo
      = if g = s.stage then s.sfifo else (sfifoPush (statusByte s.conn g) s).sfifo := by
  unfold setStage
  split <;> simp_all [sfifoPush]

/-- R105: after a push the FIFO holds `min(old + 1, 8)` entries. -/
theorem sfifoPush_length (v : Byte) (s : State) (h : s.sfifo.length ≤ Config.sfifoDepth) :
    (sfifoPush v s).sfifo.length = min (s.sfifo.length + 1) Config.sfifoDepth := by
  simp only [Config.sfifoDepth] at h
  simp only [sfifoPush, Config.sfifoDepth]
  split <;> simp <;> omega

theorem setStage_sfifo_length (g : Stage) (s : State) (h : s.sfifo.length ≤ Config.sfifoDepth) :
    (setStage g s).sfifo.length ≤ Config.sfifoDepth := by
  rw [setStage_sfifo]
  split
  · exact h
  · rw [sfifoPush_length _ _ h]; exact Nat.min_le_right _ _

end Sys2Proof.Machine
end

