-- ==== Sys2Proof/Laws/Memory.lean ====
section
/-!
SUPPORT. Laws/Memory.lean: the laws of the scratch RAM: read after write, every other byte alone, and the canonical
form kept by every operation.
-/

namespace Sys2Proof.Machine

/-! ## One byte -/

theorem Memory.get?_set_self (m : List Host.Cell) (a : Nat) (v : Byte) :
    Memory.get? (Memory.set m a v) a = some v := by
  induction m with
  | nil => simp [Memory.set, Memory.get?]
  | cons c rest ih =>
    obtain ⟨b, w⟩ := c
    unfold Memory.set
    split
    · simp [Memory.get?]
    · split
      · simp [Memory.get?]
      · rename_i hlt hne
        simp [Memory.get?, hne, ih]

theorem Memory.get?_set_ne (m : List Host.Cell) {a a' : Nat} (v : Byte) (h : a' ≠ a) :
    Memory.get? (Memory.set m a v) a' = Memory.get? m a' := by
  induction m with
  | nil => simp [Memory.set, Memory.get?, h]
  | cons c rest ih =>
    obtain ⟨b, w⟩ := c
    unfold Memory.set
    split
    · simp [Memory.get?, h]
    · split
      · rename_i hlt heq
        subst heq
        simp [Memory.get?, h]
      · simp only [Memory.get?, ih]

theorem Memory.mem_set {m : List Host.Cell} {a : Nat} {v : Byte} {c : Host.Cell}
    (h : c ∈ Memory.set m a v) : c = (a, v) ∨ c ∈ m := by
  induction m with
  | nil => simpa [Memory.set] using h
  | cons d rest ih =>
    obtain ⟨b, w⟩ := d
    unfold Memory.set at h
    split at h
    · simpa using h
    · split at h
      · rcases List.mem_cons.mp h with h | h
        · exact .inl h
        · exact .inr (List.mem_cons_of_mem _ h)
      · rcases List.mem_cons.mp h with h | h
        · exact .inr (by simp [h])
        · exact (ih h).imp id (List.mem_cons_of_mem _)

/-- A write keeps the canonical form. -/
theorem Memory.wf_set {m : List Host.Cell} {a : Nat} (v : Byte) (h : Memory.wf m)
    (ha : a < Config.scratchSize) : Memory.wf (Memory.set m a v) := by
  refine ⟨?_, fun c hc => ?_⟩
  · obtain ⟨hp, -⟩ := h
    induction m with
    | nil => simp [Memory.set]
    | cons d rest ih =>
      obtain ⟨b, w⟩ := d
      obtain ⟨hb, hr⟩ := List.pairwise_cons.mp hp
      unfold Memory.set
      split
      · rename_i hlt
        refine List.pairwise_cons.mpr ⟨fun c hc => ?_, hp⟩
        rcases List.mem_cons.mp hc with rfl | hc
        · exact hlt
        · exact Nat.lt_trans hlt (hb c hc)
      · split
        · rename_i heq
          subst heq
          exact List.pairwise_cons.mpr ⟨hb, hr⟩
        · rename_i hlt hne
          refine List.pairwise_cons.mpr ⟨fun c hc => ?_, ih hr⟩
          rcases Memory.mem_set hc with rfl | hc
          · simp only at hlt hne ⊢; omega
          · exact hb c hc
  · rcases Memory.mem_set hc with rfl | hc
    · exact ha
    · exact h.2 c hc

/-! ## Bytes of the scratch RAM -/

@[simp] theorem storeByte_scratchByte_self (k : BitVec 16) (b : Byte) (s : State) :
    (storeByte k b s).scratchByte k = b := by
  simp [State.scratchByte, Memory.get?_set_self]

theorem storeByte_scratchByte_ne {k k' : BitVec 16} (b : Byte) (s : State) (h : k' ≠ k) :
    (storeByte k b s).scratchByte k' = s.scratchByte k' := by
  have hk : k'.toNat ≠ k.toNat := fun e => h (BitVec.eq_of_toNat_eq e)
  simp [State.scratchByte, Memory.get?_set_ne _ _ hk]

/-- Two states with the same scratch RAM and the same reset read the same byte. -/
theorem scratchByte_congr {s t : State} (hm : t.scratch = s.scratch)
    (he : t.env.resets = s.env.resets) (k : BitVec 16) : t.scratchByte k = s.scratchByte k := by
  simp [State.scratchByte, hm, he]

theorem scratchBytes_congr {s t : State} (hm : t.scratch = s.scratch)
    (he : t.env.resets = s.env.resets) (k : BitVec 16) (n : Nat) :
    t.scratchBytes k n = s.scratchBytes k n := by
  induction n generalizing k with
  | zero => rfl
  | succ n ih => simp [State.scratchBytes, ih, scratchByte_congr hm he]

@[simp] theorem scratchBytes_length (s : State) (k : BitVec 16) (n : Nat) :
    (s.scratchBytes k n).length = n := by
  induction n generalizing k with
  | zero => rfl
  | succ n ih => simp [State.scratchBytes, ih]

/-! ## Runs of bytes -/

/-- A run of stores changes the scratch RAM and nothing else. -/
theorem storeBytes_eq (k : BitVec 16) (bs : List Byte) (s : State) :
    storeBytes k bs s = { s with scratch := (storeBytes k bs s).scratch } := by
  induction bs generalizing k s with
  | nil => rfl
  | cons b rest ih =>
    simp only [storeBytes]
    rw [ih]
    rfl

theorem storeBytes_wf {k : BitVec 16} (bs : List Byte) {s : State} (h : Memory.wf s.scratch) :
    Memory.wf (storeBytes k bs s).scratch := by
  induction bs generalizing k s with
  | nil => exact h
  | cons b rest ih => exact ih (Memory.wf_set b h k.isLt)

/-- A byte outside the stored run reads as before. -/
theorem storeBytes_scratchByte_outside {k a : BitVec 16} (bs : List Byte) (s : State)
    (h : ∀ i < bs.length, a ≠ k + BitVec.ofNat 16 i) :
    (storeBytes k bs s).scratchByte a = s.scratchByte a := by
  induction bs generalizing k s with
  | nil => rfl
  | cons b rest ih =>
    simp only [storeBytes]
    rw [ih]
    · exact storeByte_scratchByte_ne _ _ (by simpa using h 0 (by simp))
    · intro i hi
      have := h (i + 1) (by simp; omega)
      rwa [show k + BitVec.ofNat 16 (i + 1) = k + 1 + BitVec.ofNat 16 i by
        apply BitVec.eq_of_toNat_eq; simp [BitVec.toNat_add]; omega] at this

/-- A byte of the stored run reads as stored. -/
theorem storeBytes_scratchByte_inside {k : BitVec 16} (bs : List Byte) (s : State) {i : Nat}
    (hi : i < bs.length) (hlen : bs.length ≤ Config.scratchSize) :
    (storeBytes k bs s).scratchByte (k + BitVec.ofNat 16 i) = bs[i] := by
  induction bs generalizing k s i with
  | nil => simp at hi
  | cons b rest ih =>
    simp only [List.length_cons, Config.scratchSize] at hi hlen
    simp only [storeBytes]
    cases i with
    | zero =>
      rw [storeBytes_scratchByte_outside]
      · simp
      · intro j hj e
        have := congrArg BitVec.toNat e
        simp [BitVec.toNat_add] at this
        omega
    | succ j =>
      rw [show k + BitVec.ofNat 16 (j + 1) = k + 1 + BitVec.ofNat 16 j by
        apply BitVec.eq_of_toNat_eq; simp [BitVec.toNat_add]; omega]
      exact ih (s := storeByte k b s) (by omega)
        (by simp only [Config.scratchSize]; omega)

/-- The stored run is what a read of the same run gives back. -/
theorem storeBytes_scratchBytes (k : BitVec 16) (bs : List Byte) (s : State)
    (hlen : bs.length ≤ Config.scratchSize) :
    (storeBytes k bs s).scratchBytes k bs.length = bs := by
  have key : ∀ (n : Nat) (t : State) (k' : BitVec 16) (l : List Byte), l.length = n →
      (∀ i (hi : i < l.length), t.scratchByte (k' + BitVec.ofNat 16 i) = l[i]) →
      t.scratchBytes k' n = l := by
    intro n
    induction n with
    | zero => intro t k' l hl _; simpa [State.scratchBytes] using (List.length_eq_zero_iff.mp hl).symm
    | succ n ih =>
      intro t k' l hl h
      match l, hl with
      | b :: rest, hl =>
        simp only [State.scratchBytes]
        congr 1
        · have h0 := h 0 (by simp)
          rw [List.getElem_cons_zero] at h0
          simpa using h0
        · refine ih t (k' + 1) rest (by simpa using hl) (fun i hi => ?_)
          have := h (i + 1) (by simpa using hi)
          rwa [show k' + BitVec.ofNat 16 (i + 1) = k' + 1 + BitVec.ofNat 16 i by
            apply BitVec.eq_of_toNat_eq; simp [BitVec.toNat_add]; omega] at this
  exact key _ _ _ _ rfl (fun i hi => storeBytes_scratchByte_inside bs s hi hlen)

end Sys2Proof.Machine
end

