-- ==== Sys2Proof/Laws/Codec.lean ====
section
/-!
SUPPORT. Laws/Codec.lean: what the composite operations of the codec leave in each field: the abort (R97), the
transmit stage (R92, R93), and the frame a transmitter builds.
-/

namespace Sys2Proof.Machine

/-! ## `abort` -/

@[simp] theorem abort_en (c : EvtCode) (can : Bool) (s : State) :
    (abort c can s).en = s.en := by
  cases can <;> simp [abort]
@[simp] theorem abort_conn (c : EvtCode) (can : Bool) (s : State) :
    (abort c can s).conn = s.conn := by
  cases can <;> simp [abort]
@[simp] theorem abort_firstConnect (c : EvtCode) (can : Bool) (s : State) :
    (abort c can s).firstConnect = s.firstConnect := by
  cases can <;> simp [abort]
@[simp] theorem abort_hsStarted (c : EvtCode) (can : Bool) (s : State) :
    (abort c can s).hsStarted = s.hsStarted := by
  cases can <;> simp [abort]
@[simp] theorem abort_stage (c : EvtCode) (can : Bool) (s : State) :
    (abort c can s).stage = .cmdRecv := by
  cases can <;> simp [abort]
@[simp] theorem abort_rxSeq (c : EvtCode) (can : Bool) (s : State) :
    (abort c can s).rxSeq = s.rxSeq := by
  cases can <;> simp [abort]
@[simp] theorem abort_txSeq (c : EvtCode) (can : Bool) (s : State) :
    (abort c can s).txSeq = s.txSeq := by
  cases can <;> simp [abort]
@[simp] theorem abort_retries (c : EvtCode) (can : Bool) (s : State) :
    (abort c can s).retries = 0 := by
  cases can <;> simp [abort]
@[simp] theorem abort_now (c : EvtCode) (can : Bool) (s : State) :
    (abort c can s).now = s.now := by
  cases can <;> simp [abort]
@[simp] theorem abort_lastRecvTime (c : EvtCode) (can : Bool) (s : State) :
    (abort c can s).lastRecvTime = s.lastRecvTime := by
  cases can <;> simp [abort]
@[simp] theorem abort_lastSendTime (c : EvtCode) (can : Bool) (s : State) :
    (abort c can s).lastSendTime = s.lastSendTime := by
  cases can <;> simp [abort]
@[simp] theorem abort_lastByteTime (c : EvtCode) (can : Bool) (s : State) :
    (abort c can s).lastByteTime = s.lastByteTime := by
  cases can <;> simp [abort]
@[simp] theorem abort_df (c : EvtCode) (can : Bool) (s : State) :
    (abort c can s).df = { s.df with state := .hunt, pos := 0 } := by
  cases can <;> simp [abort]
@[simp] theorem abort_rxfb (c : EvtCode) (can : Bool) (s : State) :
    (abort c can s).rxfb = s.rxfb := by
  cases can <;> simp [abort]
@[simp] theorem abort_tx (c : EvtCode) (can : Bool) (s : State) :
    (abort c can s).tx = { s.tx with wait := false, chunk := 0, len := 0 } := by
  cases can <;> simp [abort]
@[simp] theorem abort_taskq (c : EvtCode) (can : Bool) (s : State) :
    (abort c can s).taskq = s.taskq.tail := by
  cases can <;> simp [abort]
@[simp] theorem abort_active (c : EvtCode) (can : Bool) (s : State) :
    (abort c can s).active = false := by
  cases can <;> simp [abort]
@[simp] theorem abort_evt (c : EvtCode) (can : Bool) (s : State) :
    (abort c can s).evt = { code := c, dir := s.head.dir.bit, count := s.head.xfer } := by
  cases can <;> simp [abort]
@[simp] theorem abort_err (c : EvtCode) (can : Bool) (s : State) :
    (abort c can s).err = { s.err with evtOvf := s.err.evtOvf || s.evt.code != .none } := by
  cases can <;> simp [abort]
@[simp] theorem abort_settings (c : EvtCode) (can : Bool) (s : State) :
    (abort c can s).settings = s.settings := by
  cases can <;> simp [abort]
@[simp] theorem abort_operands (c : EvtCode) (can : Bool) (s : State) :
    (abort c can s).operands = s.operands := by
  cases can <;> simp [abort]
@[simp] theorem abort_baudPending (c : EvtCode) (can : Bool) (s : State) :
    (abort c can s).baudPending = s.baudPending := by
  cases can <;> simp [abort]
@[simp] theorem abort_pendingBaud (c : EvtCode) (can : Bool) (s : State) :
    (abort c can s).pendingBaud = s.pendingBaud := by
  cases can <;> simp [abort]
@[simp] theorem abort_curBaud (c : EvtCode) (can : Bool) (s : State) :
    (abort c can s).curBaud = s.curBaud := by
  cases can <;> simp [abort]
@[simp] theorem abort_rxq (c : EvtCode) (can : Bool) (s : State) :
    (abort c can s).rxq = s.rxq := by
  cases can <;> simp [abort]
@[simp] theorem abort_scratch (c : EvtCode) (can : Bool) (s : State) :
    (abort c can s).scratch = s.scratch := by
  cases can <;> simp [abort]
@[simp] theorem abort_crc (c : EvtCode) (can : Bool) (s : State) :
    (abort c can s).crc = s.crc := by
  cases can <;> simp [abort]
@[simp] theorem abort_env (c : EvtCode) (can : Bool) (s : State) :
    (abort c can s).env = { s.env with txout := s.env.txout ++ if can then [0x18] else [] } := by
  cases can <;> simp [abort]

/-! ## `txStage` -/

@[simp] theorem txStage_en (s : State) : (txStage s).en = s.en := by
  simp [txStage]
@[simp] theorem txStage_conn (s : State) : (txStage s).conn = s.conn := by
  simp [txStage]
@[simp] theorem txStage_firstConnect (s : State) :
    (txStage s).firstConnect = s.firstConnect := by
  simp [txStage]
@[simp] theorem txStage_hsStarted (s : State) :
    (txStage s).hsStarted = s.hsStarted := by
  simp [txStage]
@[simp] theorem txStage_stage (s : State) : (txStage s).stage = s.stage := by
  simp [txStage]
@[simp] theorem txStage_rxSeq (s : State) : (txStage s).rxSeq = s.rxSeq := by
  simp [txStage]
@[simp] theorem txStage_txSeq (s : State) : (txStage s).txSeq = s.txSeq := by
  simp [txStage]
@[simp] theorem txStage_retries (s : State) : (txStage s).retries = s.retries := by
  simp [txStage]
@[simp] theorem txStage_now (s : State) : (txStage s).now = s.now := by
  simp [txStage]
@[simp] theorem txStage_lastRecvTime (s : State) :
    (txStage s).lastRecvTime = s.lastRecvTime := by
  simp [txStage]
@[simp] theorem txStage_lastSendTime (s : State) :
    (txStage s).lastSendTime = s.now := by
  simp [txStage]
@[simp] theorem txStage_lastByteTime (s : State) :
    (txStage s).lastByteTime = s.lastByteTime := by
  simp [txStage]
@[simp] theorem txStage_df (s : State) : (txStage s).df = s.df := by
  simp [txStage]
@[simp] theorem txStage_rxfb (s : State) : (txStage s).rxfb = s.rxfb := by
  simp [txStage]
@[simp] theorem txStage_taskq (s : State) : (txStage s).taskq = s.taskq := by
  simp [txStage]
@[simp] theorem txStage_active (s : State) : (txStage s).active = s.active := by
  simp [txStage]
@[simp] theorem txStage_sfifo (s : State) : (txStage s).sfifo = s.sfifo := by
  simp [txStage]
@[simp] theorem txStage_evt (s : State) : (txStage s).evt = s.evt := by
  simp [txStage]
@[simp] theorem txStage_err (s : State) : (txStage s).err = s.err := by
  simp [txStage]
@[simp] theorem txStage_settings (s : State) :
    (txStage s).settings = s.settings := by
  simp [txStage]
@[simp] theorem txStage_operands (s : State) :
    (txStage s).operands = s.operands := by
  simp [txStage]
@[simp] theorem txStage_baudPending (s : State) :
    (txStage s).baudPending = s.baudPending := by
  simp [txStage]
@[simp] theorem txStage_pendingBaud (s : State) :
    (txStage s).pendingBaud = s.pendingBaud := by
  simp [txStage]
@[simp] theorem txStage_curBaud (s : State) : (txStage s).curBaud = s.curBaud := by
  simp [txStage]
@[simp] theorem txStage_rxq (s : State) : (txStage s).rxq = s.rxq := by
  simp [txStage]
@[simp] theorem txStage_scratch (s : State) : (txStage s).scratch = s.scratch := by
  simp [txStage]
@[simp] theorem txStage_crc (s : State) : (txStage s).crc = s.crc := by
  simp [txStage]

/-! ## The frame a transmitter builds (R58, R92) -/

@[simp] theorem txFrame_length (f : CrcFn) (k : PayloadLen) (seq : Byte) (p : List Byte) :
    (txFrame f k seq p).length = p.length + 5 := by
  simp [txFrame, frameBytes]

theorem stagedPayload_length (s : State) (k : PayloadLen) {n : Nat} (h : n ≤ k.toNat) :
    (stagedPayload s k n).length = k.toNat := by
  simp [stagedPayload]; omega

theorem PayloadLen.toNat_le (k : PayloadLen) : k.toNat ≤ 1024 := by cases k <;> decide

theorem PayloadLen.toNat_pos (k : PayloadLen) : 1 ≤ k.toNat := by cases k <;> decide

/-- The transmit stage after a frame is staged and sent. -/
theorem txStage_tx (s : State) (h : s.tx.buf.length = Config.longLen + 5) :
    let k := txKind s.head.remaining
    let n := s.head.txCount
    let t := (txStage s).tx
    t.wait = true ∧ t.len.toNat = k.toNat + 5 ∧ t.chunk.toNat = n
      ∧ t.buf.length = Config.longLen + 5
      ∧ t.buf.take t.len.toNat = txFrame s.crc k s.txSeq (stagedPayload s k n) := by
  intro k n t
  have hk : k.toNat ≤ 1024 := k.toNat_le
  have hn : n ≤ k.toNat := Nat.min_le_right _ _
  have hp : (stagedPayload s k n).length = k.toNat := stagedPayload_length s k hn
  have hlen : t.len.toNat = k.toNat + 5 := by
    change (BitVec.ofNat 11 (k.toNat + 5)).toNat = _
    simp; omega
  have hbuf : t.buf = txFrame s.crc k s.txSeq (stagedPayload s k n)
      ++ s.tx.buf.drop (txFrame s.crc k s.txSeq (stagedPayload s k n)).length := rfl
  refine ⟨rfl, hlen, ?_, ?_, ?_⟩
  · change (BitVec.ofNat 11 n).toNat = _
    simp; omega
  · rw [hbuf]; simp [hp, h, Config.longLen]; omega
  · rw [hlen, hbuf, List.take_append_of_le_length (by simp [hp]), List.take_of_length_le (by simp [hp])]

theorem txStage_env (s : State) (h : s.tx.buf.length = Config.longLen + 5) :
    let k := txKind s.head.remaining
    let frame := txFrame s.crc k s.txSeq (stagedPayload s k s.head.txCount)
    (txStage s).env = { s.env with txout := s.env.txout ++ frame } := by
  intro k frame
  have := (txStage_tx s h).2.2.2.2
  simp only [frame, k, ← this]
  rfl

end Sys2Proof.Machine
end

