-- ==== Sys2Proof/Laws/Crc.lean ====
section
/-!
SUPPORT. Laws/Crc.lean: the default CRC (R61) forgets nothing: each of its steps is injective in the running value, and a
byte step is injective in the byte. So payloads that differ in one byte have different checksums (R103).
-/

namespace Sys2Proof.Machine

/-- R46, R84: the two CRC bytes put back together are the CRC, so a validator with the same function accepts them. -/
theorem crcBytes_checksumOk (f : CrcFn) (payload : List Byte) :
    checksumOk f payload (crcLow (crc16 f payload)) (crcHigh (crc16 f payload)) = true := by
  have h : ∀ c : BitVec 16, crcHigh c ++ crcLow c = c := by
    intro c
    refine BitVec.eq_of_getLsbD_eq fun i hi => ?_
    simp only [crcHigh, crcLow, BitVec.getLsbD_append, BitVec.getLsbD_extractLsb']
    by_cases h8 : i < 8
    · simp [h8]
    · simp [h8, show i - 8 < 8 by omega, show 8 + (i - 8) = i by omega]
  simp [checksumOk, h]

/-- Bit 0 of a shifted value is the bit that was shifted out: the polynomial is odd. -/
theorem crcShift_bit_zero (c : BitVec 16) : (crcShift c).getLsbD 0 = c.getLsbD 15 := by
  unfold crcShift
  split <;> simp_all

/-- The other bits are the shifted ones, the polynomial's added when a 1 was shifted out. -/
theorem crcShift_bit_succ (c : BitVec 16) {i : Nat} (hi : i < 15) :
    (crcShift c).getLsbD (i + 1)
      = (c.getLsbD i ^^ (c.getLsbD 15 && (0x1021 : BitVec 16).getLsbD (i + 1))) := by
  have h1 : i + 1 < 16 := by omega
  have h2 : i < 16 := by omega
  unfold crcShift
  split <;> simp_all [BitVec.getLsbD_eq_getElem]

theorem crcShift_injective {a b : BitVec 16} (h : crcShift a = crcShift b) : a = b := by
  have top : a.getLsbD 15 = b.getLsbD 15 := by
    rw [← crcShift_bit_zero, ← crcShift_bit_zero, h]
  refine BitVec.eq_of_getLsbD_eq fun i hi => ?_
  by_cases h15 : i = 15
  · rw [h15]; exact top
  · have hs := congrArg (fun c => c.getLsbD (i + 1)) h
    simp only [crcShift_bit_succ _ (show i < 15 by omega), top] at hs
    exact Bool.xor_left_inj.mp hs

/-- The eight inner steps of R61 on two values are equal only if the values are. -/
theorem crcByte_xor_injective {a b : BitVec 16} {x y : Byte} (h : crcByte a x = crcByte b y) :
    a ^^^ (x ++ (0 : BitVec 8)) = b ^^^ (y ++ (0 : BitVec 8)) :=
  crcShift_injective <| crcShift_injective <| crcShift_injective <| crcShift_injective <|
    crcShift_injective <| crcShift_injective <| crcShift_injective <| crcShift_injective h

theorem crcByte_injective_value {a b : BitVec 16} {x : Byte} (h : crcByte a x = crcByte b x) : a = b :=
  (BitVec.xor_left_inj _).mp (crcByte_xor_injective h)

theorem crcByte_injective_byte {a : BitVec 16} {x y : Byte} (h : crcByte a x = crcByte a y) : x = y := by
  have h' : (x ++ (0 : BitVec 8) : BitVec 16) = y ++ (0 : BitVec 8) :=
    (BitVec.xor_right_inj _).mp (crcByte_xor_injective h)
  refine BitVec.eq_of_getLsbD_eq fun i hi => ?_
  have h8 : (fun c : BitVec 16 => c.getLsbD (i + 8)) (x ++ (0 : BitVec 8)) = _ :=
    congrArg (fun c : BitVec 16 => c.getLsbD (i + 8)) h'
  simpa only [BitVec.getLsbD_append, show ¬ i + 8 < 8 by omega, decide_false, cond_false,
    Nat.add_sub_cancel, if_false] using h8

theorem crc_fold_injective (payload : List Byte) {a b : BitVec 16}
    (h : payload.foldl crcByte a = payload.foldl crcByte b) : a = b := by
  induction payload generalizing a b with
  | nil => exact h
  | cons x rest ih => exact crcByte_injective_value (ih h)

/-- One byte replaced by another changes the running value at the end. -/
theorem crc_fold_set_ne (payload : List Byte) (a : BitVec 16) {i : Nat} {b : Byte}
    (hi : i < payload.length) (h : payload[i]? ≠ some b) :
    (payload.set i b).foldl crcByte a ≠ payload.foldl crcByte a := by
  induction payload generalizing a i with
  | nil => simp at hi
  | cons x rest ih =>
    cases i with
    | zero =>
      intro e
      have : b = x := crcByte_injective_byte (crc_fold_injective rest e)
      simp [this] at h
    | succ i => exact ih (crcByte a x) (by simpa using hi) (by simpa using h)

theorem crcXmodem_detectsOneByte (n : Nat) : CrcFn.DetectsOneByte .xmodem n :=
  fun payload _ _ hn hi h => crc_fold_set_ne payload 0 (hn ▸ hi) h

end Sys2Proof.Machine
end

