-- ==== Sys2Proof/Laws/Invariant.lean ====
section
/-!
SUPPORT. Laws/Invariant.lean: each procedure of the codec and of POLL keeps `BlockInv` (R13), one lemma per procedure.
-/

namespace Sys2Proof.Machine

/-! ## Fields the invariant reads -/

/-- Two states that agree on every field `BlockInv` reads. -/
structure SameCore (s t : State) : Prop where
  en : t.en = s.en
  conn : t.conn = s.conn
  firstConnect : t.firstConnect = s.firstConnect
  stage : t.stage = s.stage
  txSeq : t.txSeq = s.txSeq
  df : t.df = s.df
  rxfb : t.rxfb = s.rxfb
  tx : t.tx = s.tx
  taskq : t.taskq = s.taskq
  active : t.active = s.active
  sfifo : t.sfifo = s.sfifo
  evt : t.evt = s.evt
  rxq : t.rxq = s.rxq
  scratch : t.scratch = s.scratch
  baudPending : t.baudPending = s.baudPending
  crc : t.crc = s.crc

theorem BlockInv.congr {s t : State} (h : BlockInv s) (e : SameCore s t) : BlockInv t := by
  obtain ⟨q, g, x, r, c, m⟩ := h
  have hh : t.head = s.head := head_congr e.taskq
  refine ⟨⟨?_, ?_, ?_, ?_⟩, ⟨?_, ?_, ?_, ?_, ?_⟩, ⟨?_, ?_, ?_⟩, ⟨?_, ?_, ?_, ?_⟩, ⟨?_, ?_, ?_, ?_, ?_⟩, ?_⟩
  · rw [e.taskq]; exact q.tasks
  · rw [e.taskq]; exact q.bound
  · rw [e.taskq, e.active]; exact q.busy
  · rw [e.taskq, e.active]; exact q.idle
  · rw [e.active, e.stage]; exact g.transfer
  · rw [e.active, e.stage, hh]; exact g.dir
  · rw [e.tx, e.stage]; exact g.wait
  · rw [hh]; simpa [State.abortable, e.active, e.stage] using g.unfinished
  · rw [hh, e.stage]; exact g.finished
  · rw [e.tx]; exact x.bufLen
  · rw [e.tx]
    intro hw
    obtain ⟨k, p, f⟩ := x.staged hw
    exact ⟨k, p, by rw [hh]; exact f.kind, f.payloadLen, by rw [e.tx, e.crc, e.txSeq]; exact f.bytes,
      by rw [e.tx]; exact f.len, by rw [e.tx, hh]; exact f.chunk⟩
  · rw [e.tx]; exact x.unstaged
  · rw [e.rxfb]; exact r.bufLen
  · rw [e.df]; exact r.pos
  · rw [e.df]; simpa [State.readActive, e.active, hh] using r.readHunt
  · rw [e.rxq]; exact r.ring
  · rw [e.conn, e.active, e.df, e.stage]; exact c.detecting
  · rw [e.en, e.taskq, e.rxq, e.baudPending, e.conn]; exact c.disabled
  · rw [e.conn, e.firstConnect]; exact c.connected
  · rw [e.sfifo]; exact c.fifo
  · rw [e.evt]; exact c.latch
  · rw [e.scratch]; exact m

theorem emit_inv {s : State} (b : Byte) (h : BlockInv s) : BlockInv (emit b s) := h.congr (by constructor <;> rfl)

/-! ## What an active task gives -/

/-- The head of an active queue (R13 item 2). -/
theorem BlockInv.headTask {s : State} (h : BlockInv s) (ha : s.active = true) :
    ∃ rest, s.taskq = s.head :: rest ∧ TaskOk s.head ∧ s.head.status = .active
      ∧ ∀ u ∈ rest, u.status = .pending := by
  obtain ⟨t, rest, hq, hs, hr⟩ := h.queue.busy ha
  have ht : s.head = t := head_of_cons hq
  exact ⟨rest, by rw [ht, hq], by rw [ht]; exact h.queue.tasks t (by simp [hq]), by rw [ht, hs], hr⟩

theorem receiving_iff {s : State} :
    s.receiving = true ↔ s.active = true ∧ s.head.dir = .write
      ∧ (s.stage = .dataRecv ∨ s.stage = .dataRecvBuf) := by
  simp [State.receiving, and_assoc]

theorem awaitingAck_iff {s : State} :
    s.awaitingAck = true ↔ s.active = true ∧ s.head.dir = .read ∧ s.stage = .dataSendBuf
      ∧ s.tx.wait = true := by
  simp [State.awaitingAck, and_assoc]

theorem readActive_iff {s : State} :
    s.readActive = true ↔ s.active = true ∧ s.head.dir = .read := by
  simp [State.readActive]

theorem abortable_iff {s : State} :
    s.abortable = true ↔ s.active = true ∧ (s.stage = .dataSend ∨ s.stage = .dataSendBuf
      ∨ s.stage = .dataRecv ∨ s.stage = .dataRecvBuf) := by
  simp [State.abortable, or_assoc]

/-- An active task is not served while DETECTING (R13 item 5). -/
theorem BlockInv.connected {s : State} (h : BlockInv s) (ha : s.active = true) : s.conn = .connected := by
  cases hc : s.conn with
  | connected => rfl
  | detecting => have := (h.session.detecting hc).1; simp [ha] at this

theorem BlockInv.enabled {s : State} (h : BlockInv s) (hc : s.conn = .connected) : s.en = true := by
  cases he : s.en with
  | true => rfl
  | false => have := (h.session.disabled he).2.2.2; simp [hc] at this

/-! ## Abort -/

/-- The deframer back in HUNT (R97, R100). -/
theorem Deframer.posOk_hunt (d : Deframer) : ({ d with state := .hunt, pos := 0 } : Deframer).posOk := rfl

theorem abort_sfifo_length (c : EvtCode) (can : Bool) (s : State)
    (h : s.sfifo.length ≤ Config.sfifoDepth) : (abort c can s).sfifo.length ≤ Config.sfifoDepth := by
  unfold abort
  apply setStage_sfifo_length
  cases can <;> simpa using h

theorem abort_inv {s : State} {c : EvtCode} (can : Bool) (h : BlockInv s) (ha : s.active = true)
    (hc : c ≠ .none) : BlockInv (abort c can s) := by
  obtain ⟨rest, hq, -, -, hr⟩ := h.headTask ha
  have hcon := h.connected ha
  have htail : s.taskq.tail = rest := by rw [hq]; rfl
  refine ⟨⟨?_, ?_, ?_, ?_⟩, ⟨?_, ?_, ?_, ?_, ?_⟩, ⟨?_, ?_, ?_⟩, ⟨?_, ?_, ?_, ?_⟩, ⟨?_, ?_, ?_, ?_, ?_⟩, ?_⟩
  · rw [abort_taskq]; exact fun t ht => h.queue.tasks t (List.mem_of_mem_tail ht)
  · rw [abort_taskq, List.length_tail]; exact le_trans (Nat.sub_le _ _) h.queue.bound
  · simp
  · rw [abort_taskq, htail]; exact fun _ => hr
  · simp [Stage.sending, Stage.recving]
  · simp
  · simp
  · simp [State.abortable]
  · simp
  · simpa using h.tx.bufLen
  · simp
  · simp
  · simpa using h.rx.bufLen
  · rw [abort_df]; exact Deframer.posOk_hunt _
  · simp
  · simpa using h.rx.ring
  · simp
  · rw [abort_en, h.enabled hcon]; simp
  · simpa using h.session.connected
  · exact abort_sfifo_length _ _ _ h.session.fifo
  · simp [hc]
  · simpa using h.memory

/-! ## Transmit path -/

theorem txSend_inv {s : State} (r : BitVec 8) (h : BlockInv s) (ha : s.awaitingAck = true) :
    BlockInv (txSend { s with retries := r }) := by
  have hw := (awaitingAck_iff.mp ha).2.2.2
  refine h.congr ⟨rfl, rfl, rfl, rfl, rfl, rfl, rfl, ?_, rfl, rfl, rfl, rfl, rfl, rfl, rfl, rfl⟩
  simp only [txSend_tx]
  rw [← hw]

theorem txFail_inv {s : State} (h : BlockInv s) (ha : s.awaitingAck = true) : BlockInv (txFail s) := by
  unfold txFail
  split
  · exact txSend_inv _ h ha
  · exact abort_inv _ h (awaitingAck_iff.mp ha).1 (by decide)

/-- R92: a READ task with bytes left, in DATA_SEND_BUF, gets its frame. -/
theorem txStage_inv {s : State} (q : QueueOk s) (ha : s.active = true) (hd : s.head.dir = .read)
    (hs : s.stage = .dataSendBuf) (hu : s.head.xfer.toNat < s.head.len.toNat)
    (hb : s.tx.buf.length = Config.longLen + 5) (r : RxOk s) (c : SessionOk s)
    (m : Memory.wf s.scratch) : BlockInv (txStage s) := by
  obtain ⟨hw, hlen, hchunk, hbuf, hbytes⟩ := txStage_tx s hb
  have hh : (txStage s).head = s.head := head_congr (txStage_taskq s)
  have hk : (txKind s.head.remaining).toNat ≤ 1024 := PayloadLen.toNat_le _
  refine ⟨⟨?_, ?_, ?_, ?_⟩, ⟨?_, ?_, ?_, ?_, ?_⟩, ⟨hbuf, ?_, ?_⟩, ⟨?_, ?_, ?_, ?_⟩, ⟨?_, ?_, ?_, ?_, ?_⟩, ?_⟩
  · simpa using q.tasks
  · simpa using q.bound
  · simpa using q.busy
  · simpa using q.idle
  · simp [hs, ha, Stage.sending]
  · rw [hh]; simp [hs, hd, Stage.sending]
  · simp [hs, hw]
  · rw [hh]; exact fun _ => hu
  · simp [hs]
  · intro _
    refine ⟨txKind s.head.remaining, stagedPayload s _ s.head.txCount, ?_,
      stagedPayload_length s _ (Nat.min_le_right _ _), ?_, hlen, ?_⟩
    · rw [hh]
    · rw [txStage_crc, txStage_txSeq]; exact hbytes
    · rw [hh]; exact hchunk
  · simp [hw]
  · simpa using r.bufLen
  · simpa using r.pos
  · simpa [State.readActive, hh] using r.readHunt
  · simpa using r.ring
  · simpa using c.detecting
  · simpa using c.disabled
  · simpa using c.connected
  · simpa using c.fifo
  · simpa using c.latch
  · simpa using m

/-- The head task after `n` more of its bytes are counted. -/
theorem TaskOk.advance {t : Task} (h : TaskOk t) {x : BitVec 17}
    (hx : x.toNat ≤ t.len.toNat) (hs : t.status = .active) : TaskOk { t with xfer := x } :=
  ⟨h.lenPos, h.region, hx, by simp [hs]⟩

theorem QueueOk.advance {s t : State} (h : QueueOk s) {rest : List Task} {x : BitVec 17}
    (hq : s.taskq = s.head :: rest)
    (hs : s.head.status = .active) (hr : ∀ u ∈ rest, u.status = .pending)
    (hx : x.toNat ≤ s.head.len.toNat)
    (ht : t.taskq = { s.head with xfer := x } :: rest) (hta : t.active = true) : QueueOk t := by
  have hhead : TaskOk s.head := h.tasks _ (by rw [hq]; simp)
  refine ⟨?_, ?_, ?_, ?_⟩
  · rw [ht]
    intro u hu
    rcases List.mem_cons.mp hu with rfl | hu
    · exact hhead.advance hx hs
    · exact h.tasks u (by rw [hq]; exact List.mem_cons_of_mem _ hu)
  · have := h.bound
    rw [hq] at this
    rw [ht]; simpa using this
  · exact fun _ => ⟨_, rest, ht, hs, hr⟩
  · simp [hta]

theorem txAck_inv {s : State} (h : BlockInv s) (ha : s.awaitingAck = true) : BlockInv (txAck s) := by
  obtain ⟨hact, hdir, hst, hw⟩ := awaitingAck_iff.mp ha
  obtain ⟨rest, hq, htask, hts, hr⟩ := h.headTask hact
  obtain ⟨k, p, f⟩ := h.tx.staged hw
  have hunf := h.stage.unfinished (abortable_iff.mpr ⟨hact, by simp [hst]⟩)
  have hlt := s.head.len.isLt
  have hck : s.tx.chunk.toNat ≤ s.head.len.toNat - s.head.xfer.toNat := by
    rw [f.chunk]; exact Nat.min_le_left _ _
  have hsum : (s.head.xfer + s.tx.chunk.setWidth 17).toNat
      = s.head.xfer.toNat + s.tx.chunk.toNat := by
    simp only [BitVec.toNat_add, BitVec.toNat_setWidth]
    omega
  have hqc : (txAdvance s).taskq
      = { s.head with xfer := s.head.xfer + s.tx.chunk.setWidth 17 } :: rest :=
    updateHead_cons _ s _ _ hq
  have hhead : (txAdvance s).head = { s.head with xfer := s.head.xfer + s.tx.chunk.setWidth 17 } :=
    head_of_cons hqc
  have hqueue : QueueOk (txAdvance s) :=
    h.queue.advance hq hts hr (by rw [hsum]; omega) hqc hact
  have hread := h.rx.readHunt (readActive_iff.mpr ⟨hact, hdir⟩)
  unfold txAck txContinue
  split
  · rename_i hfin
    have hhc : (setStage .dataSendDone (txClear (txAdvance s))).head = (txAdvance s).head :=
      head_congr (by simp)
    refine ⟨⟨?_, ?_, ?_, ?_⟩, ⟨?_, ?_, ?_, ?_, ?_⟩, ⟨?_, ?_, ?_⟩, ⟨?_, ?_, ?_, ?_⟩,
      ⟨?_, ?_, ?_, ?_, ?_⟩, ?_⟩
    · simpa using hqueue.tasks
    · simpa using hqueue.bound
    · simpa using hqueue.busy
    · simpa using hqueue.idle
    · simpa [Stage.sending] using hact
    · rw [hhc, hhead]; simp [Stage.sending, hdir]
    · simp [txAdvance]
    · simp [State.abortable]
    · rw [hhc]; exact fun _ => hfin
    · simpa using h.tx.bufLen
    · simp [txAdvance]
    · simp
    · simpa using h.rx.bufLen
    · simpa using h.rx.pos
    · intro _; simpa using hread
    · simpa using h.rx.ring
    · intro hc; simp [txAdvance, h.connected hact] at hc
    · intro he; simp [txAdvance, h.enabled (h.connected hact)] at he
    · simpa using h.session.connected
    · exact setStage_sfifo_length _ _ h.session.fifo
    · simpa using h.session.latch
    · simpa using h.memory
  · rename_i hfin
    refine txStage_inv hqueue hact (by rw [hhead]; exact hdir) hst ?_ h.tx.bufLen ?_ ?_ h.memory
    · rw [hhead] at hfin ⊢
      simp only at hfin ⊢
      have : (s.head.xfer + s.tx.chunk.setWidth 17).toNat ≠ s.head.len.toNat :=
        fun e => hfin (BitVec.eq_of_toNat_eq e)
      omega
    · exact ⟨h.rx.bufLen, h.rx.pos, fun _ => hread, h.rx.ring⟩
    · refine ⟨fun hc => ?_, fun he => ?_, h.session.connected, h.session.fifo, h.session.latch⟩
      · have : s.conn = .detecting := hc
        simp [h.connected hact] at this
      · have : s.en = false := he
        simp [h.enabled (h.connected hact)] at this

/-- R91: phase P3. -/
theorem txStart_inv {s : State} (h : BlockInv s) : BlockInv (txStart s) := by
  unfold txStart
  split
  · rename_i hc
    simp only [Bool.and_eq_true, beq_iff_eq] at hc
    obtain ⟨⟨hact, hdir⟩, hst⟩ := hc
    have hh : (setStage .dataSendBuf s).head = s.head := head_congr (by simp)
    refine txStage_inv ⟨?_, ?_, ?_, ?_⟩ (by simpa using hact) (by rw [hh]; exact hdir) (by simp) ?_
      (by simpa using h.tx.bufLen) ⟨?_, ?_, ?_, ?_⟩ ⟨?_, ?_, ?_, ?_, ?_⟩ (by simpa using h.memory)
    · simpa using h.queue.tasks
    · simpa using h.queue.bound
    · simpa using h.queue.busy
    · simpa using h.queue.idle
    · rw [hh]; exact h.stage.unfinished (abortable_iff.mpr ⟨hact, .inl hst⟩)
    · simpa using h.rx.bufLen
    · simpa using h.rx.pos
    · simpa [State.readActive, hh] using h.rx.readHunt
    · simpa using h.rx.ring
    · intro hc; simp [h.connected hact] at hc
    · intro he; simp [h.enabled (h.connected hact)] at he
    · simpa using h.session.connected
    · exact setStage_sfifo_length _ _ h.session.fifo
    · simpa using h.session.latch
  · exact h

/-! ## Receive path -/

theorem retry_inv {s : State} (r : BitVec 8) (h : BlockInv s) : BlockInv { s with retries := r } :=
  h.congr (by constructor <;> rfl)

theorem rxFail_inv {s : State} (h : BlockInv s) : BlockInv (rxFail s) := by
  unfold rxFail
  split
  · rename_i hr
    split
    · exact emit_inv _ (retry_inv _ h)
    · exact abort_inv _ h (receiving_iff.mp hr).1 (by decide)
  · exact emit_inv _ h

/-- The head task after a frame is stored. -/
theorem rxStore_head {s : State} {rest : List Task} (hq : s.taskq = s.head :: rest) :
    (rxStore s).taskq = { s.head with xfer := s.head.xfer + BitVec.ofNat 17 s.rxCount } :: rest := by
  have : (storeBytes s.head.next (s.rxfb.take s.rxCount) s).taskq = s.head :: rest := by
    rw [storeBytes_eq]; exact hq
  exact updateHead_cons _ _ _ _ this

theorem rxStore_eq (s : State) : rxStore s = { s with
    scratch := (storeBytes s.head.next (s.rxfb.take s.rxCount) s).scratch
    taskq := (rxStore s).taskq
    rxSeq := s.rxSeq + 1
    retries := 0 } := by
  unfold rxStore
  rw [storeBytes_eq]
  rfl

/-- R85: the number of bytes counted does not pass the task's length. -/
theorem rxCount_sum {s : State} (ht : TaskOk s.head) :
    (s.head.xfer + BitVec.ofNat 17 s.rxCount).toNat = s.head.xfer.toNat + s.rxCount
      ∧ s.head.xfer.toNat + s.rxCount ≤ s.head.len.toNat := by
  have h1 : s.rxCount ≤ s.head.len.toNat - s.head.xfer.toNat := Nat.min_le_left _ _
  have h2 := ht.xferLe
  have h3 := s.head.len.isLt
  constructor
  · simp only [BitVec.toNat_add, BitVec.toNat_ofNat]
    omega
  · omega

theorem rxAccept_inv {s : State} (h : BlockInv s) (hr : s.receiving = true) : BlockInv (rxAccept s) := by
  obtain ⟨hact, hdir, hst⟩ := receiving_iff.mp hr
  obtain ⟨rest, hq, htask, hts, hrest⟩ := h.headTask hact
  obtain ⟨hsum, hle⟩ := rxCount_sum htask
  have hcon := h.connected hact
  have hen := h.enabled hcon
  have hwait : s.tx.wait = false := by
    rw [h.stage.wait]; rcases hst with e | e <;> simp [e]
  have hunst := h.tx.unstaged hwait
  have hmem : Memory.wf (rxStore s).scratch := by
    rw [rxStore_eq]; exact storeBytes_wf _ h.memory
  have hq1 := rxStore_head hq
  -- the state after the store, the ACK and the first stage change
  obtain ⟨s2, hs2, hdef⟩ : ∃ s2, s2 = rxBegun (emit 0x06 (rxStore s)) ∧ rxAccept s = rxReached s2 :=
    ⟨_, rfl, rfl⟩
  have hstage1 : (rxStore s).stage = s.stage := by rw [rxStore_eq]
  unfold rxBegun at hs2
  rw [emit_stage, hstage1] at hs2
  have f_stage : s2.stage = .dataRecvBuf := by
    rcases hst with e | e <;> simp [hs2, e, hstage1]
  have f_taskq : s2.taskq = (rxStore s).taskq := by rw [hs2]; split <;> simp
  have f_active : s2.active = true := by rw [hs2]; split <;> (rw [rxStore_eq]; simpa using hact)
  have f_tx : s2.tx = s.tx := by rw [hs2]; split <;> (rw [rxStore_eq]; simp)
  have f_df : s2.df = s.df := by rw [hs2]; split <;> (rw [rxStore_eq]; simp)
  have f_rxfb : s2.rxfb = s.rxfb := by rw [hs2]; split <;> (rw [rxStore_eq]; simp)
  have f_rxq : s2.rxq = s.rxq := by rw [hs2]; split <;> (rw [rxStore_eq]; simp)
  have f_en : s2.en = s.en := by rw [hs2]; split <;> (rw [rxStore_eq]; simp)
  have f_conn : s2.conn = s.conn := by rw [hs2]; split <;> (rw [rxStore_eq]; simp)
  have f_first : s2.firstConnect = s.firstConnect := by
    rw [hs2]; split <;> (rw [rxStore_eq]; simp)
  have f_evt : s2.evt = s.evt := by rw [hs2]; split <;> (rw [rxStore_eq]; simp)
  have f_scr : s2.scratch = (rxStore s).scratch := by rw [hs2]; split <;> simp
  have f_fifo : s2.sfifo.length ≤ Config.sfifoDepth := by
    rw [hs2]
    split
    · exact setStage_sfifo_length _ _ (by rw [rxStore_eq]; exact h.session.fifo)
    · rw [rxStore_eq]; exact h.session.fifo
  have hhead : s2.head = { s.head with xfer := s.head.xfer + BitVec.ofNat 17 s.rxCount } :=
    head_of_cons (f_taskq.trans hq1)
  have hqueue : QueueOk s2 :=
    h.queue.advance hq hts hrest (by rw [hsum]; exact hle) (f_taskq.trans hq1) f_active
  have common : ∀ t : State, t.taskq = s2.taskq → t.active = true → t.tx = s.tx → t.df = s.df →
      t.rxfb = s.rxfb → t.rxq = s.rxq → t.en = s.en → t.conn = s.conn →
      t.firstConnect = s.firstConnect → t.evt = s.evt → t.scratch = s2.scratch →
      t.sfifo.length ≤ Config.sfifoDepth → StageOk t → BlockInv t := by
    intro t e1 e2 e3 e4 e5 e6 e7 e8 e9 e10 e11 e12 hg
    have hht : t.head = s2.head := head_congr e1
    refine ⟨⟨?_, ?_, ?_, ?_⟩, hg, ⟨?_, ?_, ?_⟩, ⟨?_, ?_, ?_, ?_⟩, ⟨?_, ?_, ?_, ?_, ?_⟩, ?_⟩
    · rw [e1]; exact hqueue.tasks
    · rw [e1]; exact hqueue.bound
    · rw [e1]; exact fun _ => hqueue.busy f_active
    · simp [e2]
    · rw [e3]; exact h.tx.bufLen
    · rw [e3]; simp [hwait]
    · rw [e3]; exact fun _ => hunst
    · rw [e5]; exact h.rx.bufLen
    · rw [e4]; exact h.rx.pos
    · intro hra
      have := (readActive_iff.mp hra).2
      rw [hht, hhead] at this
      simp [hdir] at this
    · rw [e6]; exact h.rx.ring
    · rw [e8, hcon]; simp
    · rw [e7, hen]; simp
    · rw [e8, e9]; exact h.session.connected
    · exact e12
    · rw [e10]; exact h.session.latch
    · rw [e11, f_scr]; exact hmem
  rw [hdef]
  unfold rxReached
  split
  · rename_i hfin
    refine common _ (by simp) (by simpa using f_active) (by simpa using f_tx) (by simpa using f_df)
      (by simpa using f_rxfb) (by simpa using f_rxq) (by simpa using f_en) (by simpa using f_conn)
      (by simpa using f_first) (by simpa using f_evt) (by simp)
      (setStage_sfifo_length _ _ f_fifo) ⟨?_, ?_, ?_, ?_, ?_⟩
    · simp [f_active, Stage.sending, Stage.recving]
    · rw [head_congr (setStage_taskq _ _), hhead]; simp [Stage.sending, hdir]
    · simp [f_tx, hwait]
    · simp [State.abortable]
    · rw [head_congr (setStage_taskq _ _)]; exact fun _ => hfin
  · rename_i hfin
    refine common _ rfl f_active f_tx f_df f_rxfb f_rxq f_en f_conn f_first f_evt rfl f_fifo
      ⟨?_, ?_, ?_, ?_, ?_⟩
    · simp [f_active, f_stage, Stage.sending, Stage.recving]
    · rw [hhead]; simp [f_stage, Stage.sending, hdir]
    · simp [f_tx, hwait, f_stage]
    · intro _
      rw [hhead] at hfin ⊢
      simp only at hfin ⊢
      have : (s.head.xfer + BitVec.ofNat 17 s.rxCount).toNat ≠ s.head.len.toNat :=
        fun e => hfin (BitVec.eq_of_toNat_eq e)
      omega
    · simp [f_stage]

theorem sequenceFrame_inv {s : State} (h : BlockInv s) : BlockInv (sequenceFrame s) := by
  unfold sequenceFrame
  split
  · rename_i hc
    simp only [Bool.and_eq_true] at hc
    exact rxAccept_inv h hc.1
  · split
    · exact emit_inv _ h
    · split
      · rename_i hr
        split
        · exact abort_inv _ h (receiving_iff.mp hr).1 (by decide)
        · exact rxFail_inv h
      · exact emit_inv _ h

theorem frameEnd_inv {s : State} (b : Byte) (h : BlockInv s) : BlockInv (frameEnd b s) := by
  unfold frameEnd
  split
  · exact sequenceFrame_inv (h.congr (by constructor <;> rfl))
  · exact rxFail_inv h

/-- The invariant of a state that differs only in the deframer, its buffer and the time of the last byte. -/
theorem df_inv {s : State} {d : Deframer} {buf : List Byte} {n : Word} (h : BlockInv s)
    (hb : buf.length = Config.longLen) (hd : d.posOk) (hr : s.readActive = true → d.state = .hunt)
    (hc : s.conn = .detecting → d.state = .hunt) :
    BlockInv { s with df := d, rxfb := buf, lastByteTime := n } :=
  ⟨⟨h.queue.tasks, h.queue.bound, h.queue.busy, h.queue.idle⟩,
    ⟨h.stage.transfer, h.stage.dir, h.stage.wait, h.stage.unfinished, h.stage.finished⟩,
    ⟨h.tx.bufLen,
      fun hw => let ⟨k, p, f⟩ := h.tx.staged hw; ⟨k, p, ⟨f.kind, f.payloadLen, f.bytes, f.len, f.chunk⟩⟩,
      h.tx.unstaged⟩,
    ⟨hb, hd, hr, h.rx.ring⟩,
    ⟨fun hcon => ⟨(h.session.detecting hcon).1, hc hcon, (h.session.detecting hcon).2.2⟩,
      h.session.disabled, h.session.connected, h.session.fifo, h.session.latch⟩,
    h.memory⟩

theorem dfHunt_inv {s : State} (h : BlockInv s) :
    BlockInv { s with df := { s.df with state := .hunt, pos := 0 } } :=
  df_inv (n := s.lastByteTime) h h.rx.bufLen (Deframer.posOk_hunt _) (fun _ => rfl) (fun _ => rfl)

theorem frameStart_inv {s : State} (k : PayloadLen) (h : BlockInv s) (hr : s.readActive = false)
    (hc : s.conn = .connected) : BlockInv (frameStart k s) :=
  df_inv (buf := s.rxfb) h h.rx.bufLen rfl (by simp [hr]) (by simp [hc])

/-- R81: inside a frame, a byte advances the deframer by one position. -/
theorem deframe_inv {s : State} (b : Byte) (h : BlockInv s) (hc : s.conn = .connected)
    (hf : s.df.state ≠ .hunt) : BlockInv (deframe b s) := by
  have hr : s.readActive = false := by
    cases hra : s.readActive with
    | false => rfl
    | true => exact absurd (h.rx.readHunt hra) hf
  have hp := h.rx.pos
  have hk := s.df.plen.toNat_le
  have hpos1 : ∀ n, s.df.pos.toNat = n → n ≤ 1030 → (s.df.pos + 1).toNat = n + 1 := by
    intro n e hn
    simp only [BitVec.toNat_add, e]
    change (n + 1) % 2048 = n + 1
    omega
  unfold Deframer.posOk at hp
  unfold deframe deframeAt
  simp only [countByte_df]
  cases hst : s.df.state with
  | hunt => exact absurd hst hf
  | blk =>
    rw [hst] at hp
    refine df_inv (s := s) (buf := s.rxfb) h h.rx.bufLen ?_ (by simp [hr]) (by simp [hc])
    exact hpos1 1 hp (by omega)
  | nblk =>
    rw [hst] at hp
    refine df_inv (s := s) (buf := s.rxfb) h h.rx.bufLen ?_ (by simp [hr]) (by simp [hc])
    have := hpos1 2 hp (by omega)
    have hpl := s.df.plen.toNat_pos
    constructor <;> (simp only; omega)
  | data =>
    rw [hst] at hp
    obtain ⟨h3, hlt⟩ := hp
    refine df_inv (s := s) h (by simpa using h.rx.bufLen) ?_ (by simp [hr]) (by simp [hc])
    have := hpos1 _ rfl (show s.df.pos.toNat ≤ 1030 by omega)
    by_cases he : (s.df.pos + 1).toNat = s.df.plen.toNat + 3
    · simp only [he, if_true, Deframer.posOk]
    · simp only [he, if_false, Deframer.posOk]
      exact ⟨by omega, by omega⟩
  | crcLo =>
    rw [hst] at hp
    refine df_inv (s := s) (buf := s.rxfb) h h.rx.bufLen ?_ (by simp [hr]) (by simp [hc])
    exact hpos1 (s.df.plen.toNat + 3) hp (by omega)
  | crcHi =>
    exact frameEnd_inv b (df_inv (s := s) (buf := s.rxfb) h h.rx.bufLen (Deframer.posOk_hunt _)
      (fun _ => rfl) (fun _ => rfl))

/-! ## The bytes of P1 -/

theorem hsConnect_inv {s : State} (h : BlockInv s) (he : s.en = true) (hc : s.conn = .detecting) :
    BlockInv (hsConnect s) := by
  obtain ⟨hact, hhunt, hst⟩ := h.session.detecting hc
  refine ⟨⟨h.queue.tasks, h.queue.bound, h.queue.busy, h.queue.idle⟩,
    ⟨h.stage.transfer, h.stage.dir, h.stage.wait, h.stage.unfinished, h.stage.finished⟩,
    ⟨h.tx.bufLen,
      fun hw => let ⟨k, p, f⟩ := h.tx.staged hw; ⟨k, p, ⟨f.kind, f.payloadLen, f.bytes, f.len, f.chunk⟩⟩,
      h.tx.unstaged⟩,
    ⟨h.rx.bufLen, h.rx.pos, h.rx.readHunt, h.rx.ring⟩,
    ⟨by simp, by simp [he], by simp, ?_, h.session.latch⟩, h.memory⟩
  have hle : (hsConnect s).sfifo.length = min (s.sfifo.length + 1) Config.sfifoDepth :=
    sfifoPush_length (statusByte .connected s.stage)
      { s with conn := .connected, firstConnect := false } h.session.fifo
  rw [hle]; exact Nat.min_le_right _ _

theorem headerByte_inv {s : State} (b : Byte) (h : BlockInv s) (hc : s.conn = .connected) :
    BlockInv (headerByte b s) := by
  unfold headerByte wireSoh wireStx wireAck wireNak wireCan wireSigA wireNoise
  split
  · split
    · exact h
    · rename_i hr; exact frameStart_inv _ h (by simpa using hr) hc
  · split
    · split
      · exact h
      · rename_i hr; exact frameStart_inv _ h (by simpa using hr) hc
    · split
      · split
        · rename_i ha; exact txAck_inv h ha
        · exact h
      · split
        · split
          · rename_i ha; exact txFail_inv h ha
          · exact h
        · split
          · split
            · rename_i ha; exact abort_inv _ h (abortable_iff.mp ha).1 (by decide)
            · exact h
          · split <;> exact h

theorem rxByte_inv {s : State} (b : Byte) (h : BlockInv s) (he : s.en = true) : BlockInv (rxByte b s) := by
  unfold rxByte State.wireCtx
  cases hc : s.conn with
  | detecting =>
    simp only
    split
    · exact hsConnect_inv h he hc
    · exact h
  | connected =>
    by_cases hf : s.df.state = .hunt
    · simp only [hf, if_true]; exact headerByte_inv b h hc
    · simp only [hf, if_false]; exact deframe_inv b h hc hf

/-! ## Timers -/

theorem sigATimer_inv {s : State} (h : BlockInv s) : BlockInv (sigATimer s) := by
  unfold sigATimer
  split
  · exact emit_inv _ (h.congr (by constructor <;> rfl))
  · exact h

theorem timers_inv {s : State} (h : BlockInv s) : BlockInv (timers s) := by
  have hp : BlockInv (partialFrameTimer s) := by
    unfold partialFrameTimer
    split
    · exact rxFail_inv (dfHunt_inv h)
    · exact h
  unfold timers
  cases s.conn with
  | detecting => exact sigATimer_inv h
  | connected =>
    simp only
    unfold ackTimer
    split
    · rename_i ha; exact txFail_inv hp ha.1
    · exact hp

end Sys2Proof.Machine
end

