-- ==== Sys2Proof/Laws/Frame.lean ====
section
/-!
SUPPORT. Laws/Frame.lean: the frame of the codec, `CodecKeeps`, one lemma per procedure.
-/

namespace Sys2Proof.Machine

namespace CodecKeeps

theorem rfl' (s : State) : CodecKeeps s s :=
  ⟨rfl, rfl, rfl, rfl, rfl, rfl, rfl, rfl, rfl, rfl, id, rfl, List.prefix_refl _, id, id⟩

theorem trans {s t u : State} (h : CodecKeeps s t) (k : CodecKeeps t u) : CodecKeeps s u where
  en := k.en.trans h.en
  now := k.now.trans h.now
  settings := k.settings.trans h.settings
  operands := k.operands.trans h.operands
  baudPending := k.baudPending.trans h.baudPending
  pendingBaud := k.pendingBaud.trans h.pendingBaud
  curBaud := k.curBaud.trans h.curBaud
  rxq := k.rxq.trans h.rxq
  crc := k.crc.trans h.crc
  err := by rw [k.err, h.err]
  evtOvf := k.evtOvf ∘ h.evtOvf
  env := by rw [k.env, h.env]
  txout := h.txout.trans k.txout
  firstConnect := h.firstConnect ∘ k.firstConnect
  conn := k.conn ∘ h.conn

/-- A state that differs only in fields the frame says nothing of. -/
theorem of_same {s t : State} (h1 : t.en = s.en) (h2 : t.now = s.now) (h3 : t.settings = s.settings)
    (h4 : t.operands = s.operands) (h5 : t.baudPending = s.baudPending)
    (h6 : t.pendingBaud = s.pendingBaud) (h7 : t.curBaud = s.curBaud) (h8 : t.rxq = s.rxq)
    (h9 : t.crc = s.crc) (h10 : t.err = s.err) (h11 : t.env = s.env)
    (h12 : t.firstConnect = s.firstConnect) (h13 : t.conn = s.conn) : CodecKeeps s t :=
  ⟨h1, h2, h3, h4, h5, h6, h7, h8, h9, by rw [h10], by rw [h10]; exact id, by rw [h11],
    by rw [h11], by rw [h12]; exact id, by rw [h13]; exact id⟩

end CodecKeeps

theorem emit_keeps (b : Byte) (s : State) : CodecKeeps s (emit b s) :=
  ⟨rfl, rfl, rfl, rfl, rfl, rfl, rfl, rfl, rfl, rfl, id, rfl, List.prefix_append _ _, id, id⟩

theorem setStage_keeps (g : Stage) (s : State) : CodecKeeps s (setStage g s) :=
  CodecKeeps.of_same (by simp) (by simp) (by simp) (by simp) (by simp) (by simp) (by simp) (by simp)
    (by simp) (by simp) (by simp) (by simp) (by simp)

theorem postEvent_keeps (c : EvtCode) (d : Dir) (n : BitVec 17) (s : State) :
    CodecKeeps s (postEvent c d n s) :=
  ⟨rfl, rfl, rfl, rfl, rfl, rfl, rfl, rfl, rfl, rfl, by simp +contextual, rfl, List.prefix_refl _, id, id⟩

theorem retire_keeps (s : State) : CodecKeeps s (retire s) :=
  CodecKeeps.of_same rfl rfl rfl rfl rfl rfl rfl rfl rfl rfl rfl rfl rfl

theorem dropFrames_keeps (s : State) : CodecKeeps s (dropFrames s) :=
  CodecKeeps.of_same rfl rfl rfl rfl rfl rfl rfl rfl rfl rfl rfl rfl rfl

theorem abort_keeps (c : EvtCode) (can : Bool) (s : State) : CodecKeeps s (abort c can s) := by
  have h : CodecKeeps s (if can then emit 0x18 s else s) := by
    split
    · exact emit_keeps _ _
    · exact CodecKeeps.rfl' _
  exact ((((h.trans (postEvent_keeps _ _ _ _)).trans (retire_keeps _)).trans
    (dropFrames_keeps _)).trans (setStage_keeps _ _))

theorem retry_keeps (r : BitVec 8) (s : State) : CodecKeeps s { s with retries := r } :=
  CodecKeeps.of_same rfl rfl rfl rfl rfl rfl rfl rfl rfl rfl rfl rfl rfl

theorem txSend_keeps (s : State) : CodecKeeps s (txSend s) :=
  ⟨rfl, rfl, rfl, rfl, rfl, rfl, rfl, rfl, rfl, rfl, id, rfl, List.prefix_append _ _, id, id⟩

theorem txStage_keeps (s : State) : CodecKeeps s (txStage s) := by
  refine CodecKeeps.trans ?_ (txSend_keeps _)
  exact CodecKeeps.of_same rfl rfl rfl rfl rfl rfl rfl rfl rfl rfl rfl rfl rfl

theorem txFail_keeps (s : State) : CodecKeeps s (txFail s) := by
  unfold txFail
  split
  · exact (retry_keeps _ s).trans (txSend_keeps _)
  · exact abort_keeps _ _ _

theorem txAck_keeps (s : State) : CodecKeeps s (txAck s) := by
  have h : CodecKeeps s (txAdvance s) :=
    CodecKeeps.of_same rfl rfl rfl rfl rfl rfl rfl rfl rfl rfl rfl rfl rfl
  unfold txAck txContinue
  split
  · have h' : CodecKeeps (txAdvance s) (txClear (txAdvance s)) :=
      CodecKeeps.of_same rfl rfl rfl rfl rfl rfl rfl rfl rfl rfl rfl rfl rfl
    exact (h.trans h').trans (setStage_keeps _ _)
  · exact h.trans (txStage_keeps _)

theorem txStart_keeps (s : State) : CodecKeeps s (txStart s) := by
  unfold txStart
  split
  · exact (setStage_keeps _ _).trans (txStage_keeps _)
  · exact CodecKeeps.rfl' _

theorem rxFail_keeps (s : State) : CodecKeeps s (rxFail s) := by
  unfold rxFail
  split
  · split
    · exact (retry_keeps _ s).trans (emit_keeps _ _)
    · exact abort_keeps _ _ _
  · exact emit_keeps _ _

theorem rxAccept_keeps (s : State) : CodecKeeps s (rxAccept s) := by
  have h1 : CodecKeeps s (rxStore s) := by
    rw [rxStore_eq]
    exact CodecKeeps.of_same rfl rfl rfl rfl rfl rfl rfl rfl rfl rfl rfl rfl rfl
  have h2 : ∀ t, CodecKeeps t (rxBegun t) := by
    intro t; unfold rxBegun; split
    · exact setStage_keeps _ _
    · exact CodecKeeps.rfl' _
  have h3 : ∀ t, CodecKeeps t (rxReached t) := by
    intro t; unfold rxReached; split
    · exact setStage_keeps _ _
    · exact CodecKeeps.rfl' _
  exact ((h1.trans (emit_keeps _ _)).trans (h2 _)).trans (h3 _)

theorem sequenceFrame_keeps (s : State) : CodecKeeps s (sequenceFrame s) := by
  unfold sequenceFrame
  split
  · exact rxAccept_keeps _
  · split
    · exact emit_keeps _ _
    · split
      · split
        · exact abort_keeps _ _ _
        · exact rxFail_keeps _
      · exact emit_keeps _ _

theorem frameEnd_keeps (b : Byte) (s : State) : CodecKeeps s (frameEnd b s) := by
  unfold frameEnd
  split
  · refine CodecKeeps.trans ?_ (sequenceFrame_keeps _)
    exact CodecKeeps.of_same rfl rfl rfl rfl rfl rfl rfl rfl rfl rfl rfl rfl rfl
  · exact rxFail_keeps _

theorem frameStart_keeps (k : PayloadLen) (s : State) : CodecKeeps s (frameStart k s) :=
  CodecKeeps.of_same rfl rfl rfl rfl rfl rfl rfl rfl rfl rfl rfl rfl rfl

theorem deframe_keeps (b : Byte) (s : State) : CodecKeeps s (deframe b s) := by
  have h : CodecKeeps s (countByte s) :=
    CodecKeeps.of_same rfl rfl rfl rfl rfl rfl rfl rfl rfl rfl rfl rfl rfl
  refine h.trans ?_
  unfold deframe deframeAt
  split
  · exact CodecKeeps.rfl' _
  · exact CodecKeeps.of_same rfl rfl rfl rfl rfl rfl rfl rfl rfl rfl rfl rfl rfl
  · exact CodecKeeps.of_same rfl rfl rfl rfl rfl rfl rfl rfl rfl rfl rfl rfl rfl
  · exact CodecKeeps.of_same rfl rfl rfl rfl rfl rfl rfl rfl rfl rfl rfl rfl rfl
  · exact CodecKeeps.of_same rfl rfl rfl rfl rfl rfl rfl rfl rfl rfl rfl rfl rfl
  · refine CodecKeeps.trans ?_ (frameEnd_keeps _ _)
    exact CodecKeeps.of_same rfl rfl rfl rfl rfl rfl rfl rfl rfl rfl rfl rfl rfl

theorem hsConnect_keeps (s : State) : CodecKeeps s (hsConnect s) :=
  ⟨rfl, rfl, rfl, rfl, rfl, rfl, rfl, rfl, rfl, rfl, id, rfl, List.prefix_refl _, by simp, by simp⟩

theorem headerByte_keeps (b : Byte) (s : State) : CodecKeeps s (headerByte b s) := by
  have hStart : ∀ k, CodecKeeps s (if s.readActive then s else frameStart k s) := by
    intro k; split
    · exact CodecKeeps.rfl' _
    · exact frameStart_keeps _ _
  unfold headerByte wireSoh wireStx wireAck wireNak wireCan wireSigA wireNoise
  split
  · exact hStart _
  · split
    · exact hStart _
    · split
      · split
        · exact txAck_keeps _
        · exact CodecKeeps.rfl' _
      · split
        · split
          · exact txFail_keeps _
          · exact CodecKeeps.rfl' _
        · split
          · split
            · exact abort_keeps _ _ _
            · exact CodecKeeps.rfl' _
          · split <;> exact CodecKeeps.rfl' _

theorem rxByte_keeps (b : Byte) (s : State) : CodecKeeps s (rxByte b s) := by
  unfold rxByte
  split
  · split
    · exact hsConnect_keeps _
    · exact CodecKeeps.rfl' _
  · exact deframe_keeps _ _
  · exact headerByte_keeps _ _

theorem rxBytes_keeps (bs : List Byte) (s : State) : CodecKeeps s (rxBytes bs s) := by
  induction bs generalizing s with
  | nil => exact CodecKeeps.rfl' _
  | cons b rest ih => exact (rxByte_keeps b s).trans (ih _)

theorem timers_keeps (s : State) : CodecKeeps s (timers s) := by
  unfold timers
  split
  · unfold sigATimer
    split
    · refine CodecKeeps.trans ?_ (emit_keeps _ _)
      exact CodecKeeps.of_same rfl rfl rfl rfl rfl rfl rfl rfl rfl rfl rfl rfl rfl
    · exact CodecKeeps.rfl' _
  · have h : CodecKeeps s (partialFrameTimer s) := by
      unfold partialFrameTimer
      split
      · refine CodecKeeps.trans ?_ (rxFail_keeps _)
        exact CodecKeeps.of_same rfl rfl rfl rfl rfl rfl rfl rfl rfl rfl rfl rfl rfl
      · exact CodecKeeps.rfl' _
    refine h.trans ?_
    unfold ackTimer
    split
    · exact txFail_keeps _
    · exact CodecKeeps.rfl' _

/-- P1 empties the ring, and changes otherwise only what its bytes change. -/
theorem drain_keeps (bs : List Byte) (s : State) :
    CodecKeeps { s with rxq := (drain bs s).rxq } (drain bs s)
      ∧ (bs = s.rxq → (drain bs s).rxq = []) := by
  induction bs generalizing s with
  | nil => exact ⟨CodecKeeps.rfl' _, fun h => h.symm⟩
  | cons b rest ih =>
    have hk := rxByte_keeps b { s with rxq := rest }
    obtain ⟨h1, h2⟩ := ih (rxByte b { s with rxq := rest })
    refine ⟨?_, fun _ => h2 hk.rxq.symm⟩
    have h3 : CodecKeeps { s with rxq := (drain (b :: rest) s).rxq }
        { rxByte b { s with rxq := rest } with rxq := (drain (b :: rest) s).rxq } :=
      ⟨hk.en, hk.now, hk.settings, hk.operands, hk.baudPending, hk.pendingBaud, hk.curBaud, rfl,
        hk.crc, hk.err, hk.evtOvf, hk.env, hk.txout, hk.firstConnect, hk.conn⟩
    exact h3.trans h1

end Sys2Proof.Machine
end

