-- ==== Sys2Proof/Laws/InvariantPoll.lean ====
section
/-!
SUPPORT. Laws/InvariantPoll.lean: the phases of POLL and the other instructions keep `BlockInv`, and no DONE stage is left
after P4 (R120).
-/

namespace Sys2Proof.Machine

/-! ## P1 -/

theorem rxq_inv {s : State} {q : List Byte} (h : BlockInv s) (hq : q.length ≤ Config.rxqDepth)
    (he : s.en = false → q = []) : BlockInv { s with rxq := q } :=
  ⟨⟨h.queue.tasks, h.queue.bound, h.queue.busy, h.queue.idle⟩,
    ⟨h.stage.transfer, h.stage.dir, h.stage.wait, h.stage.unfinished, h.stage.finished⟩,
    ⟨h.tx.bufLen,
      fun hw => let ⟨k, p, f⟩ := h.tx.staged hw; ⟨k, p, ⟨f.kind, f.payloadLen, f.bytes, f.len, f.chunk⟩⟩,
      h.tx.unstaged⟩,
    ⟨h.rx.bufLen, h.rx.pos, h.rx.readHunt, hq⟩,
    ⟨h.session.detecting,
      fun e => ⟨(h.session.disabled e).1, he e, (h.session.disabled e).2.2⟩,
      h.session.connected, h.session.fifo, h.session.latch⟩,
    h.memory⟩

theorem drain_inv {bs : List Byte} {s : State} (h : BlockInv s) (he : s.en = true)
    (hb : bs.length ≤ Config.rxqDepth) : BlockInv (drain bs s) := by
  induction bs generalizing s with
  | nil => exact h
  | cons b rest ih =>
    simp only [List.length_cons] at hb
    have hr : BlockInv { s with rxq := rest } := rxq_inv h (by omega) (by simp [he])
    refine ih (rxByte_inv b hr he) ?_ (by omega)
    rw [(rxByte_keeps b _).en]; exact he

/-! ## P4 -/

/-- The invariant of an idle state at another idle stage. -/
theorem idleStage_inv {s : State} {g : Stage} (h : BlockInv s) (ha : s.active = false)
    (hg : g = .cmdRecv ∨ g = .sendAck ∨ g = .waitAck) (hc : s.conn = .connected)
    (hw : s.tx.wait = false) : BlockInv (setStage g s) := by
  have hh : (setStage g s).head = s.head := head_congr (by simp)
  have hns : g.sending = false ∧ g.recving = false := by rcases hg with e | e | e <;> simp [e, Stage.sending, Stage.recving]
  refine ⟨⟨?_, ?_, ?_, ?_⟩, ⟨?_, ?_, ?_, ?_, ?_⟩, ⟨?_, ?_, ?_⟩, ⟨?_, ?_, ?_, ?_⟩, ⟨?_, ?_, ?_, ?_, ?_⟩, ?_⟩
  · simpa using h.queue.tasks
  · simpa using h.queue.bound
  · simp [ha]
  · simpa using h.queue.idle
  · simp [ha, hns]
  · simp [ha]
  · rw [setStage_stage, setStage_tx, hw]; rcases hg with e | e | e <;> simp [e]
  · simp [State.abortable, ha]
  · rcases hg with e | e | e <;> simp [e]
  · simpa using h.tx.bufLen
  · simp [hw]
  · simpa using h.tx.unstaged
  · simpa using h.rx.bufLen
  · simpa using h.rx.pos
  · simp [State.readActive, ha]
  · simpa using h.rx.ring
  · simp [hc]
  · simp [h.enabled hc]
  · simpa using h.session.connected
  · exact setStage_sfifo_length _ _ h.session.fifo
  · simpa using h.session.latch
  · simpa using h.memory

/-- R125 changes no field of the codec. -/
theorem tryBaud_inv {s : State} (h : BlockInv s) : BlockInv (tryBaud s) := by
  unfold tryBaud applyBaud
  have hf : BlockInv (linkRequest s.pendingBaud (flushForBaud s)) :=
    ⟨⟨h.queue.tasks, h.queue.bound, h.queue.busy, h.queue.idle⟩,
      ⟨h.stage.transfer, h.stage.dir, h.stage.wait, h.stage.unfinished, h.stage.finished⟩,
      ⟨h.tx.bufLen,
        fun hw => let ⟨k, p, f⟩ := h.tx.staged hw; ⟨k, p, ⟨f.kind, f.payloadLen, f.bytes, f.len, f.chunk⟩⟩,
        h.tx.unstaged⟩,
      ⟨h.rx.bufLen, h.rx.pos, h.rx.readHunt, by simp⟩,
      ⟨h.session.detecting,
        fun e => ⟨(h.session.disabled e).1, rfl, rfl, (h.session.disabled e).2.2.2⟩,
        h.session.connected, h.session.fifo, h.session.latch⟩,
      h.memory⟩
  split
  · split
    · exact hf.congr (by constructor <;> rfl)
    · exact hf.congr (by constructor <;> rfl)
  · exact h

theorem tryBaud_core (s : State) : (tryBaud s).stage = s.stage ∧ (tryBaud s).active = s.active
    ∧ (tryBaud s).conn = s.conn ∧ (tryBaud s).tx = s.tx := by
  unfold tryBaud applyBaud
  split
  · split <;> exact ⟨rfl, rfl, rfl, rfl⟩
  · exact ⟨rfl, rfl, rfl, rfl⟩

/-- R120: an active task in a DONE stage is reported and retired. -/
theorem complete_inv {s : State} {g : Stage} {c : EvtCode} {d : Dir} (h : BlockInv s)
    (ha : s.active = true) (hw : s.tx.wait = false) (hc : c ≠ .none)
    (hg : g = .sendAck ∨ g = .waitAck) :
    BlockInv (setStage g (retire (postEvent c d s.head.xfer s))) := by
  obtain ⟨rest, hq, -, -, hr⟩ := h.headTask ha
  have hcon := h.connected ha
  have htail : s.taskq.tail = rest := by rw [hq]; rfl
  have hns : g.sending = false ∧ g.recving = false := by rcases hg with e | e <;> simp [e, Stage.sending, Stage.recving]
  refine ⟨⟨?_, ?_, ?_, ?_⟩, ⟨?_, ?_, ?_, ?_, ?_⟩, ⟨?_, ?_, ?_⟩, ⟨?_, ?_, ?_, ?_⟩, ⟨?_, ?_, ?_, ?_, ?_⟩, ?_⟩
  · simp only [setStage_taskq, retire_taskq, postEvent_taskq]
    exact fun t ht => h.queue.tasks t (List.mem_of_mem_tail ht)
  · simp only [setStage_taskq, retire_taskq, postEvent_taskq, List.length_tail]
    exact le_trans (Nat.sub_le _ _) h.queue.bound
  · simp
  · simp only [setStage_taskq, retire_taskq, postEvent_taskq, htail]; exact fun _ => hr
  · simp [hns]
  · simp
  · simp only [setStage_stage, setStage_tx, retire_tx, postEvent_tx, hw]
    rcases hg with e | e <;> simp [e]
  · simp [State.abortable]
  · rcases hg with e | e <;> simp [e]
  · simpa using h.tx.bufLen
  · simp [hw]
  · simpa using h.tx.unstaged
  · simpa using h.rx.bufLen
  · simpa using h.rx.pos
  · simp [State.readActive]
  · simpa using h.rx.ring
  · simp [hcon]
  · simp [h.enabled hcon]
  · simpa using h.session.connected
  · exact setStage_sfifo_length _ _ h.session.fifo
  · simp [hc]
  · simpa using h.memory

theorem BlockInv.noWait {s : State} (h : BlockInv s) (hs : s.stage ≠ .dataSendBuf) : s.tx.wait = false := by
  rw [h.stage.wait]; simp [hs]

theorem setStage_retire_comm (g : Stage) (c : EvtCode) (d : Dir) (n : BitVec 17) (s : State) :
    retire (postEvent c d n (setStage g s)) = setStage g (retire (postEvent c d n s)) := by
  unfold setStage
  by_cases h : g = s.stage
  · simp [h]
  · simp only [h, if_false, retire_stage, postEvent_stage]; rfl

theorem bridge_settled {s : State} (h : BlockInv s) : Settled (bridge s) := by
  unfold bridge
  cases hs : s.stage with
  | cmdRecv =>
    simp only
    split
    · exact ⟨h, by simp [hs]⟩
    · exact ⟨tryBaud_inv h, by simp [(tryBaud_core s).1, hs]⟩
  | dataSend => exact ⟨h, by simp [hs]⟩
  | dataSendBuf => exact ⟨h, by simp [hs]⟩
  | dataRecv => exact ⟨h, by simp [hs]⟩
  | dataRecvBuf => exact ⟨h, by simp [hs]⟩
  | dataSendDone =>
    have ha : s.active = true := by rw [h.stage.transfer, hs]; rfl
    exact ⟨complete_inv h ha (h.noWait (by simp [hs])) (by decide) (.inl rfl), by simp⟩
  | dataRecvDone =>
    have ha : s.active = true := by rw [h.stage.transfer, hs]; rfl
    simp only [setStage_retire_comm]
    exact ⟨complete_inv h ha (h.noWait (by simp [hs])) (by decide) (.inr rfl), by simp⟩
  | sendAck | waitAck =>
    have ha : s.active = false := by rw [h.stage.transfer, hs]; rfl
    have hc : s.conn = .connected := by
      cases hc : s.conn with
      | connected => rfl
      | detecting => have := (h.session.detecting hc).2.2; simp [hs] at this
    obtain ⟨t1, t2, t3, t4⟩ := tryBaud_core s
    exact ⟨idleStage_inv (tryBaud_inv h) (by rw [t2, ha]) (.inl rfl) (by rw [t3, hc])
      (by rw [t4]; exact h.noWait (by simp [hs])), by simp⟩

/-! ## P5 -/

theorem activatable_iff {s : State} : s.activatable = true ↔ s.conn = .connected
    ∧ s.stage = .cmdRecv ∧ s.active = false ∧ s.df.state = .hunt ∧ s.taskq ≠ [] := by
  simp [State.activatable, and_assoc]

theorem activate_settled {s : State} (h : Settled s) : Settled (activate s) := by
  unfold activate
  split
  · rename_i hact
    obtain ⟨hc, hst, hna, hdf, hne⟩ := activatable_iff.mp hact
    obtain ⟨t, rest, hq⟩ := List.exists_cons_of_ne_nil hne
    have hh := head_of_cons hq
    have hpend := h.inv.queue.idle hna
    have htask : TaskOk t := h.inv.queue.tasks t (by simp [hq])
    have hx : t.xfer = 0 := htask.fresh (hpend t (by simp [hq]))
    have hwait : s.tx.wait = false := h.inv.noWait (by simp [hst])
    generalize hg : (if s.head.dir = Dir.read then Stage.dataSend else Stage.dataRecv) = g
    have hg2 : (g = .dataSend ∧ t.dir = .read) ∨ (g = .dataRecv ∧ t.dir = .write) := by
      rw [hh] at hg
      cases hd : t.dir <;> simp [hd] at hg <;> simp [← hg]
    generalize hu : ({ updateHead (fun t => { t with status := .active }) s with
      active := true, retries := 0 } : State) = u
    have huq : u.taskq = { t with status := .active } :: rest := by
      rw [← hu]; exact updateHead_cons _ s t rest hq
    have hua : u.active = true := by rw [← hu]
    have hut : u.tx = s.tx := by rw [← hu]; rfl
    have hud : u.df = s.df := by rw [← hu]; rfl
    have hur : u.rxfb = s.rxfb := by rw [← hu]; rfl
    have hux : u.rxq = s.rxq := by rw [← hu]; rfl
    have huc : u.conn = s.conn := by rw [← hu]; rfl
    have hue : u.en = s.en := by rw [← hu]; rfl
    have huf : u.firstConnect = s.firstConnect := by rw [← hu]; rfl
    have hus : u.sfifo = s.sfifo := by rw [← hu]; rfl
    have huv : u.evt = s.evt := by rw [← hu]; rfl
    have hum : u.scratch = s.scratch := by rw [← hu]; rfl
    have hgq : (setStage g u).taskq = { t with status := .active } :: rest := by simp [huq]
    have hgh : (setStage g u).head = { t with status := .active } := head_of_cons hgq
    have hlen := htask.lenPos
    refine ⟨⟨⟨?_, ?_, ?_, ?_⟩, ⟨?_, ?_, ?_, ?_, ?_⟩, ⟨?_, ?_, ?_⟩, ⟨?_, ?_, ?_, ?_⟩,
      ⟨?_, ?_, ?_, ?_, ?_⟩, ?_⟩, ?_⟩
    · rw [hgq]
      intro v hv
      rcases List.mem_cons.mp hv with rfl | hv
      · exact ⟨htask.lenPos, htask.region, htask.xferLe, by simp⟩
      · exact h.inv.queue.tasks v (by rw [hq]; exact List.mem_cons_of_mem _ hv)
    · have := h.inv.queue.bound
      rw [hq] at this
      rw [hgq]; simpa using this
    · exact fun _ => ⟨_, rest, hgq, rfl,
        fun v hv => hpend v (by rw [hq]; exact List.mem_cons_of_mem _ hv)⟩
    · simp [hua]
    · rcases hg2 with ⟨e, -⟩ | ⟨e, -⟩ <;> simp [e, hua, Stage.sending, Stage.recving]
    · rw [hgh]; rcases hg2 with ⟨e, hd⟩ | ⟨e, hd⟩ <;> simp [e, hd, Stage.sending]
    · rcases hg2 with ⟨e, -⟩ | ⟨e, -⟩ <;> simp [e, hut, hwait]
    · rw [hgh]; intro _; simp only [hx]; simpa using Nat.lt_of_lt_of_le Nat.zero_lt_one hlen
    · rcases hg2 with ⟨e, -⟩ | ⟨e, -⟩ <;> simp [e]
    · simpa [hut] using h.inv.tx.bufLen
    · simp [hut, hwait]
    · simpa [hut] using h.inv.tx.unstaged
    · simpa [hur] using h.inv.rx.bufLen
    · simpa [hud] using h.inv.rx.pos
    · intro _; simpa [hud] using hdf
    · simpa [hux] using h.inv.rx.ring
    · simp [huc, hc]
    · simp [hue, h.inv.enabled hc]
    · simpa [huc, huf] using h.inv.session.connected
    · exact setStage_sfifo_length _ _ (by rw [hus]; exact h.inv.session.fifo)
    · simpa [huv] using h.inv.session.latch
    · simpa [hum] using h.inv.memory
    · rcases hg2 with ⟨e, -⟩ | ⟨e, -⟩ <;> simp [e]
  · exact h

/-- R119: an enabled POLL keeps the invariant and leaves no DONE stage. -/
theorem pollPhases_settled {s : State} (h : BlockInv s) (he : s.en = true) :
    Settled (activate (bridge (txStart (timers (drain s.rxq s))))) :=
  activate_settled (bridge_settled (txStart_inv (timers_inv (drain_inv h he h.rx.ring))))

/-! ## The other instructions -/

/-- INIT and DEINIT leave an idle, DETECTING state. -/
theorem dropSession_settled {s : State} (h : BlockInv s) : Settled (dropSession s) :=
  ⟨⟨⟨by simp [dropSession], by simp [dropSession], by simp [dropSession], by simp [dropSession]⟩,
    ⟨by simp [dropSession, Stage.sending, Stage.recving], by simp [dropSession], by simp [dropSession],
      by simp [dropSession, State.abortable], by simp [dropSession]⟩,
    ⟨h.tx.bufLen, by simp [dropSession], fun _ => ⟨rfl, rfl⟩⟩,
    ⟨h.rx.bufLen, Deframer.posOk_hunt _, by simp [dropSession], by simp [dropSession]⟩,
    ⟨fun _ => ⟨rfl, rfl, rfl⟩, fun _ => ⟨rfl, rfl, rfl, rfl⟩, by simp [dropSession],
      h.session.fifo, h.session.latch⟩,
    h.memory⟩, by simp [dropSession]⟩

theorem submit_settled {s : State} (d : Dir) (h : Settled s) : Settled (submit d s) := by
  unfold submit
  split
  · exact ⟨h.inv.congr (by constructor <;> rfl), h.notDone⟩
  · rename_i hc
    simp only [State.submitRefused, Bool.or_eq_true, Bool.not_eq_true', beq_iff_eq, not_or,
      Bool.not_eq_false, regionLegal, decide_eq_true_eq] at hc
    obtain ⟨⟨hen, hlen, -, hreg⟩, hq⟩ := hc
    have hb := h.inv.queue.bound
    have hhead : s.active = true → (enqueue (s.submittedTask d) s).head = s.head := by
      intro ha
      obtain ⟨rest, hq, -⟩ := h.inv.headTask ha
      exact head_of_cons (s := enqueue _ s) (rest := rest ++ [s.submittedTask d]) (by simp [hq])
    refine ⟨⟨⟨?_, ?_, ?_, ?_⟩, ⟨h.inv.stage.transfer, ?_, h.inv.stage.wait, ?_, ?_⟩,
      ⟨h.inv.tx.bufLen, ?_, h.inv.tx.unstaged⟩, ⟨h.inv.rx.bufLen, h.inv.rx.pos, ?_, h.inv.rx.ring⟩,
      ⟨h.inv.session.detecting, ?_, h.inv.session.connected, h.inv.session.fifo, h.inv.session.latch⟩,
      h.inv.memory⟩, h.notDone⟩
    · intro t ht
      rcases List.mem_append.mp ht with ht | ht
      · exact h.inv.queue.tasks t ht
      · rw [List.mem_singleton] at ht
        subst ht
        exact ⟨Nat.one_le_iff_ne_zero.mpr hlen, hreg, Nat.zero_le _, fun _ => rfl⟩
    · simp only [enqueue_taskq, List.length_append, List.length_singleton]
      simp only [Config.tqDepth] at hb hq ⊢
      omega
    · intro ha
      obtain ⟨t, rest, hq, hs, hr⟩ := h.inv.queue.busy ha
      refine ⟨t, rest ++ [s.submittedTask d], by simp [hq], hs, fun u hu => ?_⟩
      rcases List.mem_append.mp hu with hu | hu
      · exact hr u hu
      · rw [List.mem_singleton] at hu; subst hu; rfl
    · intro ha t ht
      rcases List.mem_append.mp ht with ht | ht
      · exact h.inv.queue.idle ha t ht
      · rw [List.mem_singleton] at ht; subst ht; rfl
    · intro ha; rw [hhead ha]; exact h.inv.stage.dir ha
    · intro hab; rw [hhead (abortable_iff.mp hab).1]; exact h.inv.stage.unfinished hab
    · intro hd; exact absurd hd (by simpa using h.notDone)
    · intro hw
      have ha : s.active = true := by
        have : s.stage = .dataSendBuf := by simpa [h.inv.stage.wait] using hw
        rw [h.inv.stage.transfer, this]; rfl
      obtain ⟨k, p, f⟩ := h.inv.tx.staged hw
      exact ⟨k, p, by rw [hhead ha]; exact f.kind, f.payloadLen, f.bytes, f.len,
        by rw [hhead ha]; exact f.chunk⟩
    · intro hr
      obtain ⟨ha, hd⟩ := readActive_iff.mp hr
      rw [hhead ha] at hd
      exact h.inv.rx.readHunt (readActive_iff.mpr ⟨ha, hd⟩)
    · intro he; simp [hen] at he

end Sys2Proof.Machine
end

