-- ==== Sys2Proof/Laws/PerInstr.lean ====
section
/-!
SUPPORT. Laws/PerInstr.lean: the family `RoundTrip`: a well-formed instruction is what the decoder reads from its own
image. One lemma per constructor.
-/

namespace Sys2Proof.Laws.RoundTrip

/-- The statement of the family about one instruction. -/
def Statement (i : Instr) : Prop := i.wellFormed = true → decode (encode i) = .ok i

/-! ## The tables the lemmas read -/

/-- Every register stands at its own offset (R17). -/
theorem regAt_offset (r : Reg) : regAt r.offset = some r := by cases r <;> decide

/-- Every register offset lies in the register page and is word aligned. -/
theorem offset_aligned (r : Reg) :
    r.offset.extractLsb' 16 1 = 0 ∧ r.offset.extractLsb' 0 2 = 0 := by cases r <;> decide

/-- A 32-bit access at a register's offset is an access to that register. -/
theorem decodeBus_read (r : Reg) :
    decodeBus (.read .b4 r.offset) = decodeRegAccess r (.read .b4 r.offset) := by
  simp [decodeBus, BusAccess.inRegisterPage, BusAccess.wordAligned, BusAccess.off, BusAccess.size,
    offset_aligned r, regAt_offset]

theorem decodeBus_write (r : Reg) (v : Word) :
    decodeBus (.write .b4 r.offset v) = decodeRegAccess r (.write .b4 r.offset v) := by
  simp [decodeBus, BusAccess.inRegisterPage, BusAccess.wordAligned, BusAccess.off, BusAccess.size,
    offset_aligned r, regAt_offset]

/-- The bus offset of a scratch byte (R39). -/
theorem scratchOffset_toNat (k : BitVec 16) : (scratchOffset k).toNat = 65536 + k.toNat := by
  have h : (scratchOffset k).toNat = 1 <<< 16 ||| k.toNat := BitVec.toNat_append (1 : BitVec 1) k
  rw [h, ← Nat.shiftLeft_add_eq_or_of_lt k.isLt, Nat.shiftLeft_eq, Nat.one_mul]

/-- The scratch window lies above the register page, and its offset gives the scratch byte back (R39). -/
theorem scratchOffset_page (k : BitVec 16) : (scratchOffset k).extractLsb' 16 1 = 1 := by
  apply BitVec.eq_of_toNat_eq
  have := k.isLt
  simp only [BitVec.extractLsb'_toNat, scratchOffset_toNat, Nat.shiftRight_eq_div_pow]
  simp
  omega

theorem scratchOffset_low (k : BitVec 16) : (scratchOffset k).setWidth 16 = k := by
  apply BitVec.eq_of_toNat_eq
  have := k.isLt
  rw [BitVec.toNat_setWidth, scratchOffset_toNat]
  omega

/-- An offset R17 does not list belongs to no register. -/
theorem regAt_unlisted {off : BitVec 17} (h : listedOffset off = false) : regAt off = none := by
  simpa [listedOffset, regAt, List.find?_eq_none, List.any_eq_false] using h

/-- The body of a frame with the declared number of payload bytes. -/
theorem decodeFrameBody_of (len : Nat) (mk : Byte → Byte → List Byte → Byte → Byte → Instr)
    (blk nblk : Byte) (payload : List Byte) (lo hi : Byte) (h : payload.length = len) :
    decodeFrameBody len mk (blk :: nblk :: payload ++ [lo, hi]) = .ok (mk blk nblk payload lo hi) := by
  subst h
  simp [decodeFrameBody]

/-- A word that is not valid decodes to no operation. -/
theorem decodeOp_invalid {w : Word} (h : validCommandWord w = false) : decodeOp w = none := by
  unfold decodeOp opOfCode
  simp [validCommandWord, CmdOp.all, CmdOp.code] at h
  split
  · rename_i h0
    obtain ⟨h1, h2, h3, h4, h5, h6⟩ := h h0
    simp [eq_comm (a := w.extractLsb' 24 8), h1, h2, h3, h4, h5, h6]
  · rfl

/-! ## The lemmas -/

theorem init : Statement .init := fun _ => by decide

theorem deinit : Statement .deinit := fun _ => by decide

theorem poll : Statement .poll := fun _ => by decide

theorem submitRead : Statement .submitRead := fun _ => by decide

theorem submitWrite : Statement .submitWrite := fun _ => by decide

theorem baudSet : Statement .baudSet := fun _ => by decide

theorem cmdInvalid (w : Word) : Statement (.cmdInvalid w) := fun h => by
  simp [Instr.wellFormed] at h
  simp [encode, decode, decodeCmd, decodeOp_invalid h]

theorem soh : Statement .soh := fun _ => by decide

theorem stx : Statement .stx := fun _ => by decide

theorem ack : Statement .ack := fun _ => by decide

theorem nak : Statement .nak := fun _ => by decide

theorem can : Statement .can := fun _ => by decide

theorem sigA : Statement .sigA := fun _ => by decide

theorem noise (b : Byte) : Statement (.noise b) := fun h => by
  simp [Instr.wellFormed, headerRowBytes] at h
  simp [encode, decode, decodeWire, decodeHeaderByte, h]

theorem sigC : Statement .sigC := fun _ => by decide

theorem detectOther (b : Byte) : Statement (.detectOther b) := fun h => by
  simp [Instr.wellFormed] at h
  simp [encode, decode, decodeWire, h]

theorem frameByte (b : Byte) : Statement (.frameByte b) := fun _ => rfl

theorem frameShort (blk nblk : Byte) (payload : List Byte) (lo hi : Byte) :
    Statement (.frameShort blk nblk payload lo hi) := fun h =>
  decodeFrameBody_of _ _ _ _ _ _ _ (by simpa [Instr.wellFormed] using h)

theorem frameLong (blk nblk : Byte) (payload : List Byte) (lo hi : Byte) :
    Statement (.frameLong blk nblk payload lo hi) := fun h =>
  decodeFrameBody_of _ _ _ _ _ _ _ (by simpa [Instr.wellFormed] using h)

theorem reset : Statement .reset := fun _ => by decide

theorem msTick : Statement .msTick := fun _ => by decide

theorem rxByte (b : Byte) : Statement (.rxByte b) := fun _ => rfl

theorem regRead (r : Reg) : Statement (.regRead r) := fun h => by
  simp [Instr.wellFormed] at h
  simp [encode, decode, decodeInput, decodeBus_read, decodeRegAccess, h]

theorem regWrite (r : Reg) (v : Word) : Statement (.regWrite r v) := fun h => by
  simp [Instr.wellFormed] at h
  simp [encode, decode, decodeInput, decodeBus_write, decodeRegAccess, h]

theorem cmdWrite (w : Word) : Statement (.cmdWrite w) := fun _ => by
  simp [encode, decode, decodeInput, decodeBus_write, decodeRegAccess]

theorem errW1c (v : Word) : Statement (.errW1c v) := fun _ => by
  simp [encode, decode, decodeInput, decodeBus_write, decodeRegAccess]

theorem evtClr (v : Word) : Statement (.evtClr v) := fun _ => by
  simp [encode, decode, decodeInput, decodeBus_write, decodeRegAccess]

theorem sfifoPop : Statement .sfifoPop := fun _ => by decide

theorem scrRead (size : Size) (k : BitVec 16) : Statement (.scrRead size k) := fun _ => by
  simp [encode, decode, decodeInput, decodeBus, BusAccess.inRegisterPage, BusAccess.off,
    decodeScratchAccess, scratchOffset_page, scratchOffset_low]

theorem scrWrite (size : Size) (k : BitVec 16) (v : Word) : Statement (.scrWrite size k v) := fun _ => by
  simp [encode, decode, decodeInput, decodeBus, BusAccess.inRegisterPage, BusAccess.off,
    decodeScratchAccess, scratchOffset_page, scratchOffset_low]

theorem regBadAccess (a : BusAccess) : Statement (.regBadAccess a) := fun h => by
  simp [Instr.wellFormed] at h
  simp [encode, decode, decodeInput, decodeBus, h]

theorem regUnmapped (a : BusAccess) : Statement (.regUnmapped a) := fun h => by
  simp [Instr.wellFormed] at h
  simp [encode, decode, decodeInput, decodeBus, h, regAt_unlisted h.2]

end Sys2Proof.Laws.RoundTrip
end

