-- ==== Sys2Proof/Laws/Poll.lean ====
section
/-!
SUPPORT. Laws/Poll.lean: what a whole POLL may change, `PollKeeps`, one lemma per phase that is not the codec's, and what
P4 does to the rate and the ring.
-/

namespace Sys2Proof.Machine

/-- What a POLL never changes, and the directions in which it may change the rest (R128, column POLL). -/
structure PollKeeps (s t : State) : Prop where
  en : t.en = s.en
  now : t.now = s.now
  settings : t.settings = s.settings
  operands : t.operands = s.operands
  pendingBaud : t.pendingBaud = s.pendingBaud
  crc : t.crc = s.crc
  err : t.err = { s.err with evtOvf := t.err.evtOvf, baud := t.err.baud }
  evtOvf : s.err.evtOvf = true → t.err.evtOvf = true
  baud : s.err.baud = true → t.err.baud = true
  txout : s.env.txout <+: t.env.txout
  env : t.env.inputs = s.env.inputs ∧ t.env.rdata = s.env.rdata ∧ t.env.resets = s.env.resets
  firstConnect : t.firstConnect = true → s.firstConnect = true
  conn : s.conn = .connected → t.conn = .connected

namespace PollKeeps

theorem of_codec {s t : State} (h : CodecKeeps s t) : PollKeeps s t :=
  ⟨h.en, h.now, h.settings, h.operands, h.pendingBaud, h.crc, by rw [h.err], h.evtOvf, by rw [h.err]; exact id,
    h.txout, by rw [h.env]; exact ⟨rfl, rfl, rfl⟩, h.firstConnect, h.conn⟩

theorem rfl' (s : State) : PollKeeps s s := of_codec (CodecKeeps.rfl' s)

theorem trans {s t u : State} (h : PollKeeps s t) (k : PollKeeps t u) : PollKeeps s u where
  en := k.en.trans h.en
  now := k.now.trans h.now
  settings := k.settings.trans h.settings
  operands := k.operands.trans h.operands
  pendingBaud := k.pendingBaud.trans h.pendingBaud
  crc := k.crc.trans h.crc
  err := by rw [k.err, h.err]
  evtOvf := k.evtOvf ∘ h.evtOvf
  baud := k.baud ∘ h.baud
  txout := h.txout.trans k.txout
  env := ⟨k.env.1.trans h.env.1, k.env.2.1.trans h.env.2.1, k.env.2.2.trans h.env.2.2⟩
  firstConnect := h.firstConnect ∘ k.firstConnect
  conn := k.conn ∘ h.conn

end PollKeeps

theorem tryBaud_keeps (s : State) : PollKeeps s (tryBaud s) := by
  unfold tryBaud applyBaud
  split
  · split
    · exact ⟨rfl, rfl, rfl, rfl, rfl, rfl, rfl, id, id, List.prefix_refl _, ⟨rfl, rfl, rfl⟩, id, id⟩
    · exact ⟨rfl, rfl, rfl, rfl, rfl, rfl, rfl, id, fun _ => rfl, List.prefix_refl _, ⟨rfl, rfl, rfl⟩, id, id⟩
  · exact PollKeeps.rfl' _

theorem bridge_keeps (s : State) : PollKeeps s (bridge s) := by
  unfold bridge
  split
  · exact .of_codec ((postEvent_keeps _ _ _ s).trans ((retire_keeps _).trans (setStage_keeps _ _)))
  · exact .of_codec ((setStage_keeps _ _).trans ((postEvent_keeps _ _ _ _).trans (retire_keeps _)))
  · exact (tryBaud_keeps _).trans (.of_codec (setStage_keeps _ _))
  · exact (tryBaud_keeps _).trans (.of_codec (setStage_keeps _ _))
  · split
    · exact PollKeeps.rfl' _
    · exact tryBaud_keeps _
  all_goals exact PollKeeps.rfl' _

theorem activate_keeps (s : State) : CodecKeeps s (activate s) := by
  unfold activate
  split
  · refine CodecKeeps.trans ?_ (setStage_keeps _ _)
    exact CodecKeeps.of_same rfl rfl rfl rfl rfl rfl rfl rfl rfl rfl rfl rfl rfl
  · exact CodecKeeps.rfl' _

/-- The three phases of the codec, the ring aside. -/
theorem codecPhases_keep (s : State) :
    PollKeeps s (txStart (timers (drain s.rxq s))) := by
  have h := PollKeeps.of_codec
    ((drain_keeps s.rxq s).1.trans ((timers_keeps _).trans (txStart_keeps _)))
  exact ⟨h.en, h.now, h.settings, h.operands, h.pendingBaud, h.crc, h.err, h.evtOvf, h.baud, h.txout, h.env,
    h.firstConnect, h.conn⟩

/-- P1 leaves the connection alone unless the ring holds a SIG_C (R69, R70). -/
theorem drain_conn (bs : List Byte) (s : State) (h : (0x43 : Byte) ∉ bs) (hc : s.conn = .detecting) :
    (drain bs s).conn = .detecting ∧ (drain bs s).firstConnect = s.firstConnect := by
  induction bs generalizing s with
  | nil => exact ⟨hc, rfl⟩
  | cons b rest ih =>
    have hb : ¬ b = 0x43 := fun e => h (by simp [e])
    have hr : rxByte b { s with rxq := rest } = { s with rxq := rest } := by
      simp only [rxByte, State.wireCtx, hc]
      rw [if_neg hb]
      rfl
    rw [drain, hr]
    exact ih _ (fun e => h (List.mem_cons_of_mem _ e)) hc

end Sys2Proof.Machine
end

