-- ==== Sys2Proof/Laws/Reception.lean ====
section
/-!
SUPPORT. Laws/Reception.lean: what a run of received bytes does: bytes drained one after another compose, and the payload
of a frame fills the receive buffer in order.
-/

namespace Sys2Proof.Machine

theorem rxBytes_append (a b : List Byte) (s : State) :
    rxBytes (a ++ b) s = rxBytes b (rxBytes a s) := by
  induction a generalizing s with
  | nil => rfl
  | cons x rest ih => exact ih _

/-- R81: one payload byte, the `k`-th of the frame. -/
theorem rxByte_data {s : State} {k : Nat} (b : Byte) (hc : s.conn = .connected)
    (hd : s.df.state = .data) (hp : s.df.pos.toNat = k + 3) (hk : k < s.df.plen.toNat) :
    rxByte b s = { s with
      rxfb := s.rxfb.set k b, lastByteTime := s.now,
      df := { s.df with
        pos := BitVec.ofNat 11 (k + 4),
        state := if k + 1 = s.df.plen.toNat then .crcLo else .data } } := by
  have hpl := PayloadLen.toNat_le s.df.plen
  have hctx : s.wireCtx = .inFrame := by simp [State.wireCtx, hc, hd]
  have hpos : s.df.pos + 1 = BitVec.ofNat 11 (k + 4) := by
    apply BitVec.eq_of_toNat_eq; simp [BitVec.toNat_add, hp]
  have hnat : (BitVec.ofNat 11 (k + 4)).toNat = k + 4 := by simp; omega
  have hend : (k + 4 = s.df.plen.toNat + 3) ↔ (k + 1 = s.df.plen.toNat) := by omega
  simp only [rxByte, hctx, wireFrameByte, deframe, deframeAt, countByte, hd, hpos, hnat, hend]
  rfl

/-- Byte `k` set, then the next `n` overwritten, is the whole run of `n + 1` overwritten. -/
theorem overwrite_cons (buf rest : List Byte) (b : Byte) {k : Nat} (h : k < buf.length) :
    (buf.set k b).take (k + 1) ++ rest ++ (buf.set k b).drop (k + 1 + rest.length)
      = buf.take k ++ b :: rest ++ buf.drop (k + (rest.length + 1)) := by
  have h1 : (buf.set k b).take (k + 1) = buf.take k ++ [b] := by
    rw [List.set_eq_take_append_cons_drop, if_pos h]
    have hl : (buf.take k).length = k := by simp; omega
    rw [List.take_append, hl, List.take_of_length_le (by omega)]
    simp
  have h2 : (buf.set k b).drop (k + 1 + rest.length) = buf.drop (k + (rest.length + 1)) := by
    rw [List.drop_set_of_lt (by omega)]
    congr 1; omega
  rw [h1, h2]
  simp

/-- R81: the rest of a payload, from its `k`-th byte, fills the receive buffer and leaves the deframer at the CRC. -/
theorem rxBytes_data (payload : List Byte) (s : State) (k : Nat) (hc : s.conn = .connected)
    (hd : s.df.state = .data) (hl : s.rxfb.length = Config.longLen)
    (hk : k + payload.length = s.df.plen.toNat) (hne : payload ≠ []) (hp : s.df.pos.toNat = k + 3) :
    rxBytes payload s = { s with
      rxfb := s.rxfb.take k ++ payload ++ s.rxfb.drop (k + payload.length), lastByteTime := s.now,
      df := { s.df with state := .crcLo, pos := BitVec.ofNat 11 (s.df.plen.toNat + 3) } } := by
  induction payload generalizing s k with
  | nil => exact absurd rfl hne
  | cons b rest ih =>
    have hpl := PayloadLen.toNat_le s.df.plen
    simp only [List.length_cons] at hk
    simp only [Config.longLen] at hl
    have hset := overwrite_cons s.rxfb rest b (k := k) (by omega)
    have h1 := rxByte_data b hc hd hp (by omega)
    by_cases hr : rest = []
    · subst hr
      simp only [List.length_nil] at hk
      simp only [rxBytes, h1, if_pos (show k + 1 = s.df.plen.toNat by omega), List.length_singleton]
      congr 1
      · congr 2; omega
      · simpa [List.take_of_length_le, hl] using hset
    · have hlen : 0 < rest.length := List.length_pos_of_ne_nil hr
      simp only [rxBytes, h1, if_neg (show ¬ k + 1 = s.df.plen.toNat by omega)]
      refine (ih { s with
        rxfb := s.rxfb.set k b, lastByteTime := s.now,
        df := { s.df with pos := BitVec.ofNat 11 (k + 4), state := .data } }
        (k + 1) hc rfl (by simpa using hl) (by simp only; omega) hr ?_).trans ?_
      · simp; omega
      · congr 1

end Sys2Proof.Machine
end

