-- ==== Sys2Proof/Laws/Step.lean ====
section
/-!
SUPPORT. Laws/Step.lean: what one agent step can do: the cases of a step (`inputStep_cases`), and what the steps that
run no command leave unchanged (`QuietKeeps`).
-/

namespace Sys2Proof.Machine

/-- No error flag of the first is lost in the second. -/
structure ErrFlags.SetOnly (d e : ErrFlags) : Prop where
  submit : d.submit = true → e.submit = true
  rxOvf : d.rxOvf = true → e.rxOvf = true
  baud : d.baud = true → e.baud = true
  evtOvf : d.evtOvf = true → e.evtOvf = true
  cmd : d.cmd = true → e.cmd = true
  access : d.access = true → e.access = true

theorem ErrFlags.SetOnly.rfl' (e : ErrFlags) : e.SetOnly e := ⟨id, id, id, id, id, id⟩

/-- What a step that is no reset, runs no command and writes no ERR leaves alone: the whole session, the queue, the codec
and the transmitted stream. -/
structure QuietKeeps (s t : State) : Prop where
  en : t.en = s.en
  conn : t.conn = s.conn
  firstConnect : t.firstConnect = s.firstConnect
  stage : t.stage = s.stage
  df : t.df = s.df
  tx : t.tx = s.tx
  taskq : t.taskq = s.taskq
  active : t.active = s.active
  baud : t.baudPending = s.baudPending ∧ t.pendingBaud = s.pendingBaud ∧ t.curBaud = s.curBaud
  crc : t.crc = s.crc
  txout : t.env.txout = s.env.txout
  err : s.err.SetOnly t.err

theorem QuietKeeps.rfl' (s : State) : QuietKeeps s s :=
  ⟨rfl, rfl, rfl, rfl, rfl, rfl, rfl, rfl, ⟨rfl, rfl, rfl⟩, rfl, rfl, ErrFlags.SetOnly.rfl' _⟩

/-- The steps that only touch registers, the scratch RAM, the status FIFO, the latch, the tick and the ring. -/
theorem writeReg_keeps (r : Reg) (v : Word) (s : State) : QuietKeeps s (writeReg r v s) := by
  cases r <;> exact ⟨rfl, rfl, rfl, rfl, rfl, rfl, rfl, rfl, ⟨rfl, rfl, rfl⟩, rfl, rfl, ErrFlags.SetOnly.rfl' _⟩

theorem setData_keeps (v : Word) (s : State) : QuietKeeps s (setData v s) :=
  ⟨rfl, rfl, rfl, rfl, rfl, rfl, rfl, rfl, ⟨rfl, rfl, rfl⟩, rfl, rfl, ErrFlags.SetOnly.rfl' _⟩

theorem raiseAccessError_keeps (s : State) : QuietKeeps s (raiseAccessError s) :=
  ⟨rfl, rfl, rfl, rfl, rfl, rfl, rfl, rfl, ⟨rfl, rfl, rfl⟩, rfl, rfl, ⟨id, id, id, id, id, fun _ => rfl⟩⟩

theorem refuseAccess_keeps (a : BusAccess) (s : State) : QuietKeeps s (refuseAccess a s) := by
  cases a <;> exact
    ⟨rfl, rfl, rfl, rfl, rfl, rfl, rfl, rfl, ⟨rfl, rfl, rfl⟩, rfl, rfl, ⟨id, id, id, id, id, fun _ => rfl⟩⟩

theorem memWrite_keeps (k : BitVec 16) (size : Size) (v : Word) (s : State) :
    QuietKeeps s (memWrite k size v s) := by
  rw [memWrite, storeBytes_eq]
  exact ⟨rfl, rfl, rfl, rfl, rfl, rfl, rfl, rfl, ⟨rfl, rfl, rfl⟩, rfl, rfl, ErrFlags.SetOnly.rfl' _⟩

theorem rxByteEvent_keeps (b : Byte) {s t : State} (h : execRxByte b s = .next t) : QuietKeeps s t := by
  simp only [execRxByte, Host.Outcome.next.injEq] at h
  subst h
  split
  · split
    · exact ⟨rfl, rfl, rfl, rfl, rfl, rfl, rfl, rfl, ⟨rfl, rfl, rfl⟩, rfl, rfl, ⟨id, fun _ => rfl, id, id, id, id⟩⟩
    · exact ⟨rfl, rfl, rfl, rfl, rfl, rfl, rfl, rfl, ⟨rfl, rfl, rfl⟩, rfl, rfl, ErrFlags.SetOnly.rfl' _⟩
  · exact QuietKeeps.rfl' _

/-- What an agent step can do: a RESET, a command, a write of ERR, or a quiet step. -/
theorem inputStep_cases {i : Input} {s t : State} (h : exec (decodeInput i) s = .next t) :
    i = .reset
    ∨ (∃ w, decodeInput i = .cmdWrite w)
    ∨ (∃ v, decodeInput i = .errW1c v ∧ t = { s with err := s.err.clearOnes v })
    ∨ QuietKeeps s t := by
  cases i with
  | reset => exact .inl rfl
  | msTick =>
    refine .inr (.inr (.inr ?_))
    cases h
    exact ⟨rfl, rfl, rfl, rfl, rfl, rfl, rfl, rfl, ⟨rfl, rfl, rfl⟩, rfl, rfl, ErrFlags.SetOnly.rfl' _⟩
  | rxByte b => exact .inr (.inr (.inr (rxByteEvent_keeps b h)))
  | bus a =>
    simp only [decodeInput, decodeBus] at h ⊢
    split at h
    · split at h
      · split at h
        · rename_i r _
          cases a with
          | read size off =>
            refine .inr (.inr (.inr ?_))
            simp only [decodeRegAccess] at h
            split at h
            · cases h
              exact ⟨rfl, rfl, rfl, rfl, rfl, rfl, rfl, rfl, ⟨rfl, rfl, rfl⟩, rfl, rfl, ErrFlags.SetOnly.rfl' _⟩
            · cases h
              exact setData_keeps _ _
          | write size off v =>
            simp only [decodeRegAccess] at h ⊢
            split at h
            · exact .inr (.inl ⟨v, by simp_all⟩)
            · split at h
              · exact .inr (.inr (.inl ⟨v, by simp_all, by cases h; rfl⟩))
              · split at h
                · refine .inr (.inr (.inr ?_))
                  simp only [exec, execEvtClr, Host.Outcome.next.injEq] at h
                  subst h
                  split
                  · exact ⟨rfl, rfl, rfl, rfl, rfl, rfl, rfl, rfl, ⟨rfl, rfl, rfl⟩, rfl, rfl,
                      ErrFlags.SetOnly.rfl' _⟩
                  · exact QuietKeeps.rfl' _
                · refine .inr (.inr (.inr ?_))
                  cases h
                  exact writeReg_keeps _ _ _
        · refine .inr (.inr (.inr ?_))
          cases h
          exact refuseAccess_keeps _ _
      · refine .inr (.inr (.inr ?_))
        cases h
        exact refuseAccess_keeps _ _
    · refine .inr (.inr (.inr ?_))
      cases a with
      | read size off =>
        simp only [decodeScratchAccess, exec, execScrRead, Host.Outcome.next.injEq] at h
        subst h
        split
        · exact setData_keeps _ _
        · exact ⟨rfl, rfl, rfl, rfl, rfl, rfl, rfl, rfl, ⟨rfl, rfl, rfl⟩, rfl, rfl, ⟨id, id, id, id, id, fun _ => rfl⟩⟩
      | write size off v =>
        simp only [decodeScratchAccess, exec, execScrWrite, Host.Outcome.next.injEq] at h
        subst h
        split
        · exact memWrite_keeps _ _ _ _
        · exact raiseAccessError_keeps _

end Sys2Proof.Machine
end

