-- ==== Sys2Proof/Tests/Slice0.lean ====
section
/-!
SUPPORT. Tests/Slice0.lean: our own checks. An expected value is the spec's: its tables, its register values, or a vector
of 95_test_vectors.md (named in the comment). Last come the witnesses: for each statement with hypotheses, states
that meet them.
-/

open Sys2Proof Sys2Proof.Machine

namespace Sys2Proof.Tests

set_option Elab.async false
set_option maxRecDepth 20000

/-! ## Helpers -/

/-- What a next state shows. -/
def view {α : Type} (f : State → α) : Host.Outcome State Fault Refusal → Option α
  | .next t => some (f t)
  | .fault _ | .refused _ => none

/-- Enabled, nothing else done (RESET, INIT). -/
def detecting : State := { State.reset with en := true }

/-- The prologue CONNECT of 95_test_vectors.md, but for the SIG_A it sent. -/
def connected : State :=
  { detecting with conn := .connected, firstConnect := false, hsStarted := true, sfifo := [0x80] }

/-- An active READ of 10 bytes at 0, its frame not yet staged, scratch bytes 00..09. -/
def readStart : State :=
  { connected with
    active := true, stage := .dataSend,
    taskq := [{ dir := .read, off := 0, len := 10, xfer := 0, status := .active }],
    scratch := [(0, 0), (1, 1), (2, 2), (3, 3), (4, 4), (5, 5), (6, 6), (7, 7), (8, 8), (9, 9)] }

/-- The payload of that READ: 00..09 and 166 pad bytes. -/
def readPayload : List Byte := [0, 1, 2, 3, 4, 5, 6, 7, 8, 9] ++ List.replicate 166 0x1A

/-- Its frame (program P5: CRC 0xDE68, sent `68 DE`). -/
def readFrame : List Byte := [0x01, 0x01, 0xFE] ++ readPayload ++ [0x68, 0xDE]

/-- The READ with its frame sent and awaiting ACK. -/
def readWait : State :=
  { readStart with
    stage := .dataSendBuf,
    tx := { buf := readFrame ++ List.replicate 848 0, len := 181, chunk := 10, wait := true } }

/-- An active WRITE of 352 bytes at 0x100 (program P3), with a READ queued behind it. -/
def writeStart : State :=
  { connected with
    active := true, stage := .dataRecv,
    taskq := [{ dir := .write, off := 0x100, len := 352, xfer := 0, status := .active },
      { dir := .read, off := 0x300, len := 1, xfer := 0, status := .pending }] }

/-- The WRITE at the last byte of a good frame with block 1 and 176 bytes 0x55 (CRC 0xEBC5). -/
def writeLastByte : State :=
  { writeStart with
    df := { state := .hunt, plen := .short, pos := 0, blk := 0x01, nblk := 0xFE, crcLo := 0xC5 },
    rxfb := List.replicate 176 0x55 ++ List.replicate 848 0 }

/-! ## WellFormed refuses what is no instruction -/

theorem test_wf_cmdInvalid : (Instr.cmdInvalid 0x03000000).wellFormed = false := by decide +kernel
theorem test_wf_noise : (Instr.noise 0x06).wellFormed = false := by decide +kernel
theorem test_wf_detectOther : (Instr.detectOther 0x43).wellFormed = false := by decide +kernel
theorem test_wf_frameShort :
    (Instr.frameShort 1 0xFE (List.replicate 175 0) 0 0).wellFormed = false := by decide +kernel
theorem test_wf_frameLong :
    (Instr.frameLong 1 0xFE (List.replicate 176 0) 0 0).wellFormed = false := by decide +kernel
theorem test_wf_regRead : (Instr.regRead .sfifo).wellFormed = false := by decide +kernel
theorem test_wf_regWrite_cmd : (Instr.regWrite .cmd 0).wellFormed = false := by decide +kernel
theorem test_wf_regWrite_err : (Instr.regWrite .err 0).wellFormed = false := by decide +kernel
theorem test_wf_regWrite_evtClr : (Instr.regWrite .evtClr 0).wellFormed = false := by decide +kernel
theorem test_wf_badAccess_aligned : (Instr.regBadAccess (.read .b4 0x20)).wellFormed = false := by decide +kernel
theorem test_wf_badAccess_scratch : (Instr.regBadAccess (.read .b2 0x10000)).wellFormed = false := by decide +kernel
theorem test_wf_unmapped_listed : (Instr.regUnmapped (.read .b4 0x50)).wellFormed = false := by decide +kernel
theorem test_wf_unmapped_misaligned : (Instr.regUnmapped (.read .b4 0x55)).wellFormed = false := by decide +kernel
theorem test_wf_unmapped_scratch : (Instr.regUnmapped (.read .b4 0x10000)).wellFormed = false := by decide +kernel

/-! ## Words written out from the spec's tables decode to their rows -/

theorem test_decode_init : decode (.cmd32 0x01000000) = .ok .init := by decide +kernel
theorem test_decode_deinit : decode (.cmd32 0x02000000) = .ok .deinit := by decide +kernel
theorem test_decode_poll : decode (.cmd32 0x03000000) = .ok .poll := by decide +kernel
theorem test_decode_submitRead : decode (.cmd32 0x10000000) = .ok .submitRead := by decide +kernel
theorem test_decode_submitWrite : decode (.cmd32 0x11000000) = .ok .submitWrite := by decide +kernel
theorem test_decode_baudSet : decode (.cmd32 0x20000000) = .ok .baudSet := by decide +kernel
theorem test_decode_cmdInvalid :
    decode (.cmd32 0x03000001) = .ok (.cmdInvalid 0x03000001)
      ∧ decode (.cmd32 0x04000000) = .ok (.cmdInvalid 0x04000000) := by decide +kernel
theorem test_decode_header :
    decode (.wire8 .header 0x01) = .ok .soh ∧ decode (.wire8 .header 0x02) = .ok .stx
      ∧ decode (.wire8 .header 0x06) = .ok .ack ∧ decode (.wire8 .header 0x15) = .ok .nak
      ∧ decode (.wire8 .header 0x18) = .ok .can ∧ decode (.wire8 .header 0x41) = .ok .sigA
      ∧ decode (.wire8 .header 0x43) = .ok (.noise 0x43)
      ∧ decode (.wire8 .header 0x04) = .ok (.noise 0x04) := by decide +kernel
theorem test_decode_detecting :
    decode (.wire8 .detecting 0x43) = .ok .sigC
      ∧ decode (.wire8 .detecting 0x18) = .ok (.detectOther 0x18) := by decide +kernel
theorem test_decode_inFrame : decode (.wire8 .inFrame 0x18) = .ok (.frameByte 0x18) := by decide +kernel
/-- Program P5's frame: header, block 1, its complement, 176 bytes, CRC low then high. -/
theorem test_decode_frameShort :
    decode (.frame readFrame) = .ok (.frameShort 0x01 0xFE readPayload 0x68 0xDE) := by decide +kernel
theorem test_decode_frameLong :
    decode (.frame ([0x02, 0x07, 0xF8] ++ List.replicate 1024 0x55 ++ [0x11, 0x22]))
      = .ok (.frameLong 0x07 0xF8 (List.replicate 1024 0x55) 0x11 0x22) := by decide +kernel
theorem test_decode_notAFrame :
    decode (.frame []) = .error .emptyFrame ∧ decode (.frame [0x04]) = .error (.notAHeader 0x04)
      ∧ decode (.frame [0x01, 0x01, 0xFE]) = .error (.wrongLength 3) := by decide +kernel
theorem test_decode_pins :
    decode (.input .reset) = .ok .reset ∧ decode (.input .msTick) = .ok .msTick
      ∧ decode (.input (.rxByte 0x43)) = .ok (.rxByte 0x43) := by decide +kernel
theorem test_decode_registers :
    decode (.input (.bus (.read .b4 0x020))) = .ok (.regRead .status)
      ∧ decode (.input (.bus (.write .b4 0x014 7))) = .ok (.regWrite .taskOff 7)
      ∧ decode (.input (.bus (.write .b4 0x010 5))) = .ok (.cmdWrite 5)
      ∧ decode (.input (.bus (.write .b4 0x024 5))) = .ok (.errW1c 5)
      ∧ decode (.input (.bus (.write .b4 0x048 1))) = .ok (.evtClr 1)
      ∧ decode (.input (.bus (.read .b4 0x04C))) = .ok .sfifoPop := by decide +kernel
theorem test_decode_scratch :
    decode (.input (.bus (.read .b1 0x10001))) = .ok (.scrRead .b1 0x0001)
      ∧ decode (.input (.bus (.write .b4 0x1FFFC 9))) = .ok (.scrWrite .b4 0xFFFC 9) := by decide +kernel
theorem test_decode_refusedAccess :
    decode (.input (.bus (.read .b2 0x020))) = .ok (.regBadAccess (.read .b2 0x020))
      ∧ decode (.input (.bus (.write .b4 0x011 0))) = .ok (.regBadAccess (.write .b4 0x011 0))
      ∧ decode (.input (.bus (.read .b4 0x054))) = .ok (.regUnmapped (.read .b4 0x054)) := by decide +kernel

/-! ## The table's own numbering -/

theorem test_tableWord :
    decodeTableWord 32 0x01000000 = some .init ∧ decodeTableWord 8 0x43 = some .sigC
      ∧ decodeTableWord 24 0x00010 = some (.cmdWrite 0) ∧ decodeTableWord 24 0x10000 = some (.scrRead .b4 0) := by
  decide +kernel
theorem test_tableWord_frame : (decodeTableWord 1448 1).isSome = true := by decide +kernel
theorem test_withFetchWord_init :
    view (·.en) (step (State.reset.withFetchWord 32 0x01000000)) = some true := by decide +kernel
theorem test_withFetchWord_soh :
    view (·.df.state) (step (State.reset.withFetchWord 8 0x01)) = some .blk := by decide +kernel
theorem test_withFetchWord_sigC :
    view (fun t => (t.conn, t.sfifo)) (step (State.reset.withFetchWord 8 0x43))
      = some (.connected, [0x80]) := by decide +kernel

/-! ## Commands -/

/-- V-CMD1. -/
theorem test_init : view (fun t => (regValue t .status, regValue t .seq)) (exec .init State.reset)
    = some (0x00000005, 0x00000101) := by decide +kernel
/-- R71: an abbreviated handshake keeps the cadence. -/
theorem test_init_abbreviated :
    view (·.hsStarted) (exec .init { connected with settings := { connected.settings with abbrevHs := true } })
      = some true := by decide +kernel
/-- V-CMD13. -/
theorem test_deinit : view (fun t => (regValue t .status, t.sfifo)) (exec .deinit readStart)
    = some (0, [0x80]) := by decide +kernel
/-- V-CMD2: the first POLL after INIT emits 0x41. -/
theorem test_poll_sigA : view (fun t => (t.env.txout, t.hsStarted)) (exec .poll detecting)
    = some ([0x41], true) := by decide +kernel
/-- V-HDR6: a CAN in DATA_SEND aborts with count 0. -/
theorem test_poll_can :
    view (fun t => (regValue t .evt, t.stage, t.env.txout)) (exec .poll { readStart with rxq := [0x18] })
      = some (0x00000003, .cmdRecv, []) := by decide +kernel
/-- V-CMD10, V-CMD11. -/
theorem test_submitRead :
    view (fun t => (regValue t .err, t.taskq.length))
        (exec .submitRead { connected with operands := { taskOff := 0xFFFF, taskLen := 2, baudReq := 0 } })
      = some (0x01, 0)
    ∧ view (fun t => (regValue t .err, t.taskq.length))
        (exec .submitRead { connected with operands := { taskOff := 0xFFFF, taskLen := 1, baudReq := 0 } })
      = some (0, 1) := by decide +kernel
theorem test_submitWrite :
    view (fun t => t.taskq.map (·.dir))
        (exec .submitWrite { connected with operands := { taskOff := 0, taskLen := 0x10000, baudReq := 0 } })
      = some [.write] := by decide +kernel
/-- V-CMD5. -/
theorem test_baudSet : view (regValue · .err) (exec .baudSet State.reset) = some 0x10 := by decide +kernel
/-- V-CMD17: a refused reconfiguration. -/
theorem test_baud_refused :
    view (fun t => (regValue t .err, t.baudPending, t.env.linkRequests))
        (exec .poll { connected with
          baudPending := true, pendingBaud := 9600, env := { connected.env with linkAnswers := [false] } })
      = some (0x04, false, [9600]) := by decide +kernel
theorem test_cmdInvalid : view (regValue · .err) (exec (.cmdInvalid 0x04000000) connected) = some 0x10 := by
  decide +kernel

/-! ## Drained bytes -/

/-- V-HDR1, V-HDR2. -/
theorem test_soh : view (regValue · .frame) (exec .soh connected) = some 0x000100B0 := by decide +kernel
theorem test_stx : view (regValue · .frame) (exec .stx connected) = some 0x00010400 := by decide +kernel
/-- V-HDR5, first ACK: the task is done (the event follows in P4). -/
theorem test_ack : view (fun t => (t.stage, t.head.xfer, t.txSeq, t.tx.wait)) (exec .ack readWait)
    = some (.dataSendDone, 10, 2, false) := by decide +kernel
/-- Program P5: the same 181 bytes again, RETRIES 1. -/
theorem test_nak : view (fun t => (t.env.txout, regValue t .seq)) (exec .nak readWait)
    = some (readFrame, 0x00010101) := by decide +kernel
/-- Program P5, the ceiling. -/
theorem test_nak_ceiling :
    view (fun t => (t.env.txout, regValue t .evt)) (exec .nak { readWait with retries := 10 })
      = some ([0x18], 0x00000004) := by decide +kernel
theorem test_can : view (fun t => (regValue t .evt, t.taskq.length)) (exec .can writeStart)
    = some (0x00000083, 1) := by decide +kernel
theorem test_sigA : view (·.stage) (exec .sigA writeStart) = some .dataRecv := by decide +kernel
theorem test_noise : view (·.conn) (exec (.noise 0x43) connected) = some .connected := by decide +kernel
theorem test_sigC : view (fun t => (t.conn, t.firstConnect, t.sfifo)) (exec .sigC detecting)
    = some (.connected, false, [0x80]) := by decide +kernel
theorem test_detectOther : view (·.df.state) (exec (.detectOther 0x01) detecting) = some .hunt := by decide +kernel
/-- V-RX14's position count, at its start. -/
theorem test_frameByte :
    view (fun t => (t.df.state, t.df.blk, t.df.pos))
        (exec (.frameByte 0x18) { connected with df := { connected.df with state := .blk, pos := 1 } })
      = some (.nblk, 0x18, 2) := by decide +kernel
/-- Program P3, second frame: accepted, the first of two. -/
theorem test_frameShort_accepted :
    view (fun t => (t.env.txout, t.stage, t.head.xfer, t.rxSeq, t.scratch.length))
        (exec (.frameShort 0x01 0xFE (List.replicate 176 0x55) 0xC5 0xEB) writeStart)
      = some ([0x06], .dataRecvBuf, 176, 0x02, 176) := by decide +kernel
/-- Program P3, first frame (V-RX3): a wrong CRC. -/
theorem test_frameShort_failed :
    view (fun t => (t.env.txout, regValue t .seq, t.head.xfer))
        (exec (.frameShort 0x01 0xFE (List.replicate 176 0x55) 0xC6 0xEB) writeStart)
      = some ([0x15], 0x00010101, 0) := by decide +kernel
/-- V-RX6's verdict: a block out of sequence aborts with CAN. -/
theorem test_frame_out_of_sequence :
    view (fun t => (t.env.txout, regValue t .evt))
        (.next (frameEnd 0xEB { writeLastByte with df := { writeLastByte.df with blk := 5, nblk := 0xFA } }))
      = some ([0x18], 0x00000085) := by decide +kernel
/-- R70: a whole long frame drained while DETECTING is discarded, its header included. -/
theorem test_frameLong_detecting :
    view (fun t => (t.env.txout, t.df.state, t.conn))
        (exec (.frameLong 0x00 0xFF (List.replicate 1024 0) 0 0) detecting)
      = some ([], .hunt, .detecting) := by decide +kernel
/-- The first byte of a long frame's payload, position 3, is payload byte 0 (R81). -/
theorem test_frameLong_data :
    view (fun t => (t.df.state, t.df.pos, t.rxfb.take 2))
        (.next (rxBytes [0x02, 0x01, 0xFE, 0x77] connected))
      = some (.data, 4, [0x77, 0x00]) := by decide +kernel

/-! ## Pins -/

theorem test_reset : view (fun t => (regValue t .status, regValue t .seq, regValue t .retry, t.env.txout))
    (exec .reset { connected with env := { connected.env with txout := [0x41] } })
    = some (0x00000004, 0x00000101, 0x0000000A, [0x41]) := by decide +kernel
/-- V-PIN3. -/
theorem test_msTick : view (·.now) (exec .msTick { connected with now := 0xFFFFFFFF }) = some 0 := by decide +kernel
/-- V-PIN1's last byte, and V-PIN2. -/
theorem test_rxByte_full :
    view (fun t => (regValue t .err, regValue t .rxcnt))
        (exec (.rxByte 0) { connected with rxq := List.replicate 2048 0 })
      = some (0x02, 2048) := by decide +kernel
theorem test_rxByte_disabled : view (fun t => (t.rxq, regValue t .err)) (exec (.rxByte 0x43) State.reset)
    = some ([], 0) := by decide +kernel

/-! ## Bus -/

theorem test_regRead : view (·.env.rdata) (exec (.regRead .tack) connected) = some 0x000003E8 := by decide +kernel
/-- V-BUS6, V-BUS7. -/
theorem test_regWrite : view (regValue · .ctrl) (exec (.regWrite .ctrl 0xFFFFFFFF) connected)
    = some 0x00000007 := by decide +kernel
theorem test_regWrite_readOnly : view (regValue · .status) (exec (.regWrite .status 0xFFFFFFFF) connected)
    = some 0x00000003 := by decide +kernel
theorem test_cmdWrite : view (·.en) (exec (.cmdWrite 0x01000000) State.reset) = some true := by decide +kernel
/-- V-BUS5. -/
theorem test_errW1c :
    view (regValue · .err) (exec (.errW1c 0x01) { connected with
      err := { submit := true, rxOvf := true, baud := false, evtOvf := false, cmd := true, access := false } })
      = some 0x12 := by decide +kernel
/-- V-EV2. -/
theorem test_evtClr :
    view (fun t => (regValue t .evt, t.irq)) (exec (.evtClr 1) { connected with
      settings := { connected.settings with irqEn := true },
      evt := { code := .txDone, dir := false, count := 10 } })
      = some (0, false) := by decide +kernel
/-- V-SF2. -/
theorem test_sfifoPop : view (fun t => (t.env.rdata, t.sfifo)) (exec .sfifoPop connected)
    = some (0x00001180, []) := by decide +kernel
theorem test_sfifoPop_empty : view (·.env.rdata) (exec .sfifoPop detecting) = some 0 := by decide +kernel
/-- V-BUS3: the bytes of 0x44332211, read narrower. -/
theorem test_scrRead :
    view (·.env.rdata) (exec (.scrRead .b1 1)
      { connected with scratch := [(0, 0x11), (1, 0x22), (2, 0x33), (3, 0x44)] }) = some 0x22
    ∧ view (·.env.rdata) (exec (.scrRead .b2 2)
      { connected with scratch := [(0, 0x11), (1, 0x22), (2, 0x33), (3, 0x44)] }) = some 0x4433 := by decide +kernel
theorem test_scrWrite : view (·.scratch) (exec (.scrWrite .b4 0 0x44332211) connected)
    = some [(0, 0x11), (1, 0x22), (2, 0x33), (3, 0x44)] := by decide +kernel
/-- V-BUS4. -/
theorem test_scrRead_misaligned : view (fun t => (t.env.rdata, regValue t .err)) (exec (.scrRead .b4 2) connected)
    = some (0, 0x20) := by decide +kernel
/-- V-BUS1, V-BUS2. -/
theorem test_regBadAccess :
    view (fun t => (t.env.rdata, regValue t .err)) (exec (.regBadAccess (.read .b2 0x020)) connected)
      = some (0, 0x20) := by decide +kernel
theorem test_regUnmapped :
    view (fun t => (t.env.rdata, regValue t .err)) (exec (.regUnmapped (.read .b4 0x054)) connected)
      = some (0, 0x20) := by decide +kernel

/-! ## Shared operations -/

/-- The CRC of a frame of the spec's list (95_test_vectors.md §2). -/
theorem test_crc_frame : crc16 .xmodem readPayload = 0xDE68 ∧ crc16 .xmodem (List.replicate 176 0x55) = 0xEBC5 := by
  decide +kernel
/-- Item I7: with another function configured the validator asks that one, and RESET leaves the choice alone. -/
theorem test_crc_configured (payload : List Byte) (lo hi : Byte) :
    checksumOk .configured payload lo hi = ((hi ++ lo : BitVec 16) == Config.crc16 payload)
      ∧ view (·.crc) (exec .reset { connected with crc := .configured }) = some .configured := ⟨rfl, rfl⟩
/-- Program P5: transmission 1. -/
theorem test_txStage : view (fun t => (t.env.txout, t.tx.len, t.tx.chunk)) (.next (txStage readStart))
    = some (readFrame, 181, 10) := by decide +kernel
/-- R110 item 4. -/
theorem test_sfifo_overflow : (sfifoPush 0x80 { connected with
    sfifo := [0x82, 0x83, 0x87, 0x80, 0x81, 0x82, 0x83, 0x87] }).sfifo
    = [0x83, 0x87, 0x80, 0x81, 0x82, 0x83, 0x87, 0x80] := by decide +kernel
/-- R99's example: sent at 5, no timeout at 1004, one at 1005. -/
theorem test_ack_timeout :
    (timers { readWait with lastSendTime := 5, now := 1004 }).retries = 0
    ∧ (timers { readWait with lastSendTime := 5, now := 1005 }).retries = 1 := by decide +kernel
/-- The block answers its window and no other address (R39). -/
theorem test_window :
    windowOffset 0x20000 0x20010 = some 0x10 ∧ windowOffset 0x20000 0x1FFFF = none
      ∧ windowOffset 0x20000 0x40000 = none := by decide +kernel

/-! ## Witnesses: states that meet the hypotheses of the statements, clause by clause -/

/-- A run's state with a WRITE task receiving. -/
theorem witness_settled_write : Settled writeStart where
  notDone := by decide +kernel
  inv :=
    { queue := ⟨by
          intro t ht
          simp only [writeStart, List.mem_cons, List.not_mem_nil, or_false] at ht
          rcases ht with rfl | rfl <;> exact ⟨by decide, by decide, by decide, by decide⟩,
        by decide +kernel, fun _ => ⟨_, _, rfl, rfl, by decide +kernel⟩, by decide +kernel⟩
      stage := ⟨by decide +kernel, by decide +kernel, by decide +kernel, by decide +kernel, by decide +kernel⟩
      tx := ⟨by decide +kernel, fun h => absurd h (by decide +kernel), by decide +kernel⟩
      rx := ⟨by decide +kernel, rfl, by decide +kernel, by decide +kernel⟩
      session := ⟨by decide +kernel, by decide +kernel, by decide +kernel, by decide +kernel, by decide +kernel⟩
      memory := by decide +kernel }

/-- A run's state with a READ frame staged and awaiting its ACK. -/
theorem witness_settled_read : Settled readWait where
  notDone := by decide +kernel
  inv :=
    { queue := ⟨by
          intro t ht
          simp only [readWait, readStart, List.mem_singleton] at ht
          subst ht
          exact ⟨by decide, by decide, by decide, by decide⟩,
        by decide +kernel, fun _ => ⟨_, _, rfl, rfl, by decide +kernel⟩, by decide +kernel⟩
      stage := ⟨by decide +kernel, by decide +kernel, by decide +kernel, by decide +kernel, by decide +kernel⟩
      tx := ⟨by decide +kernel,
        fun _ => ⟨.short, readPayload, by decide +kernel, by decide +kernel, by decide +kernel,
          by decide +kernel, by decide +kernel⟩,
        by decide +kernel⟩
      rx := ⟨by decide +kernel, rfl, by decide +kernel, by decide +kernel⟩
      session := ⟨by decide +kernel, by decide +kernel, by decide +kernel, by decide +kernel, by decide +kernel⟩
      memory := by decide +kernel }

/-- A run's state while DETECTING. -/
theorem witness_settled_detecting : Settled detecting where
  notDone := by decide +kernel
  inv :=
    { queue := ⟨by intro t ht; simp [detecting, State.reset] at ht,
        by decide +kernel, fun h => absurd h (by decide +kernel), by decide +kernel⟩
      stage := ⟨by decide +kernel, by decide +kernel, by decide +kernel, by decide +kernel, by decide +kernel⟩
      tx := ⟨by decide +kernel, fun h => absurd h (by decide +kernel), by decide +kernel⟩
      rx := ⟨by decide +kernel, rfl, by decide +kernel, by decide +kernel⟩
      session := ⟨by decide +kernel, by decide +kernel, by decide +kernel, by decide +kernel, by decide +kernel⟩
      memory := by decide +kernel }

theorem witness_StepRunsTheNextAgentStep :
    (connected.withInputs [.msTick]).env.inputs = .msTick :: [] ∧ connected.env.inputs = [] := ⟨rfl, rfl⟩

theorem witness_StepKeepsTheInvariant : Settled writeStart ∧ Settled readWait ∧ Settled detecting :=
  ⟨witness_settled_write, witness_settled_read, witness_settled_detecting⟩

theorem witness_DecodeOfEncodeIsTheInstruction :
    (Instr.cmdInvalid 0xFFFFFFFF).wellFormed = true ∧ (Instr.noise 0x43).wellFormed = true
      ∧ (Instr.frameLong 0 0 (List.replicate 1024 0) 0 0).wellFormed = true
      ∧ (Instr.regUnmapped (.write .b4 0x0FFFC 0)).wellFormed = true
      ∧ (Instr.regBadAccess (.read .b1 0x0FFFF)).wellFormed = true := by decide +kernel

theorem witness_EncodeOfDecodeIsTheImage :
    ∃ i, decode (.frame ([0x01, 0x00, 0xFF] ++ List.replicate 176 0 ++ [0x00, 0x00])) = .ok i := ⟨_, rfl⟩

/-- Offsets at the ends of each clause's range, and bus addresses at the ends of the window. -/
theorem witness_BusAccessesDecodeByTheMap :
    (0x1FFFF < 0x20000 ∧ 0x20000 + 0x20000 ≤ 0x40000)
    ∧ (0x20000 ≤ 0x3FFFF ∧ 0x3FFFF < 0x20000 + 0x20000 ∧ 0x20000 % 0x20000 = 0)
    ∧ 0x10000 ≤ (BusAccess.read .b1 0x10000).off.toNat ∧ 0x10000 ≤ (BusAccess.write .b1 0x1FFFF 0).off.toNat
    ∧ ((BusAccess.read .b4 0x0FFFF).off.toNat < 0x10000
        ∧ ¬((BusAccess.read .b4 0x0FFFF).size = .b4 ∧ (BusAccess.read .b4 0x0FFFF).off.toNat % 4 = 0))
    ∧ ¬((BusAccess.read .b2 0x00000).size = .b4 ∧ (BusAccess.read .b2 0x00000).off.toNat % 4 = 0)
    ∧ (0x54 ≤ (BusAccess.read .b4 0x00054).off.toNat ∧ (BusAccess.read .b4 0x0FFFC).off.toNat < 0x10000
        ∧ (BusAccess.read .b4 0x0FFFC).off.toNat % 4 = 0)
    ∧ ((BusAccess.write .b4 0x00050 0).off.toNat < 0x54 ∧ (BusAccess.write .b4 0x00050 0).size = .b4
        ∧ (BusAccess.write .b4 0x00050 0).off.toNat % 4 = 0) := by decide +kernel

theorem witness_ReadOnlyRegistersReportTheirFields :
    readWait.readActive = true ∧ (writeStart.readActive = false ∧ writeStart.df.state = .hunt)
    ∧ (({ writeStart with df := { writeStart.df with state := .blk, pos := 1 } } : State).readActive = false) := by
  decide +kernel

theorem witness_RegisterReadHasNoSideEffect : Reg.status ≠ .sfifo := by decide

theorem witness_RegisterWriteStoresItsWritableBits :
    Reg.taskLen ∉ [Reg.cmd, .err, .evtClr] ∧ writableBits .taskLen ≠ 0 ∧ Reg.taskOff ≠ .taskLen
    ∧ Reg.sfifo ∉ [Reg.cmd, .err, .evtClr] ∧ writableBits .sfifo = 0 := by decide

/-- An ERR write that clears CMD_ERR, and a RESET. -/
theorem witness_ErrorFlagsAreSticky :
    (∃ t, step (({ connected with err := { connected.err with cmd := true } } : State).withInputs
          [.bus (.write .b4 0x024 0x10)]) = .next t ∧ (regValue t .err).getLsbD 4 = false)
    ∧ (∃ t, step (({ connected with err := { connected.err with cmd := true } } : State).withInputs
          [.reset]) = .next t ∧ (regValue t .err).getLsbD 4 = false)
    ∧ (regValue ({ connected with err := { connected.err with cmd := true } } : State) .err).getLsbD 4
        = true ∧ 4 < 6 :=
  ⟨⟨_, rfl, by decide +kernel⟩, ⟨_, rfl, by decide +kernel⟩, by decide +kernel, by decide⟩

theorem witness_SfifoReadPopsTheOldest :
    detecting.sfifo = [] ∧ connected.sfifo = 0x80 :: [] ∧ connected.sfifo.length ≤ 8
    ∧ (List.replicate 8 (0x80 : Byte)).length ≤ 8 := by decide +kernel

theorem witness_StatusFifoKeepsTheNewestEight :
    detecting.sfifo.length ≤ 8
    ∧ ({ connected with sfifo := List.replicate 8 0x80 } : State).sfifo.length ≤ 8 := by decide +kernel

theorem witness_ScratchReadIsLittleEndian :
    (0xFFFC : BitVec 16).toNat % Size.b4.bytes = 0 ∧ 3 < Size.b4.bytes
    ∧ (0xFFFF : BitVec 16).toNat % Size.b1.bytes = 0
    ∧ (0xFFFD : BitVec 16).toNat % Size.b4.bytes ≠ 0 ∧ (0x0001 : BitVec 16).toNat % Size.b2.bytes ≠ 0 := by
  decide

theorem witness_ScratchWriteStoresLittleEndian :
    (0xFFFC : BitVec 16).toNat % Size.b4.bytes = 0
    ∧ (∀ i < Size.b4.bytes, (0x0000 : BitVec 16) ≠ 0xFFFC + BitVec.ofNat 16 i)
    ∧ (0xFFFE : BitVec 16).toNat % Size.b4.bytes ≠ 0 := by decide

theorem witness_OnlyStoringInstructionsChangeScratch : ∃ t, exec .ack readWait = .next t := ⟨_, rfl⟩

theorem witness_DeinitEndsTheSession : connected.en = true ∧ State.reset.en = false := ⟨rfl, rfl⟩

theorem witness_BaudSetLatchesTheRate : connected.en = true ∧ State.reset.en = false := ⟨rfl, rfl⟩

theorem witness_InvalidCommandOnlySetsCmdErr :
    (0x04000000 : Word).extractLsb' 24 8 ∉ [0x01, 0x02, 0x03, 0x10, 0x11, 0x20]
    ∧ (0x03000001 : Word).extractLsb' 0 24 ≠ 0 := by decide

theorem witness_DisabledBlockRefusesWork : State.reset.en = false := rfl

theorem witness_PollRunsItsPhasesInOrder : readStart.en = true ∧ State.reset.en = false := ⟨rfl, rfl⟩

/-- The inner conditions of the POLL frame: a rate that is applied, flags already set, a connection that stays. -/
theorem witness_PollFrame :
    (∃ t, exec .poll { connected with
        baudPending := true, pendingBaud := 19200, curBaud := 9600,
        env := { connected.env with linkAnswers := [true] } } = .next t ∧ t.curBaud ≠ 9600)
    ∧ connected.conn = .connected ∧ connected.en = true
    ∧ (∃ t, exec .poll { detecting with err := { detecting.err with evtOvf := true, baud := true } } = .next t
        ∧ t.firstConnect = true) :=
  ⟨⟨_, rfl, by decide +kernel⟩, rfl, rfl, ⟨_, rfl, by decide +kernel⟩⟩

/-- POLL answers a next state in every state. -/
theorem poll_answers (s : State) : ∃ t, exec .poll s = .next t := ⟨_, rfl⟩

/-- The first addresses below and above the active region 0x100 .. 0x25F. -/
theorem witness_PollStoresOnlyInTheActiveRegion :
    Settled writeStart ∧ (∃ t, exec .poll writeStart = .next t)
    ∧ writeStart.head.off = 0x100 ∧ writeStart.head.len = 352
    ∧ ¬((0x100 : BitVec 16).toNat ≤ (0x00FF : BitVec 16).toNat)
    ∧ ¬((0x0260 : BitVec 16).toNat < (0x100 : BitVec 16).toNat + (352 : BitVec 17).toNat) :=
  ⟨witness_settled_write, poll_answers _, rfl, rfl, by decide, by decide⟩

theorem witness_OnePollPostsAtMostOneEvent :
    Settled readWait ∧ readWait.evt.code = .none ∧ ∃ t, exec .poll readWait = .next t :=
  ⟨witness_settled_read, rfl, poll_answers _⟩

theorem witness_TasksLeaveOnlyFromTheHead :
    Settled (writeStart.withInputs [.msTick]) ∧ (writeStart.withInputs [.msTick]).env.inputs = .msTick :: []
    ∧ (∃ t, step (writeStart.withInputs [.msTick]) = .next t)
    ∧ Input.msTick ≠ .reset ∧ decodeInput .msTick ≠ .cmdWrite CmdOp.init.word
    ∧ decodeInput .msTick ≠ .cmdWrite CmdOp.deinit.word :=
  ⟨⟨witness_settled_write.inv.congr (by constructor <;> rfl), witness_settled_write.notDone⟩, rfl, ⟨_, rfl⟩,
    by decide, by decide, by decide⟩

/-- The cadence at its limit: 1000 ms after the last SIG_A. -/
theorem witness_SigAGoesOutEverySecondWhileDetecting :
    detecting.conn = .detecting ∧ detecting.hsStarted = false
    ∧ (({ detecting with hsStarted := true, now := 1000 } : State).now - detecting.lastSendTime).toNat ≥ 1000 := by
  decide +kernel

theorem witness_TimeoutsFireInOrderWhileConnected : readWait.conn = .connected := rfl

theorem witness_TransmitStartsTheActiveRead :
    (readStart.active = true ∧ readStart.head.dir = .read ∧ readStart.stage = .dataSend)
    ∧ ¬(readWait.active = true ∧ readWait.head.dir = .read ∧ readWait.stage = .dataSend) := by
  decide +kernel

theorem witness_BridgeServicesTheStage :
    ({ readWait with stage := .dataSendDone } : State).stage = .dataSendDone
    ∧ ({ writeStart with stage := .dataRecvDone } : State).stage = .dataRecvDone
    ∧ ({ connected with stage := .sendAck } : State).stage = .sendAck
    ∧ connected.stage = .cmdRecv ∧ readStart.stage ∈ [Stage.dataSend, .dataSendBuf, .dataRecv, .dataRecvBuf] := by
  decide +kernel

theorem witness_PendingRateIsAppliedAtTheSafePoint :
    (({ connected with baudPending := true } : State).baudPending = true
      ∧ ({ connected with baudPending := true } : State).baudSafe = true)
    ∧ ¬(readStart.baudPending = true ∧ readStart.baudSafe = true)
    ∧ ({ connected.env with linkAnswers := [false] } : Env).linkAnswers = false :: [] := by decide +kernel

theorem witness_ActivationTakesTheOldestTask :
    connected.taskq = []
    ∧ (∃ h rest, ({ connected with taskq := writeStart.taskq } : State).taskq = h :: rest)
    ∧ (connected.conn = .connected ∧ connected.stage = .cmdRecv ∧ connected.active = false
        ∧ connected.df.state = .hunt)
    ∧ ¬(writeStart.conn = .connected ∧ writeStart.stage = .cmdRecv ∧ writeStart.active = false
        ∧ writeStart.df.state = .hunt) :=
  ⟨rfl, ⟨_, _, rfl⟩, by decide +kernel, by decide +kernel⟩

theorem witness_StageChangesAreRecorded :
    Stage.dataSend = readStart.stage ∧ Stage.dataSendBuf ≠ readStart.stage := by decide +kernel

theorem witness_HeaderBytesStartAFrame :
    ¬(writeStart.active = true ∧ writeStart.head.dir = .read)
    ∧ (readWait.active = true ∧ readWait.head.dir = .read) := by decide +kernel

theorem witness_IgnoredBytesHaveNoEffect :
    ¬(writeStart.active = true ∧ writeStart.head.dir = .read ∧ writeStart.stage = .dataSendBuf
        ∧ writeStart.tx.wait = true)
    ∧ ¬(connected.active = true ∧ connected.stage ∈ [Stage.dataSend, .dataSendBuf, .dataRecv, .dataRecvBuf]) := by
  decide +kernel

theorem witness_SigCConnects : Settled detecting ∧ detecting.conn = .detecting :=
  ⟨witness_settled_detecting, rfl⟩

/-- The last frame of the task, and a frame after which bytes remain. -/
theorem witness_AckCountsAndContinues :
    (∃ h rest, readWait.taskq = h :: rest ∧ h.dir = .read ∧ h.xfer + readWait.tx.chunk.setWidth 17 = h.len)
    ∧ (∃ h rest, ({ readWait with tx := { readWait.tx with chunk := 9 } } : State).taskq = h :: rest
        ∧ h.xfer + (9 : BitVec 11).setWidth 17 ≠ h.len)
    ∧ readWait.active = true ∧ readWait.stage = .dataSendBuf ∧ readWait.tx.wait = true :=
  ⟨⟨_, _, rfl, rfl, by decide⟩, ⟨_, _, rfl, by decide⟩, rfl, rfl, rfl⟩

/-- One retry below the ceiling, and at it. -/
theorem witness_NakRetransmitsOrAborts :
    (∃ h rest, readWait.taskq = h :: rest ∧ h.dir = .read)
    ∧ readWait.active = true ∧ readWait.stage = .dataSendBuf ∧ readWait.tx.wait = true
    ∧ (9 : BitVec 8) < readWait.settings.retryMax ∧ ¬ (10 : BitVec 8) < readWait.settings.retryMax :=
  ⟨⟨_, _, rfl, rfl⟩, rfl, rfl, rfl, by decide +kernel, by decide +kernel⟩

theorem witness_CanAbortsTheActiveTask :
    (∃ h rest, writeStart.taskq = h :: rest) ∧ writeStart.active = true
    ∧ writeStart.stage ∈ [Stage.dataSend, .dataSendBuf, .dataRecv, .dataRecvBuf]
    ∧ readWait.stage ∈ [Stage.dataSend, .dataSendBuf, .dataRecv, .dataRecvBuf] :=
  ⟨⟨_, _, rfl⟩, rfl, by decide +kernel, by decide +kernel⟩

/-- Every deframer state inside a frame; in DATA the last payload byte's position too. -/
theorem witness_FrameByteAdvancesTheDeframer :
    (∀ d ∈ [DfState.blk, .nblk, .data, .crcLo, .crcHi],
      ({ connected with df := { connected.df with state := d } } : State).df.state = d)
    ∧ ((178 : BitVec 11) + 1).toNat = connected.df.plen.toNat + 3 := by decide +kernel

theorem witness_WholeFrameReachesItsVerdict :
    writeStart.conn = .connected ∧ writeStart.df.state = .hunt
    ∧ ¬(writeStart.active = true ∧ writeStart.head.dir = .read) ∧ writeStart.rxfb.length = 1024
    ∧ (List.replicate 176 (0x55 : Byte)).length = 176 ∧ (List.replicate 1024 (0x55 : Byte)).length = 1024 := by
  decide +kernel

/-- A failed frame; the expected block 1, the duplicate block 0, the blocks 2 and 0xFF just outside that pair, and a
frame with no task. -/
theorem witness_VerdictChecksBeforeSequence :
    ¬(writeLastByte.df.blk + writeLastByte.df.nblk = 0xFF
        ∧ ((0xEC : Byte) ++ writeLastByte.df.crcLo : BitVec 16)
          = crc16 writeLastByte.crc (writeLastByte.rxfb.take writeLastByte.df.plen.toNat))
    ∧ (writeLastByte.df.blk + writeLastByte.df.nblk = 0xFF
        ∧ ((0xEB : Byte) ++ writeLastByte.df.crcLo : BitVec 16)
          = crc16 writeLastByte.crc (writeLastByte.rxfb.take writeLastByte.df.plen.toNat))
    ∧ (writeLastByte.receiving = true ∧ writeLastByte.df.blk = writeLastByte.rxSeq)
    ∧ (¬(connected.receiving = true ∧ (0x00 : Byte) = connected.rxSeq) ∧ (0x00 : Byte) = connected.rxSeq - 1)
    ∧ (∀ b ∈ [(0x02 : Byte), 0xFF], b ≠ writeStart.rxSeq ∧ b ≠ writeStart.rxSeq - 1)
    ∧ (writeStart.settings.seqPolicy = false ∧ connected.receiving = false) := by decide +kernel

/-- A full frame of 176, and the 2 bytes left of a task of 178. -/
theorem witness_AcceptedFrameIsStoredAndCounted :
    (∃ h rest, writeStart.taskq = h :: rest ∧ h.dir = .write
      ∧ 176 = min (h.len.toNat - h.xfer.toNat) writeStart.df.plen.toNat)
    ∧ writeStart.active = true ∧ writeStart.stage = .dataRecv ∧ writeStart.rxfb.length = 1024
    ∧ 2 = min ((178 : BitVec 17).toNat - (176 : BitVec 17).toNat) writeStart.df.plen.toNat :=
  ⟨⟨_, _, rfl, rfl, by decide⟩, rfl, rfl, by decide +kernel, by decide⟩

theorem witness_FailedFrameIsNakedOrAborts :
    connected.receiving = false ∧ writeStart.receiving = true
    ∧ (9 : BitVec 8) < writeStart.settings.retryMax ∧ ¬ (10 : BitVec 8) < writeStart.settings.retryMax
    ∧ ∃ h rest, writeStart.taskq = h :: rest :=
  ⟨by decide +kernel, by decide +kernel, by decide +kernel, by decide +kernel, ⟨_, _, rfl⟩⟩

/-- The first and the last position the statement covers, and the first and the last payload byte; a checksum that
any configured function accepts. -/
theorem witness_OneWrongByteFailsTheFrame :
    readPayload.length = PayloadLen.short.toNat ∧ complementOk 0x01 0xFE = true
    ∧ checksumOk .xmodem readPayload 0x68 0xDE = true ∧ 1 ≤ 180 ∧ 180 < PayloadLen.short.toNat + 5
    ∧ (frameBytes PayloadLen.short.header 0x01 0xFE readPayload 0x68 0xDE)[1]? ≠ some 0x00
    ∧ (frameBytes PayloadLen.short.header 0x01 0xFE readPayload 0x68 0xDE)[180]? ≠ some 0xDF
    ∧ (frameBytes PayloadLen.short.header 0x01 0xFE readPayload 0x68 0xDE)[3]? ≠ some 0x01
    ∧ (frameBytes PayloadLen.short.header 0x01 0xFE readPayload 0x68 0xDE)[178]? ≠ some 0x00
    ∧ CrcFn.DetectsOneByte .xmodem PayloadLen.short.toNat
    ∧ ∃ lo hi : Byte, checksumOk .configured readPayload lo hi = true :=
  ⟨by decide +kernel, by decide +kernel, by decide +kernel, by decide +kernel, by decide +kernel, by decide +kernel,
    by decide +kernel, by decide +kernel, by decide +kernel, crcXmodem_detectsOneByte _,
    crcLow (Config.crc16 readPayload), crcHigh (Config.crc16 readPayload), crcBytes_checksumOk .configured _⟩

/-- 1024 bytes left are one long frame, 1023 a short one. -/
theorem witness_StagedFrameCarriesTheNextBytes :
    (∃ h rest, readStart.taskq = h :: rest ∧ 10 = min (h.len.toNat - h.xfer.toNat) PayloadLen.short.toNat
      ∧ PayloadLen.short = if 1024 ≤ h.len.toNat - h.xfer.toNat then .long else .short)
    ∧ readStart.tx.buf.length = 1029
    ∧ PayloadLen.long = (if 1024 ≤ (1024 : BitVec 17).toNat - (0 : BitVec 17).toNat then .long else .short)
    ∧ PayloadLen.short = (if 1024 ≤ (1023 : BitVec 17).toNat - (0 : BitVec 17).toNat then .long else .short) :=
  ⟨⟨_, _, rfl, by decide, by decide⟩, by decide +kernel, by decide, by decide⟩

theorem witness_PinEventsActAsGiven :
    connected.en = true ∧ State.reset.en = false
    ∧ ({ connected with rxq := List.replicate 2048 0 } : State).rxq.length = 2048
    ∧ ({ connected with rxq := List.replicate 2047 0 } : State).rxq.length ≠ 2048 := by decide +kernel

/-- A POLL that emits SIG_A. -/
theorem witness_OnlyPollTransmits :
    ∃ s t : State, s.env.inputs = .bus pollAccess :: [] ∧ step s = .next t ∧ t.env.txout ≠ s.env.txout :=
  ⟨detecting.withInputs [.bus pollAccess], _, rfl, rfl, by decide +kernel⟩

/-- A SIG_C drained by a POLL, a DEINIT while connected, and a RESET. -/
theorem witness_ConnectionChangesOnlyAsListed :
    (∃ s t : State, s.env.inputs = .bus pollAccess :: [] ∧ step s = .next t
      ∧ s.conn = .detecting ∧ t.conn = .connected ∧ s.firstConnect = true ∧ t.firstConnect = false)
    ∧ (∃ s t : State, s.env.inputs = .bus (.write .b4 0x010 0x02000000) :: [] ∧ step s = .next t
      ∧ s.conn = .connected ∧ t.conn = .detecting)
    ∧ (∃ s t : State, s.env.inputs = .reset :: [] ∧ step s = .next t
      ∧ s.firstConnect = false ∧ t.firstConnect = true) :=
  ⟨⟨({ detecting with rxq := [0x43] } : State).withInputs [.bus pollAccess], _, rfl, rfl, by decide +kernel⟩,
    ⟨connected.withInputs [.bus (.write .b4 0x010 0x02000000)], _, rfl, rfl, by decide +kernel⟩,
    ⟨connected.withInputs [.reset], _, rfl, rfl, by decide +kernel⟩⟩

end Sys2Proof.Tests
end

section
/-! The agent step that comes next (R9, R16): what `fetch` takes from the waiting agent steps, and what `step` then
runs. -/

namespace Sys2Proof.Machine

/-- R9: the oldest waiting agent step is taken, and the others go on waiting. -/
theorem fetch_of_inputs_cons {s : State} {i : Input} {rest : List Input} (h : s.env.inputs = i :: rest) :
    fetch s = some (i, s.withInputs rest) := by
  rw [fetch, h]

theorem fetch_of_inputs_nil {s : State} (h : s.env.inputs = []) : fetch s = none := by
  rw [fetch, h]

/-- R9: a step runs the row of the agent step it takes, in the state without that agent step. -/
theorem step_of_inputs_cons {s : State} {i : Input} {rest : List Input} (h : s.env.inputs = i :: rest) :
    step s = exec (decodeInput i) (s.withInputs rest) := by
  rw [step, fetch_of_inputs_cons h]

/-- The idle step. -/
theorem step_of_inputs_nil {s : State} (h : s.env.inputs = []) : step s = .next s := by
  rw [step, fetch_of_inputs_nil h]

/-- Settles O1, a case of the waiting agent steps each: one waits (`step_of_inputs_cons`, whose `withInputs` is the
record update of the statement), or none does (`step_of_inputs_nil`). -/
theorem stepRunsTheNextAgentStep : Obligations.StepRunsTheNextAgentStep :=
  ⟨fun _ _ _ h => step_of_inputs_cons h, fun _ h => step_of_inputs_nil h⟩

end Sys2Proof.Machine
end

section
/-! What the next row of an agent can be: the rows that an agent step decodes to (R39, R41-R43, R129-R131, R151), and the
rows that a command word decodes to (R54, R126). -/

namespace Sys2Proof.Machine

/-- The rows an agent step can decode to. -/
inductive AgentRow : Instr → Prop
  | reset : AgentRow .reset
  | msTick : AgentRow .msTick
  | rxByte (b : Byte) : AgentRow (.rxByte b)
  | regRead (r : Reg) : AgentRow (.regRead r)
  | regWrite (r : Reg) (v : Word) : AgentRow (.regWrite r v)
  | cmdWrite (w : Word) : AgentRow (.cmdWrite w)
  | errW1c (v : Word) : AgentRow (.errW1c v)
  | evtClr (v : Word) : AgentRow (.evtClr v)
  | sfifoPop : AgentRow .sfifoPop
  | scrRead (size : Size) (k : BitVec 16) : AgentRow (.scrRead size k)
  | scrWrite (size : Size) (k : BitVec 16) (v : Word) : AgentRow (.scrWrite size k v)
  | regBadAccess (a : BusAccess) : AgentRow (.regBadAccess a)
  | regUnmapped (a : BusAccess) : AgentRow (.regUnmapped a)

theorem decodeRegAccess_agentRow (r : Reg) (a : BusAccess) : AgentRow (decodeRegAccess r a) := by
  cases a with
  | read size off =>
    simp only [decodeRegAccess]
    split
    · exact .sfifoPop
    · exact .regRead r
  | write size off v =>
    simp only [decodeRegAccess]
    split
    · exact .cmdWrite v
    · split
      · exact .errW1c v
      · split
        · exact .evtClr v
        · exact .regWrite r v

theorem decodeBus_agentRow (a : BusAccess) : AgentRow (decodeBus a) := by
  unfold decodeBus
  split
  · split
    · split
      · exact decodeRegAccess_agentRow _ a
      · exact .regUnmapped a
    · exact .regBadAccess a
  · cases a with
    | read size off => exact .scrRead size _
    | write size off v => exact .scrWrite size _ v

theorem decodeInput_agentRow (i : Input) : AgentRow (decodeInput i) := by
  cases i with
  | bus a => exact decodeBus_agentRow a
  | rxByte b => exact .rxByte b
  | msTick => exact .msTick
  | reset => exact .reset

/-- The rows a command word can decode to, each with its word: the six of R54, or INVALID. -/
inductive CommandRow : Word → Instr → Prop
  | init : CommandRow 0x01000000 .init
  | deinit : CommandRow 0x02000000 .deinit
  | poll : CommandRow 0x03000000 .poll
  | submitRead : CommandRow 0x10000000 .submitRead
  | submitWrite : CommandRow 0x11000000 .submitWrite
  | baudSet : CommandRow 0x20000000 .baudSet
  | invalid (w : Word) : CommandRow w (.cmdInvalid w)

/-- R54: `OP` and the zero bits [23:0] determine the word. -/
theorem eq_append_of_low_zero {w : Word} (h : w.extractLsb' 0 24 = 0) :
    w = w.extractLsb' 24 8 ++ (0 : BitVec 24) := by
  rw [← h]
  exact (BitVec.extractLsb'_eq_self.symm.trans
    (BitVec.extractLsb'_append_extractLsb'_eq_extractLsb' (len₁ := 24) (len₂ := 8) rfl).symm)

theorem decodeCmd_commandRow (w : Word) : CommandRow w (decodeCmd w) := by
  unfold decodeCmd decodeOp
  by_cases hlow : w.extractLsb' 0 24 = 0
  · have hw := eq_append_of_low_zero hlow
    rw [if_pos hlow]
    unfold opOfCode
    generalize w.extractLsb' 24 8 = code at hw ⊢
    subst hw
    split_ifs <;> subst_vars
    exacts [.init, .deinit, .poll, .submitRead, .submitWrite, .baudSet, .invalid _]
  · rw [if_neg hlow]; exact .invalid w

/-- R22: a write of CMD is the row its word decodes to. -/
theorem exec_cmdWrite (w : Word) (s : State) : exec (.cmdWrite w) s = exec (decodeCmd w) s := by
  change execCmdWrite w s = _
  unfold execCmdWrite decodeCmd
  cases decodeOp w with
  | none => rfl
  | some o => cases o <;> rfl

/-- The model's meanings of the commands have no other outcome than a next state. -/
theorem CommandRow.answers {w : Word} {i : Instr} (h : CommandRow w i) (s : State) :
    ∃ t, exec i s = .next t := by
  cases h <;> exact ⟨_, rfl⟩

/-- Settles O4: both rows have one meaning, and it answers. -/
theorem cmdWriteRunsTheDecodedCommand : Obligations.CmdWriteRunsTheDecodedCommand := by
  intro w s
  obtain ⟨t, ht⟩ := (decodeCmd_commandRow w).answers s
  exact ⟨t, (exec_cmdWrite w s).trans ht, ht⟩

/-- Settles O10, by evaluation of the decoder. -/
theorem writtenOutWordsDecode : Obligations.WrittenOutWordsDecode := by
  unfold Obligations.WrittenOutWordsDecode
  decide

end Sys2Proof.Machine
end

section
/-! Between steps the block is `Settled` (R13, R120): it is so after RESET, and the row of every agent step keeps it and
the CRC function (R61). -/

namespace Sys2Proof.Machine

/-- The reset state, whatever the CRC function and the environment: the queue is empty, no frame is staged or begun, and
the buffers have their lengths. -/
theorem reset_settled_of_any (f : CrcFn) (e : Env) : Settled { State.reset with crc := f, env := e } where
  notDone := by simp [State.reset]
  inv :=
    { queue := ⟨by simp [State.reset], Nat.zero_le _, by simp [State.reset], by simp [State.reset]⟩
      stage := ⟨rfl, by simp [State.reset], rfl, by simp [State.abortable, State.reset], by simp [State.reset]⟩
      tx := ⟨List.length_replicate, by simp [State.reset, TxStage.reset], fun _ => ⟨rfl, rfl⟩⟩
      rx := ⟨List.length_replicate, Deframer.posOk_hunt .reset, fun _ => rfl, Nat.zero_le _⟩
      session := ⟨fun _ => ⟨rfl, rfl, rfl⟩, fun _ => ⟨rfl, rfl, rfl, rfl⟩, by simp [State.reset], Nat.zero_le _,
        fun _ => rfl⟩
      memory := ⟨List.Pairwise.nil, by simp [State.reset]⟩ }

/-- Settles O3, with the default CRC and nothing happened around the block. -/
theorem resetStateMeetsTheInvariant : Obligations.ResetStateMeetsTheInvariant :=
  reset_settled_of_any .xmodem .quiet

theorem Settled.congr {s t : State} (h : Settled s) (e : SameCore s t) : Settled t :=
  ⟨h.inv.congr e, by rw [e.stage]; exact h.notDone⟩

/-- Each of these fields has a clause of its own in the invariant, so it may change within that clause. -/
theorem Settled.sideFields {s : State} {fifo ring : List Byte} {latch : EvtLatch} {mem : List Host.Cell}
    {pending : Bool} (h : Settled s) (hfifo : fifo.length ≤ Config.sfifoDepth)
    (hlatch : latch.code = .none → latch = .empty) (hmem : Memory.wf mem)
    (hring : ring.length ≤ Config.rxqDepth) (hoff : s.en = false → ring = [] ∧ pending = false) :
    Settled { s with sfifo := fifo, evt := latch, scratch := mem, rxq := ring, baudPending := pending } := by
  obtain ⟨⟨q, g, x, r, c, -⟩, hdone⟩ := h
  refine ⟨⟨⟨q.tasks, q.bound, q.busy, q.idle⟩, ⟨g.transfer, g.dir, g.wait, g.unfinished, g.finished⟩,
    ⟨x.bufLen, fun hw => ?_, x.unstaged⟩, ⟨r.bufLen, r.pos, r.readHunt, hring⟩,
    ⟨c.detecting, fun he => ?_, c.connected, hfifo, hlatch⟩, hmem⟩, hdone⟩
  · obtain ⟨k, p, f⟩ := x.staged hw
    exact ⟨k, p, f.kind, f.payloadLen, f.bytes, f.len, f.chunk⟩
  · obtain ⟨hq, -, -, hc⟩ := c.disabled he
    exact ⟨hq, (hoff he).1, (hoff he).2, hc⟩

theorem Settled.off {s : State} (h : Settled s) (he : s.en = false) : s.rxq = [] ∧ s.baudPending = false := by
  obtain ⟨-, hq, hb, -⟩ := h.inv.session.disabled he
  exact ⟨hq, hb⟩

/-- Once the session is dropped, nothing is staged and the block is idle: `en`, the block numbers and the SIG_A cadence
are free (R117, R118). -/
theorem dropSession_settled_of_any {s : State} {on started : Bool} {rx tx : Byte} (h : BlockInv s) :
    Settled { dropSession s with en := on, rxSeq := rx, txSeq := tx, hsStarted := started } := by
  obtain ⟨⟨q, g, x, r, c, m⟩, hdone⟩ := dropSession_settled h
  exact ⟨⟨⟨q.tasks, q.bound, q.busy, q.idle⟩, ⟨g.transfer, g.dir, g.wait, g.unfinished, g.finished⟩,
    ⟨x.bufLen, by simp [dropSession], x.unstaged⟩, ⟨r.bufLen, r.pos, r.readHunt, r.ring⟩,
    ⟨c.detecting, fun _ => ⟨rfl, rfl, rfl, rfl⟩, c.connected, c.fifo, c.latch⟩, m⟩, hdone⟩

/-- The row answers a next state in which the invariant holds and the CRC function (R61) is the same. -/
def KeepsSettled (i : Instr) (s : State) : Prop := ∃ t, exec i s = .next t ∧ Settled t ∧ t.crc = s.crc

theorem execInit_settled {s : State} (h : Settled s) : KeepsSettled .init s :=
  ⟨_, rfl, (dropSession_settled_of_any h.inv).sideFields (Nat.zero_le _) (fun _ => rfl) h.inv.memory (Nat.zero_le _)
    (fun _ => ⟨rfl, rfl⟩), rfl⟩

theorem execDeinit_settled {s : State} (h : Settled s) : KeepsSettled .deinit s := by
  refine ⟨_, rfl, ?_⟩
  split
  · exact ⟨dropSession_settled_of_any h.inv, rfl⟩
  · exact ⟨h, rfl⟩

/-- What P1 to P5 of a POLL keep, one after another (R119). -/
theorem pollPhases_keep (s : State) :
    PollKeeps s (activate (bridge (txStart (timers (drain s.rxq s))))) :=
  ((codecPhases_keep s).trans (bridge_keeps _)).trans (.of_codec (activate_keeps _))

theorem execPoll_settled {s : State} (h : Settled s) : KeepsSettled .poll s := by
  refine ⟨_, rfl, ?_⟩
  split
  · rename_i he; exact ⟨pollPhases_settled h.inv he, (pollPhases_keep s).crc⟩
  · exact ⟨h, rfl⟩

theorem submit_crc (d : Dir) (s : State) : (submit d s).crc = s.crc := by
  unfold submit
  split <;> rfl

theorem execBaudSet_settled {s : State} (h : Settled s) : KeepsSettled .baudSet s := by
  refine ⟨_, rfl, ?_⟩
  split
  · rename_i he
    have hp : Settled { s with baudPending := true } :=
      h.sideFields h.inv.session.fifo h.inv.session.latch h.inv.memory h.inv.rx.ring (by simp [he])
    exact ⟨hp.congr (by constructor <;> rfl), rfl⟩
  · exact ⟨h.congr (by constructor <;> rfl), rfl⟩

theorem CommandRow.settled {w : Word} {i : Instr} {s : State} (hi : CommandRow w i) (h : Settled s) :
    KeepsSettled i s := by
  cases hi with
  | init => exact execInit_settled h
  | deinit => exact execDeinit_settled h
  | poll => exact execPoll_settled h
  | submitRead => exact ⟨_, rfl, submit_settled .read h, submit_crc _ _⟩
  | submitWrite => exact ⟨_, rfl, submit_settled .write h, submit_crc _ _⟩
  | baudSet => exact execBaudSet_settled h
  | invalid w => exact ⟨_, rfl, h.congr (by constructor <;> rfl), rfl⟩

theorem execRxByte_settled {s : State} (b : Byte) (h : Settled s) : KeepsSettled (.rxByte b) s := by
  refine ⟨_, rfl, ?_⟩
  split
  · rename_i he
    split
    · exact ⟨h.congr (by constructor <;> rfl), rfl⟩
    · rename_i hfull
      have hring : (s.rxq ++ [b]).length ≤ Config.rxqDepth := by
        have := h.inv.rx.ring
        rw [List.length_append, List.length_singleton]
        omega
      exact ⟨h.sideFields h.inv.session.fifo h.inv.session.latch h.inv.memory hring (by simp [he]), rfl⟩
  · exact ⟨h, rfl⟩

theorem execSfifoPop_settled {s : State} (h : Settled s) : KeepsSettled .sfifoPop s := by
  have hfifo : s.sfifo.tail.length ≤ Config.sfifoDepth := by
    have := h.inv.session.fifo
    rw [List.length_tail]
    omega
  have hp : Settled { s with sfifo := s.sfifo.tail } :=
    h.sideFields hfifo h.inv.session.latch h.inv.memory h.inv.rx.ring h.off
  exact ⟨_, rfl, hp.congr (by constructor <;> rfl), rfl⟩

theorem execEvtClr_settled {s : State} (v : Word) (h : Settled s) : KeepsSettled (.evtClr v) s := by
  refine ⟨_, rfl, ?_⟩
  split
  · exact ⟨h.sideFields h.inv.session.fifo (fun _ => rfl) h.inv.memory h.inv.rx.ring h.off, rfl⟩
  · exact ⟨h, rfl⟩

theorem execScrRead_settled {s : State} (size : Size) (k : BitVec 16) (h : Settled s) :
    KeepsSettled (.scrRead size k) s := by
  refine ⟨_, rfl, ?_⟩
  split <;> exact ⟨h.congr (by constructor <;> rfl), rfl⟩

theorem execScrWrite_settled {s : State} (size : Size) (k : BitVec 16) (v : Word) (h : Settled s) :
    KeepsSettled (.scrWrite size k v) s := by
  refine ⟨_, rfl, ?_⟩
  split
  · rw [memWrite, storeBytes_eq]
    have hmem := storeBytes_wf (k := k) (lowBytes v size) h.inv.memory
    exact ⟨h.sideFields h.inv.session.fifo h.inv.session.latch hmem h.inv.rx.ring h.off, rfl⟩
  · exact ⟨h.congr (by constructor <;> rfl), rfl⟩

theorem refuseAccess_settled {s : State} (a : BusAccess) (h : Settled s) :
    Settled (refuseAccess a s) ∧ (refuseAccess a s).crc = s.crc := by
  cases a <;> exact ⟨h.congr (by constructor <;> rfl), rfl⟩

theorem writeReg_settled {s : State} (r : Reg) (v : Word) (h : Settled s) : Settled (writeReg r v s) := by
  cases r <;> exact h.congr (by constructor <;> rfl)

/-- The row of every agent step keeps the invariant. -/
theorem AgentRow.settled {i : Instr} {s : State} (hi : AgentRow i) (h : Settled s) : KeepsSettled i s := by
  cases hi with
  | reset => exact ⟨_, rfl, reset_settled_of_any s.crc _, rfl⟩
  | msTick => exact ⟨_, rfl, h.congr (by constructor <;> rfl), rfl⟩
  | rxByte b => exact execRxByte_settled b h
  | regRead r => exact ⟨_, rfl, h.congr (by constructor <;> rfl), rfl⟩
  | regWrite r v => exact ⟨_, rfl, writeReg_settled r v h, (writeReg_keeps r v s).crc⟩
  | cmdWrite w =>
    unfold KeepsSettled
    rw [exec_cmdWrite]
    exact (decodeCmd_commandRow w).settled h
  | errW1c v => exact ⟨_, rfl, h.congr (by constructor <;> rfl), rfl⟩
  | evtClr v => exact execEvtClr_settled v h
  | sfifoPop => exact execSfifoPop_settled h
  | scrRead size k => exact execScrRead_settled size k h
  | scrWrite size k v => exact execScrWrite_settled size k v h
  | regBadAccess a => exact ⟨_, rfl, refuseAccess_settled a h⟩
  | regUnmapped a => exact ⟨_, rfl, refuseAccess_settled a h⟩

/-- Settles O2, a case of the waiting agent steps each: none waits and the state stays, or one waits and its row keeps the
invariant. -/
theorem stepKeepsTheInvariant : Obligations.StepKeepsTheInvariant := by
  intro s h
  cases hin : s.env.inputs with
  | nil => exact ⟨s, step_of_inputs_nil hin, h, rfl⟩
  | cons i rest =>
    have hs : Settled (s.withInputs rest) := h.congr (by constructor <;> rfl)
    rw [step_of_inputs_cons hin]
    exact (decodeInput_agentRow i).settled hs

end Sys2Proof.Machine
end

section
/-! The registers (R17 to R36): the fields of the read-only words, what a read, a write and a pop answer, and the writes of
ERR and EVT_CLR. -/

namespace Sys2Proof.Machine

/-! ## Words and their fields -/

/-- A field widened to a register's 32 bits stands in the low bits. -/
theorem extractLsb'_setWidth_low {k : Nat} (x : BitVec k) (hk : k ≤ 32) :
    (x.setWidth 32).extractLsb' 0 k = x := by
  apply BitVec.eq_of_getLsbD_eq
  intro i hi
  simp [hi]
  omega

/-- The bits above a widened field are 0. -/
theorem extractLsb'_setWidth_high {k : Nat} (x : BitVec k) (n : Nat) :
    (x.setWidth 32).extractLsb' k n = 0 := by
  apply BitVec.eq_of_getLsbD_eq
  simp

/-- The low `k` bits of a word, widened again, are the word under their mask. -/
theorem setWidth_extractLsb'_zero (v : Word) {k : Nat} (hk : k ≤ 32) :
    (v.extractLsb' 0 k).setWidth 32 = v &&& BitVec.ofNat 32 (2 ^ k - 1) := by
  have hle : 2 ^ k ≤ 2 ^ 32 := Nat.pow_le_pow_right (by decide) hk
  have hpos : 0 < 2 ^ k := Nat.two_pow_pos k
  have hmask : (BitVec.ofNat 32 (2 ^ k - 1)).toNat = 2 ^ k - 1 := by
    rw [BitVec.toNat_ofNat]; omega
  have hlow := Nat.mod_lt v.toNat hpos
  apply BitVec.eq_of_toNat_eq
  rw [BitVec.toNat_and, hmask, Nat.and_two_pow_sub_one_eq_mod, BitVec.toNat_setWidth, BitVec.extractLsb'_toNat,
    Nat.shiftRight_zero, Nat.mod_eq_of_lt (by omega)]

/-- Fields side by side do not overlap. -/
theorem toNat_append_eq_add {m n : Nat} (x : BitVec m) (y : BitVec n) :
    (x ++ y).toNat = x.toNat * 2 ^ n + y.toNat := by
  rw [BitVec.toNat_append, ← Nat.shiftLeft_add_eq_or_of_lt y.isLt, Nat.shiftLeft_eq]

/-! ## The read-only words -/

theorem ofBool_conn_bit (c : Conn) : BitVec.ofBool c.bit = if c = .connected then 1 else 0 := by
  cases c <;> rfl

theorem ofBool_evtValid (s : State) : BitVec.ofBool s.evtValid = if s.evt.code = .none then 0 else 1 := by
  unfold State.evtValid
  cases s.evt.code <;> rfl

/-- R26, field DIR: the head task is a WRITE, and 0 with no active task. -/
theorem ofBool_active_dir (s : State) :
    BitVec.ofBool (s.active && s.head.dir.bit) = if s.active = true ∧ s.head.dir = .write then 1 else 0 := by
  cases s.active <;> cases s.head.dir <;> rfl

/-- Settles O12: each field of STATUS is cut from its place in the word, and the three that encode a value are read by
the lemmas above. -/
theorem statusReportsLiveState : Obligations.StatusReportsLiveState := by
  refine ⟨rfl, fun s => ⟨?_, fun _ => rfl⟩⟩
  unfold regValue State.statusWord
  simp (disch := omega) only [BitVec.extractLsb'_append_eq_of_le, BitVec.extractLsb'_append_eq_of_add_le,
    Nat.reduceSub, BitVec.extractLsb'_eq_self, ofBool_conn_bit, ofBool_evtValid, ofBool_active_dir, true_and]

theorem xferWord_eq_setWidth (s : State) :
    s.xferWord = (if s.active then s.head.xfer else 0).setWidth 32 := by
  unfold State.xferWord
  split <;> rfl

theorem frameLenPos_of_read {s : State} (h : s.readActive = true) :
    s.frameLenPos = (s.tx.chunk, if s.tx.wait then s.tx.len else 0) := by
  rw [State.frameLenPos, if_pos h]

theorem frameLenPos_of_hunt {s : State} (h : s.readActive = false) (hd : s.df.state = .hunt) :
    s.frameLenPos = (0, 0) := by
  simp [State.frameLenPos, h, hd]

theorem frameLenPos_of_frame {s : State} (h : s.readActive = false) (hd : s.df.state ≠ .hunt) :
    s.frameLenPos = (BitVec.ofNat 11 s.df.plen.toNat, s.df.pos) := by
  simp [State.frameLenPos, h, hd]

/-- Settles O13: each field is cut from its place in the word; FRAME is split as R32 does. -/
theorem readOnlyRegistersReportTheirFields : Obligations.ReadOnlyRegistersReportTheirFields := by
  refine ⟨⟨rfl, rfl, by decide⟩, fun s => ⟨?seq, rfl, ⟨rfl, rfl, rfl⟩, ?xfer, ?frame, ?evt, ?rxcnt⟩⟩
  case seq =>
    unfold regValue State.seqWord
    simp (disch := omega) only [BitVec.extractLsb'_append_eq_of_le, BitVec.extractLsb'_append_eq_of_add_le,
      Nat.reduceSub, BitVec.extractLsb'_eq_self, true_and]
  case xfer =>
    have hword : regValue s .xfer = (if s.active then s.head.xfer else 0).setWidth 32 := xferWord_eq_setWidth s
    rw [hword]
    exact ⟨extractLsb'_setWidth_low _ (by decide), extractLsb'_setWidth_high _ _⟩
  case frame =>
    unfold regValue State.frameWord
    simp (disch := omega) only [BitVec.extractLsb'_append_eq_of_le, BitVec.extractLsb'_append_eq_of_add_le,
      Nat.reduceSub, BitVec.extractLsb'_eq_self]
    refine ⟨fun h => ?_, fun h hd => ?_, fun h hd => ?_, trivial, trivial⟩
    · rw [frameLenPos_of_read h]; exact ⟨rfl, rfl⟩
    · rw [frameLenPos_of_hunt h hd]; rfl
    · rw [frameLenPos_of_frame h hd]; exact ⟨rfl, rfl⟩
  case evt =>
    unfold regValue EvtLatch.word
    simp (disch := omega) only [BitVec.extractLsb'_append_eq_of_le, BitVec.extractLsb'_append_eq_of_add_le,
      Nat.reduceSub, BitVec.extractLsb'_eq_self, true_and]
  case rxcnt => exact ⟨extractLsb'_setWidth_low _ (by decide), extractLsb'_setWidth_high _ _⟩

/-! ## Reads -/

/-- Settles O14: a read is `setData` of the value, and the value of a write-only register is 0. -/
theorem registerReadHasNoSideEffect : Obligations.RegisterReadHasNoSideEffect :=
  ⟨fun _ _ _ => rfl, fun _ => ⟨rfl, rfl⟩⟩

theorem exec_sfifoPop (s : State) :
    exec .sfifoPop s = .next (setData (sfifoWord s.sfifo) { s with sfifo := s.sfifo.tail }) := rfl

/-- R35: the fields of the word are those of the FIFO before the pop. -/
theorem sfifoWord_cons_toNat (v : Byte) {rest : List Byte} (h : rest.length < 8) :
    (sfifoWord (v :: rest)).toNat = (rest.length + 1) * 2 ^ 12 + 2 ^ 8 + v.toNat := by
  have hcount : (BitVec.ofNat 4 (rest.length + 1)).toNat = rest.length + 1 := by
    rw [BitVec.toNat_ofNat]; omega
  simp only [sfifoWord, toNat_append_eq_add, hcount]
  simp
  omega

/-- Settles O19: the pop answers `sfifoWord` of the FIFO and leaves its tail, which is the empty FIFO again when it was
empty. -/
theorem sfifoReadPopsTheOldest : Obligations.SfifoReadPopsTheOldest := by
  refine fun s => ⟨fun hnil => ?_, fun _ => rfl, fun v rest hcons hlen => ⟨sfifoWord (v :: rest), ?_, ?_⟩⟩
  · rw [exec_sfifoPop, hnil]
    rfl
  · rw [exec_sfifoPop, hcons]
    rfl
  · rw [hcons] at hlen
    exact sfifoWord_cons_toNat v hlen

/-! ## Writes -/

/-- R18: CTRL keeps the three low bits of the word. -/
theorem regValue_writeReg_ctrl (v : Word) (s : State) :
    regValue (writeReg .ctrl v s) .ctrl = (v.extractLsb' 0 3).setWidth 32 := by
  apply BitVec.eq_of_getLsbD_eq
  intro i _
  simp only [regValue, writeReg, Settings.ctrlWord, BitVec.getLsbD_append]
  rcases i with _ | _ | _ | i <;> simp

theorem regValue_writeReg_same {r : Reg} (v : Word) (s : State) (h : writableBits r ≠ 0) :
    regValue (writeReg r v s) r = v &&& writableBits r := by
  cases r with
  | ctrl => exact (regValue_writeReg_ctrl v s).trans (setWidth_extractLsb'_zero v (by decide))
  | retry | tack | trx | taskOff | taskLen => exact setWidth_extractLsb'_zero v (by decide)
  | baudReq => exact BitVec.and_allOnes.symm
  | _ => exact absurd rfl h

theorem regValue_writeReg_other {r r' : Reg} (v : Word) (s : State) (h : r' ≠ r) :
    regValue (writeReg r v s) r' = regValue s r' := by
  cases r with
  | ctrl => cases r' with | ctrl => exact absurd rfl h | _ => rfl
  | retry => cases r' with | retry => exact absurd rfl h | _ => rfl
  | tack => cases r' with | tack => exact absurd rfl h | _ => rfl
  | trx => cases r' with | trx => exact absurd rfl h | _ => rfl
  | taskOff => cases r' with | taskOff => exact absurd rfl h | _ => rfl
  | taskLen => cases r' with | taskLen => exact absurd rfl h | _ => rfl
  | baudReq => cases r' with | baudReq => exact absurd rfl h | _ => rfl
  | _ => rfl

theorem writeReg_of_readOnly {r : Reg} (v : Word) (s : State) (h : writableBits r = 0) : writeReg r v s = s := by
  cases r with
  | ctrl | retry | tack | trx | taskOff | taskLen | baudReq => exact absurd h (by decide)
  | _ => rfl

theorem writeReg_frame (r : Reg) (v : Word) (s : State) :
    writeReg r v s
      = { s with settings := (writeReg r v s).settings, operands := (writeReg r v s).operands } := by
  cases r <;> rfl

/-- Settles O15, a rule of `writeReg` for each of its clauses. -/
theorem registerWriteStoresItsWritableBits : Obligations.RegisterWriteStoresItsWritableBits :=
  fun s r v _ => ⟨writeReg r v s, rfl, writeReg_frame r v s, fun _ => regValue_writeReg_other v s,
    regValue_writeReg_same v s, writeReg_of_readOnly v s⟩

/-- R27: a flag stays where the written bit is 0; the bits above the six flags are 0 before and after. -/
theorem ErrFlags.word_clearOnes (e : ErrFlags) (v : Word) : (e.clearOnes v).word = e.word &&& ~~~v := by
  apply BitVec.eq_of_getLsbD_eq
  intro n hn
  simp only [ErrFlags.word, ErrFlags.clearOnes, BitVec.getLsbD_append, BitVec.getLsbD_and, BitVec.getLsbD_not, hn]
  rcases n with _ | _ | _ | _ | _ | _ | n <;> simp

/-- Settles O16. -/
theorem errWriteClearsTheWrittenOnes : Obligations.ErrWriteClearsTheWrittenOnes :=
  fun s v => ⟨_, rfl, rfl, s.err.word_clearOnes v⟩

/-- Settles O18: bit 0 alone decides between `clearEvent` and the state as it is, and EVT_CLR reads 0. -/
theorem evtClrEmptiesTheLatch : Obligations.EvtClrEmptiesTheLatch := fun _ _ => ⟨rfl, rfl⟩

end Sys2Proof.Machine
end

section
/-! The sticky error flags (R27): no command and no quiet step clears one. -/

namespace Sys2Proof.Machine

/-- The bits of the ERR word follow the flags. -/
theorem ErrFlags.SetOnly.getLsbD_word {d e : ErrFlags} (h : d.SetOnly e) (n : Nat) :
    d.word.getLsbD n = true → e.word.getLsbD n = true := by
  simp only [ErrFlags.word, BitVec.getLsbD_append]
  rcases n with _ | _ | _ | _ | _ | _ | n
  · simpa using h.submit
  · simpa using h.rxOvf
  · simpa using h.baud
  · simpa using h.evtOvf
  · simpa using h.cmd
  · simpa using h.access
  · simp

/-- A POLL sets EVT_OVF and BAUD_ERR at most, and touches no other flag. -/
theorem PollKeeps.setOnly {s t : State} (h : PollKeeps s t) : s.err.SetOnly t.err where
  submit := by rw [h.err]; exact id
  rxOvf := by rw [h.err]; exact id
  baud := h.baud
  evtOvf := h.evtOvf
  cmd := by rw [h.err]; exact id
  access := by rw [h.err]; exact id

theorem execPoll_keeps {s t : State} (h : exec .poll s = .next t) : PollKeeps s t := by
  cases h
  split
  · exact pollPhases_keep s
  · exact PollKeeps.rfl' s

theorem raiseCmdError_setOnly (s : State) : s.err.SetOnly (raiseCmdError s).err :=
  ⟨id, id, id, id, fun _ => rfl, id⟩

theorem submit_setOnly (d : Dir) (s : State) : s.err.SetOnly (submit d s).err := by
  unfold submit
  split
  · exact ⟨fun _ => rfl, id, id, id, id, id⟩
  · exact ErrFlags.SetOnly.rfl' s.err

theorem CommandRow.setOnly {w : Word} {i : Instr} {s t : State} (hi : CommandRow w i) (h : exec i s = .next t) :
    s.err.SetOnly t.err := by
  cases hi with
  | init => cases h; exact ErrFlags.SetOnly.rfl' s.err
  | deinit => cases h; split <;> exact ErrFlags.SetOnly.rfl' s.err
  | poll => exact (execPoll_keeps h).setOnly
  | submitRead => cases h; exact submit_setOnly .read s
  | submitWrite => cases h; exact submit_setOnly .write s
  | baudSet =>
    cases h
    split
    · exact ErrFlags.SetOnly.rfl' s.err
    · exact raiseCmdError_setOnly s
  | invalid w => cases h; exact raiseCmdError_setOnly s

theorem ErrFlags.SetOnly.not_cleared {s t : State} {n : Nat} (h : s.err.SetOnly t.err)
    (hset : (regValue s .err).getLsbD n = true) (hclear : (regValue t .err).getLsbD n = false) : False := by
  have hstill : (regValue t .err).getLsbD n = true := h.getLsbD_word n hset
  simp [hstill] at hclear

/-- Settles O17, over the cases of an agent step: a RESET, a command, an ERR write, whose word is the old one without the
written bits, or a quiet step. -/
theorem errorFlagsAreSticky : Obligations.ErrorFlagsAreSticky := by
  intro s t i rest n hin hstep _ hset hclear
  rw [step_of_inputs_cons hin] at hstep
  rcases inputStep_cases hstep with hreset | ⟨w, hw⟩ | ⟨v, hv, rfl⟩ | hquiet
  · exact .inl hreset
  · rw [hw, exec_cmdWrite] at hstep
    exact (((decodeCmd_commandRow w).setOnly hstep).not_cleared (s := s.withInputs rest) hset hclear).elim
  · refine .inr ⟨v, hv, ?_⟩
    have hword : (s.err.word &&& ~~~v).getLsbD n = false := by
      rw [← ErrFlags.word_clearOnes]; exact hclear
    have hold : s.err.word.getLsbD n = true := hset
    have hn : n < 32 := BitVec.lt_of_getLsbD hold
    simpa [hold, hn] using hword
  · exact (hquiet.err.not_cleared (s := s.withInputs rest) hset hclear).elim

end Sys2Proof.Machine
end

section
/-! The connection (R37): the one procedure that changes it inside a POLL is `hsConnect`, met by a SIG_C that P1 drains
while DETECTING (R69). -/

namespace Sys2Proof.Machine

/-- CONN and FIRST_CONNECT. -/
def State.link (s : State) : Conn × Bool := (s.conn, s.firstConnect)

/-! ## Procedures that leave the connection alone -/

theorem txFail_link (s : State) : (txFail s).link = s.link := by
  unfold txFail
  split <;> simp [State.link]

theorem txAck_link (s : State) : (txAck s).link = s.link := by
  unfold txAck txContinue
  split <;> simp [State.link]

theorem txStart_link (s : State) : (txStart s).link = s.link := by
  unfold txStart
  split <;> simp [State.link]

theorem rxFail_link (s : State) : (rxFail s).link = s.link := by
  unfold rxFail
  split
  · split <;> simp [State.link]
  · rfl

theorem rxAccept_link (s : State) : (rxAccept s).link = s.link := by
  unfold rxAccept rxReached rxBegun
  rw [rxStore_eq]
  split <;> split <;> simp [State.link]

theorem sequenceFrame_link (s : State) : (sequenceFrame s).link = s.link := by
  unfold sequenceFrame
  split
  · exact rxAccept_link s
  · split
    · rfl
    · split
      · split
        · simp [State.link]
        · exact rxFail_link s
      · rfl

theorem frameEnd_link (b : Byte) (s : State) : (frameEnd b s).link = s.link := by
  unfold frameEnd
  split
  · exact sequenceFrame_link _
  · exact rxFail_link s

theorem deframe_link (b : Byte) (s : State) : (deframe b s).link = s.link := by
  unfold deframe deframeAt
  split
  · rfl
  · rfl
  · rfl
  · rfl
  · rfl
  · exact frameEnd_link b _

theorem headerByte_link (b : Byte) (s : State) : (headerByte b s).link = s.link := by
  have hstart : ∀ k, (if s.readActive then s else frameStart k s).link = s.link := by
    intro k; split <;> rfl
  unfold headerByte
  split
  · exact hstart .short
  · split
    · exact hstart .long
    · split
      · unfold wireAck; split
        · exact txAck_link s
        · rfl
      · split
        · unfold wireNak; split
          · exact txFail_link s
          · rfl
        · split
          · unfold wireCan; split
            · simp [State.link]
            · rfl
          · split <;> rfl

theorem timers_link (s : State) : (timers s).link = s.link := by
  have hpartial : (partialFrameTimer s).link = s.link := by
    unfold partialFrameTimer
    split
    · exact rxFail_link _
    · rfl
  unfold timers
  split
  · unfold sigATimer; split <;> rfl
  · unfold ackTimer
    split
    · exact (txFail_link _).trans hpartial
    · exact hpartial

theorem tryBaud_link (s : State) : (tryBaud s).link = s.link := by
  unfold tryBaud applyBaud
  split
  · split <;> rfl
  · rfl

theorem setStage_link (g : Stage) (s : State) : (setStage g s).link = s.link := by
  simp [State.link]

theorem bridge_link (s : State) : (bridge s).link = s.link := by
  unfold bridge
  split
  · exact setStage_link _ _
  · exact setStage_link _ s
  · exact (setStage_link _ _).trans (tryBaud_link s)
  · exact (setStage_link _ _).trans (tryBaud_link s)
  · split
    · rfl
    · exact tryBaud_link s
  all_goals rfl

theorem activate_link (s : State) : (activate s).link = s.link := by
  unfold activate
  split
  · exact setStage_link _ _
  · rfl

/-! ## P1 and the whole POLL -/

/-- A handshake among the bytes `bs` leads from `s` to `t`. -/
structure Connects (bs : List Byte) (s t : State) : Prop where
  before : s.conn = .detecting
  sigC : (0x43 : Byte) ∈ bs
  after : t.link = (.connected, false)

theorem rxByte_link (b : Byte) (s : State) : (rxByte b s).link = s.link ∨ Connects [b] s (rxByte b s) := by
  unfold rxByte State.wireCtx
  cases hc : s.conn with
  | detecting =>
    by_cases hb : b = 0x43
    · simp only [hb, if_true]
      exact .inr ⟨hc, List.mem_singleton.mpr rfl, rfl⟩
    · simp only [hb, if_false]
      exact .inl rfl
  | connected =>
    by_cases hd : s.df.state = .hunt
    · simp only [hd, if_true]
      exact .inl (headerByte_link b s)
    · simp only [hd, if_false]
      exact .inl (deframe_link b s)

/-- R69: P1 connects at most once, for a connected block takes no SIG_C. -/
theorem drain_link (bs : List Byte) (s : State) : (drain bs s).link = s.link ∨ Connects bs s (drain bs s) := by
  induction bs generalizing s with
  | nil => exact .inl rfl
  | cons b rest ih =>
    have hrest := ih (rxByte b { s with rxq := rest })
    rw [drain]
    rcases rxByte_link b { s with rxq := rest } with hsame | ⟨hdet, hb, hcon⟩
    · rcases hrest with hsame' | ⟨hdet', hrest, hcon⟩
      · exact .inl (hsame'.trans hsame)
      · exact .inr ⟨(congrArg Prod.fst hsame).symm.trans hdet', List.mem_cons_of_mem b hrest, hcon⟩
    · have hmem : (0x43 : Byte) ∈ b :: rest := List.mem_append_left rest hb
      rcases hrest with hsame' | ⟨hdet', -, -⟩
      · exact .inr ⟨hdet, hmem, hsame'.trans hcon⟩
      · have hboth : Conn.detecting = .connected := hdet'.symm.trans (congrArg Prod.fst hcon)
        cases hboth

/-- The phases after P1 leave the connection as P1 left it. -/
theorem pollPhases_link (s : State) :
    (activate (bridge (txStart (timers (drain s.rxq s))))).link = (drain s.rxq s).link := by
  rw [activate_link, bridge_link, txStart_link, timers_link]

/-! ## One agent step -/

/-- What a step for the agent step `i` does to the connection. -/
inductive LinkStep (i : Input) (s t : State) : Prop
  | same (link : t.link = s.link)
  | connect (enabled : s.en = true) (row : decodeInput i = .cmdWrite 0x03000000) (sigC : Connects s.rxq s t)
  | drop (row : decodeInput i = .cmdWrite 0x01000000 ∨ decodeInput i = .cmdWrite 0x02000000)
      (link : t.link = (.detecting, s.firstConnect))
  | reset (input : i = .reset) (link : t.link = (.detecting, true))

theorem execPoll_linkStep {i : Input} {s t : State} (hi : decodeInput i = .cmdWrite 0x03000000)
    (h : exec .poll s = .next t) : LinkStep i s t := by
  cases h
  split
  · rename_i he
    rcases drain_link s.rxq s with hsame | ⟨hdet, hmem, hcon⟩
    · exact .same ((pollPhases_link s).trans hsame)
    · exact .connect he hi ⟨hdet, hmem, (pollPhases_link s).trans hcon⟩
  · exact .same rfl

theorem CommandRow.linkStep {w : Word} {i : Input} {c : Instr} {s t : State} (hc : CommandRow w c)
    (hi : decodeInput i = .cmdWrite w) (h : exec c s = .next t) : LinkStep i s t := by
  cases hc with
  | init => cases h; exact .drop (.inl hi) rfl
  | deinit =>
    cases h
    split
    · exact .drop (.inr hi) rfl
    · exact .same rfl
  | poll => exact execPoll_linkStep hi h
  | submitRead | submitWrite => cases h; unfold submit; split <;> exact .same rfl
  | baudSet => cases h; split <;> exact .same rfl
  | invalid w => cases h; exact .same rfl

theorem exec_linkStep {i : Input} {s t : State} (h : exec (decodeInput i) s = .next t) : LinkStep i s t := by
  rcases inputStep_cases h with hreset | ⟨w, hw⟩ | ⟨v, -, rfl⟩ | hquiet
  · subst hreset
    cases h
    exact .reset rfl rfl
  · rw [hw, exec_cmdWrite] at h
    exact (decodeCmd_commandRow w).linkStep hw h
  · exact .same rfl
  · exact .same (Prod.ext hquiet.conn hquiet.firstConnect)

theorem LinkStep.of_withInputs {i : Input} {rest : List Input} {s t : State}
    (h : LinkStep i (s.withInputs rest) t) : LinkStep i s t := by
  cases h with
  | same hlink => exact .same hlink
  | connect he hrow hsig => exact .connect he hrow ⟨hsig.before, hsig.sigC, hsig.after⟩
  | drop hrow hlink => exact .drop hrow hlink
  | reset hi hlink => exact .reset hi hlink

theorem step_linkStep {i : Input} {rest : List Input} {s t : State} (hin : s.env.inputs = i :: rest)
    (hstep : step s = .next t) : LinkStep i s t := by
  rw [step_of_inputs_cons hin] at hstep
  exact (exec_linkStep hstep).of_withInputs

theorem conn_firstConnect_of_link {t : State} {c : Conn} {first : Bool} (h : t.link = (c, first)) :
    t.conn = c ∧ t.firstConnect = first :=
  Prod.mk.inj h

/-- Settles O60, over the cases of `LinkStep`: in each, the clauses of the other changes have no hypothesis left. -/
theorem connectionChangesOnlyAsListed : Obligations.ConnectionChangesOnlyAsListed := by
  intro s t i rest hin hstep
  cases step_linkStep hin hstep with
  | same hlink =>
    obtain ⟨hconn, hfirst⟩ := conn_firstConnect_of_link hlink
    simp +contextual [hconn, hfirst]
  | connect he hrow hsig =>
    obtain ⟨hconn, hfirst⟩ := conn_firstConnect_of_link hsig.after
    exact ⟨fun _ _ => ⟨he, hrow, hsig.sigC, hfirst⟩, by simp [hconn], by simp [hfirst],
      fun _ _ => ⟨hsig.before, hconn⟩⟩
  | drop hrow hlink =>
    obtain ⟨hconn, hfirst⟩ := conn_firstConnect_of_link hlink
    exact ⟨by simp [hconn], fun _ _ => .inr hrow, by simp +contextual [hfirst], by simp +contextual [hfirst]⟩
  | reset hi hlink =>
    obtain ⟨hconn, hfirst⟩ := conn_firstConnect_of_link hlink
    exact ⟨by simp [hconn], fun _ _ => .inl hi, fun _ _ => hi, by simp [hfirst]⟩

end Sys2Proof.Machine
end

section
/-! The address map (R39): the window of bus addresses, the register page and its registers (R17, R41, R42), and the
scratch window (R43). -/

namespace Sys2Proof.Machine

/-! ## The window -/

theorem windowOffset_outside {base addr : Nat} (h : addr < base ∨ base + 0x20000 ≤ addr) :
    windowOffset base addr = none :=
  if_neg (by omega)

/-- At an aligned BASE the offset is the low 17 bits of the bus address. -/
theorem windowOffset_of_aligned {base addr : Nat} (hlo : base ≤ addr) (hhi : addr < base + 0x20000)
    (hbase : base % 0x20000 = 0) : windowOffset base addr = some (BitVec.ofNat 17 addr) := by
  have hlow : BitVec.ofNat 17 (addr - base) = BitVec.ofNat 17 addr := by
    apply BitVec.eq_of_toNat_eq
    rw [BitVec.toNat_ofNat, BitVec.toNat_ofNat]
    omega
  rw [windowOffset, if_pos ⟨hlo, hhi⟩, hlow]

/-! ## The shape of an access -/

/-- R39: bit 16 of the offset tells the register page from the scratch window. -/
theorem inRegisterPage_iff {a : BusAccess} : a.inRegisterPage = true ↔ a.off.toNat < 0x10000 := by
  have hlt := a.off.isLt
  rw [BusAccess.inRegisterPage, beq_iff_eq, ← BitVec.toNat_inj, BitVec.extractLsb'_toNat,
    Nat.shiftRight_eq_div_pow]
  change a.off.toNat / 65536 % 2 = 0 ↔ _
  omega

theorem wordAligned_iff {a : BusAccess} :
    a.wordAligned = true ↔ a.size = .b4 ∧ a.off.toNat % 4 = 0 := by
  have hlow : a.off.extractLsb' 0 2 = 0 ↔ a.off.toNat % 4 = 0 := by
    rw [← BitVec.toNat_inj, BitVec.extractLsb'_toNat]
    rfl
  rw [BusAccess.wordAligned, Bool.and_eq_true, beq_iff_eq, beq_iff_eq, hlow]

/-! ## The registers -/

theorem reg_offset_lt (r : Reg) : r.offset.toNat < 0x54 := by
  cases r <;> decide

/-- R17: the 21 registers stand at the words below 0x054, none left out. -/
theorem exists_reg_of_word : ∀ n < 21, ∃ r ∈ Reg.all, r.offset = BitVec.ofNat 17 (4 * n) := by
  decide

theorem exists_reg_of_offset {off : BitVec 17} (h : off.toNat < 0x54) (hw : off.toNat % 4 = 0) :
    ∃ r : Reg, r.offset = off := by
  obtain ⟨r, -, hr⟩ := exists_reg_of_word (off.toNat / 4) (by omega)
  refine ⟨r, hr.trans (BitVec.eq_of_toNat_eq ?_)⟩
  rw [BitVec.toNat_ofNat]
  omega

theorem regAt_of_ge {off : BitVec 17} (h : 0x54 ≤ off.toNat) : regAt off = none := by
  refine List.find?_eq_none.mpr fun r _ he => ?_
  have hr := reg_offset_lt r
  rw [beq_iff_eq.mp he] at hr
  omega

/-! ## The decoder's four regions -/

theorem decodeBus_scratch {a : BusAccess} (h : 0x10000 ≤ a.off.toNat) : decodeBus a = decodeScratchAccess a :=
  if_neg (by rw [inRegisterPage_iff]; omega)

theorem decodeBus_bad {a : BusAccess} (hp : a.off.toNat < 0x10000) (hw : ¬(a.size = .b4 ∧ a.off.toNat % 4 = 0)) :
    decodeBus a = .regBadAccess a := by
  rw [decodeBus, if_pos (inRegisterPage_iff.mpr hp), if_neg (mt wordAligned_iff.mp hw)]

theorem decodeBus_unmapped {a : BusAccess} (hp : a.off.toNat < 0x10000) (hw : a.size = .b4 ∧ a.off.toNat % 4 = 0)
    (hr : regAt a.off = none) : decodeBus a = .regUnmapped a := by
  rw [decodeBus, if_pos (inRegisterPage_iff.mpr hp), if_pos (wordAligned_iff.mpr hw), hr]

theorem decodeBus_register {a : BusAccess} {r : Reg} (hp : a.off.toNat < 0x10000)
    (hw : a.size = .b4 ∧ a.off.toNat % 4 = 0) (hr : regAt a.off = some r) : decodeBus a = decodeRegAccess r a := by
  rw [decodeBus, if_pos (inRegisterPage_iff.mpr hp), if_pos (wordAligned_iff.mpr hw), hr]

/-- R39: the scratch byte of an offset in the scratch window. -/
theorem setWidth_of_scratch {off : BitVec 17} (h : 0x10000 ≤ off.toNat) :
    off.setWidth 16 = BitVec.ofNat 16 (off.toNat - 0x10000) := by
  apply BitVec.eq_of_toNat_eq
  rw [BitVec.toNat_setWidth, BitVec.toNat_ofNat]
  omega

/-- Settles O9, a lemma for each part of the window and each region of the map; the register of the last region is the
one `exists_reg_of_offset` finds. -/
theorem busAccessesDecodeByTheMap : Obligations.BusAccessesDecodeByTheMap := by
  refine ⟨fun base addr => ⟨windowOffset_outside, windowOffset_of_aligned⟩, fun a =>
    ⟨fun hs => ?scratch, decodeBus_bad, fun hlo hhi hsize hw => ?unmapped, fun hlt hsize hw => ?register⟩⟩
  case scratch =>
    rw [decodeBus_scratch hs]
    cases a with
    | read size off => exact congrArg (Instr.scrRead size) (setWidth_of_scratch hs)
    | write size off v => exact congrArg (Instr.scrWrite size · v) (setWidth_of_scratch hs)
  case unmapped => exact decodeBus_unmapped hhi ⟨hsize, hw⟩ (regAt_of_ge hlo)
  case register =>
    obtain ⟨r, hr⟩ := exists_reg_of_offset hlt hw
    have hat : regAt a.off = some r := hr ▸ Laws.RoundTrip.regAt_offset r
    refine ⟨r, hr, ?_⟩
    rw [decodeBus_register (by omega) ⟨hsize, hw⟩ hat]
    cases a <;> rfl

end Sys2Proof.Machine
end

section
/-! Accesses of the scratch window (R43, R46), and the accesses of the register page that break the rules (R41, R42). -/

namespace Sys2Proof.Machine

theorem naturallyAligned_iff {k : BitVec 16} {size : Size} :
    naturallyAligned k size = true ↔ k.toNat % size.bytes = 0 :=
  beq_iff_eq

/-! ## Reads -/

theorem exec_scrRead_aligned {k : BitVec 16} {size : Size} (s : State) (h : k.toNat % size.bytes = 0) :
    exec (.scrRead size k) s = .next (setData (s.memRead k size) s) := by
  change execScrRead size k s = _
  rw [execScrRead, if_pos (naturallyAligned_iff.mpr h)]

theorem exec_scrRead_misaligned {k : BitVec 16} {size : Size} (s : State) (h : k.toNat % size.bytes ≠ 0) :
    exec (.scrRead size k) s = .next (setData 0 (raiseAccessError s)) := by
  change execScrRead size k s = _
  rw [execScrRead, if_neg (mt naturallyAligned_iff.mp h)]

/-- R46: byte `i` of the data is the byte `i` offsets above `k`. -/
theorem memRead_extractLsb' (s : State) (k : BitVec 16) {size : Size} {i : Nat} (h : i < size.bytes) :
    (s.memRead k size).extractLsb' (8 * i) 8 = s.scratchByte (k + BitVec.ofNat 16 i) := by
  cases size with
  | b1 =>
    have hi : i < 1 := h
    interval_cases i
    exact (extractLsb'_setWidth_low _ (by decide)).trans (by simp)
  | b2 =>
    have hi : i < 2 := h
    rw [State.memRead, BitVec.extractLsb'_setWidth_of_le (by omega)]
    interval_cases i <;> simp (disch := omega) only [BitVec.extractLsb'_append_eq_of_le,
      BitVec.extractLsb'_append_eq_of_add_le, Nat.reduceMul, Nat.reduceSub, BitVec.extractLsb'_eq_self,
      BitVec.add_zero, BitVec.ofNat_eq_ofNat]
  | b4 =>
    have hi : i < 4 := h
    rw [State.memRead]
    interval_cases i <;> simp (disch := omega) only [BitVec.extractLsb'_append_eq_of_le,
      BitVec.extractLsb'_append_eq_of_add_le, Nat.reduceMul, Nat.reduceSub, BitVec.extractLsb'_eq_self,
      BitVec.add_zero, BitVec.ofNat_eq_ofNat]

/-- The lines above a narrow read are 0 (log entry 14). -/
theorem memRead_toNat_lt (s : State) (k : BitVec 16) (size : Size) :
    (s.memRead k size).toNat < 256 ^ size.bytes := by
  cases size with
  | b1 => exact (BitVec.toNat_setWidth_of_le (by decide)).trans_lt (BitVec.isLt _)
  | b2 => exact (BitVec.toNat_setWidth_of_le (by decide)).trans_lt (BitVec.isLt _)
  | b4 => exact BitVec.isLt _

/-- Settles O21, by the alignment; the data of an aligned access is `memRead`. -/
theorem scratchReadIsLittleEndian : Obligations.ScratchReadIsLittleEndian := fun s size k =>
  ⟨fun h => ⟨s.memRead k size, exec_scrRead_aligned s h, fun _ => memRead_extractLsb' s k,
      memRead_toNat_lt s k size⟩,
    exec_scrRead_misaligned s⟩

/-! ## Writes -/

theorem exec_scrWrite_aligned {k : BitVec 16} {size : Size} (v : Word) (s : State) (h : k.toNat % size.bytes = 0) :
    exec (.scrWrite size k v) s = .next (memWrite k size v s) := by
  change execScrWrite size k v s = _
  rw [execScrWrite, if_pos (naturallyAligned_iff.mpr h)]

theorem exec_scrWrite_misaligned {k : BitVec 16} {size : Size} (v : Word) (s : State)
    (h : k.toNat % size.bytes ≠ 0) : exec (.scrWrite size k v) s = .next (raiseAccessError s) := by
  change execScrWrite size k v s = _
  rw [execScrWrite, if_neg (mt naturallyAligned_iff.mp h)]

@[simp] theorem lowBytes_length (v : Word) (size : Size) : (lowBytes v size).length = size.bytes := by
  cases size <;> rfl

/-- R46: byte `i` stored is byte `i` of the data. -/
theorem lowBytes_getElem (v : Word) {size : Size} {i : Nat} (h : i < (lowBytes v size).length) :
    (lowBytes v size)[i] = v.extractLsb' (8 * i) 8 := by
  cases size with
  | b1 =>
    have hi : i < 1 := h
    interval_cases i
    rfl
  | b2 =>
    have hi : i < 2 := h
    interval_cases i <;> rfl
  | b4 =>
    have hi : i < 4 := h
    interval_cases i <;> rfl

theorem memWrite_scratchByte_inside (k : BitVec 16) (v : Word) (s : State) {size : Size} {i : Nat}
    (h : i < size.bytes) : (memWrite k size v s).scratchByte (k + BitVec.ofNat 16 i) = v.extractLsb' (8 * i) 8 := by
  have hi : i < (lowBytes v size).length := by simpa using h
  have hlen : (lowBytes v size).length ≤ Config.scratchSize := by rw [lowBytes_length]; cases size <;> decide
  exact (storeBytes_scratchByte_inside _ s hi hlen).trans (lowBytes_getElem v hi)

theorem memWrite_scratchByte_outside {k a : BitVec 16} {size : Size} (v : Word) (s : State)
    (h : ∀ i < size.bytes, a ≠ k + BitVec.ofNat 16 i) : (memWrite k size v s).scratchByte a = s.scratchByte a :=
  storeBytes_scratchByte_outside _ s (by simpa using h)

/-- Settles O22, by the alignment; an aligned access stores the run `lowBytes`, whose rules are those of `storeBytes`. -/
theorem scratchWriteStoresLittleEndian : Obligations.ScratchWriteStoresLittleEndian := fun s size k v =>
  ⟨fun h => ⟨memWrite k size v s, exec_scrWrite_aligned v s h, storeBytes_eq k (lowBytes v size) s,
      fun _ => memWrite_scratchByte_inside k v s, fun _ => memWrite_scratchByte_outside v s⟩,
    exec_scrWrite_misaligned v s⟩

/-! ## Refused accesses of the register page -/

/-- Settles O23: both rows are `refuseAccess`, whose two cases are the direction of the access. -/
theorem badAccessesOnlySetAccessErr : Obligations.BadAccessesOnlySetAccessErr := fun _ _ _ _ =>
  ⟨rfl, rfl, rfl, rfl⟩

end Sys2Proof.Machine
end

section
/-! What an operation does to the scratch RAM (R40, R45): those that store nothing, and P1 of a POLL, which stores only
inside the region of the active WRITE task (R85). -/

namespace Sys2Proof.Machine

/-! ## The active region -/

/-- The scratch bytes that a WRITE task may fill (R45). -/
def Task.fills (t : Task) (a : BitVec 16) : Prop :=
  t.dir = .write ∧ t.off.toNat ≤ a.toNat ∧ a.toNat < t.off.toNat + t.len.toNat

/-- The region of the WRITE task that is active. -/
def State.inActiveRegion (s : State) (a : BitVec 16) : Prop := s.active = true ∧ s.head.fills a

theorem inActiveRegion_of_same {s t : State} (ha : t.active = s.active) (hq : t.taskq = s.taskq) (a : BitVec 16) :
    t.inActiveRegion a → s.inActiveRegion a := by
  unfold State.inActiveRegion
  rw [ha, head_congr hq]
  exact id

/-- The bytes counted in the head task are no part of its region. -/
theorem updateHead_xfer_fills (x : Task → BitVec 17) (s : State) (a : BitVec 16) :
    (updateHead (fun t => { t with xfer := x t }) s).head.fills a ↔ s.head.fills a := by
  cases hq : s.taskq with
  | nil => rw [head_congr ((updateHead_nil _ s hq).trans hq.symm)]
  | cons t rest =>
    rw [head_of_cons (updateHead_cons _ s t rest hq), head_of_cons hq]
    exact Iff.rfl

/-! ## Operations that store nothing -/

/-- The scratch RAM is left alone, and no region becomes active. -/
structure StoresNothing (s t : State) : Prop where
  scratch : t.scratch = s.scratch
  resets : t.env.resets = s.env.resets
  region : ∀ a, t.inActiveRegion a → s.inActiveRegion a

namespace StoresNothing

theorem refl (s : State) : StoresNothing s s := ⟨rfl, rfl, fun _ => id⟩

theorem trans {s t u : State} (h : StoresNothing s t) (k : StoresNothing t u) : StoresNothing s u :=
  ⟨k.scratch.trans h.scratch, k.resets.trans h.resets, fun a ha => h.region a (k.region a ha)⟩

theorem scratchByte {s t : State} (h : StoresNothing s t) (a : BitVec 16) : t.scratchByte a = s.scratchByte a :=
  scratchByte_congr h.scratch h.resets a

theorem of_same {s t : State} (hm : t.scratch = s.scratch) (hr : t.env.resets = s.env.resets)
    (ha : t.active = s.active) (hq : t.taskq = s.taskq) : StoresNothing s t :=
  ⟨hm, hr, inActiveRegion_of_same ha hq⟩

theorem of_idle {s t : State} (hm : t.scratch = s.scratch) (hr : t.env.resets = s.env.resets)
    (ha : t.active = false) : StoresNothing s t :=
  ⟨hm, hr, fun _ h => absurd h.1 (by simp [ha])⟩

end StoresNothing

theorem emit_storesNothing (b : Byte) (s : State) : StoresNothing s (emit b s) := .of_same rfl rfl rfl rfl

theorem setStage_storesNothing (g : Stage) (s : State) : StoresNothing s (setStage g s) :=
  .of_same (by simp) (by simp) (by simp) (by simp)

theorem abort_storesNothing (c : EvtCode) (can : Bool) (s : State) : StoresNothing s (abort c can s) :=
  .of_idle (by simp) (by simp) (by simp)

theorem txStage_storesNothing (s : State) : StoresNothing s (txStage s) := .of_same rfl rfl rfl rfl

theorem txFail_storesNothing (s : State) : StoresNothing s (txFail s) := by
  unfold txFail
  split
  · exact .of_same rfl rfl rfl rfl
  · exact abort_storesNothing _ _ s

theorem txAdvance_storesNothing (s : State) : StoresNothing s (txAdvance s) :=
  ⟨rfl, rfl, fun a ⟨hact, hfills⟩ =>
    ⟨hact, (updateHead_xfer_fills (fun t => t.xfer + s.tx.chunk.setWidth 17) s a).mp hfills⟩⟩

theorem txAck_storesNothing (s : State) : StoresNothing s (txAck s) := by
  refine (txAdvance_storesNothing s).trans ?_
  unfold txAck txContinue
  split
  · exact .of_same (by simp) (by simp) (by simp) (by simp)
  · exact txStage_storesNothing _

theorem txStart_storesNothing (s : State) : StoresNothing s (txStart s) := by
  unfold txStart
  split
  · exact (setStage_storesNothing _ s).trans (txStage_storesNothing _)
  · exact .refl s

theorem rxFail_storesNothing (s : State) : StoresNothing s (rxFail s) := by
  unfold rxFail
  split
  · split
    · exact .of_same rfl rfl rfl rfl
    · exact abort_storesNothing _ _ s
  · exact emit_storesNothing _ s

theorem rxAdvance_storesNothing (n : Nat) (s : State) : StoresNothing s (rxAdvance n s) :=
  ⟨rfl, rfl, fun a ⟨hact, hfills⟩ =>
    ⟨hact, (updateHead_xfer_fills (fun t => t.xfer + BitVec.ofNat 17 n) s a).mp hfills⟩⟩

theorem hsConnect_storesNothing (s : State) : StoresNothing s (hsConnect s) := .of_same rfl rfl rfl rfl

/-- R73: no byte at header position stores, whatever it is. -/
theorem headerByte_storesNothing (b : Byte) (s : State) : StoresNothing s (headerByte b s) := by
  have hstart : ∀ k, StoresNothing s (if s.readActive then s else frameStart k s) := by
    intro k
    split
    · exact .refl s
    · exact .of_same rfl rfl rfl rfl
  unfold headerByte
  split
  · exact hstart .short
  · split
    · exact hstart .long
    · split
      · unfold wireAck; split
        · exact txAck_storesNothing s
        · exact .refl s
      · split
        · unfold wireNak; split
          · exact txFail_storesNothing s
          · exact .refl s
        · split
          · unfold wireCan; split
            · exact abort_storesNothing _ _ s
            · exact .refl s
          · split <;> exact .refl s

theorem timers_storesNothing (s : State) : StoresNothing s (timers s) := by
  have hpartial : StoresNothing s (partialFrameTimer s) := by
    unfold partialFrameTimer
    split
    · have hhunt : StoresNothing s { s with df := { s.df with state := .hunt, pos := 0 } } :=
        .of_same rfl rfl rfl rfl
      exact hhunt.trans (rxFail_storesNothing _)
    · exact .refl s
  unfold timers
  split
  · unfold sigATimer
    split
    · exact .of_same rfl rfl rfl rfl
    · exact .refl s
  · unfold ackTimer
    split
    · exact hpartial.trans (txFail_storesNothing _)
    · exact hpartial

theorem tryBaud_storesNothing (s : State) : StoresNothing s (tryBaud s) := by
  unfold tryBaud applyBaud
  split
  · split <;> exact .of_same rfl rfl rfl rfl
  · exact .refl s

theorem bridge_storesNothing (s : State) : StoresNothing s (bridge s) := by
  unfold bridge
  split
  · exact .of_idle (by simp) (by simp) (by simp)
  · exact .of_idle (by simp) (by simp) (by simp)
  · exact (tryBaud_storesNothing s).trans (setStage_storesNothing _ _)
  · exact (tryBaud_storesNothing s).trans (setStage_storesNothing _ _)
  · split
    · exact .refl s
    · exact tryBaud_storesNothing s
  all_goals exact .refl s

/-- P5 makes a region active, but stores nothing in it (R112). -/
theorem activate_scratchByte (s : State) (a : BitVec 16) : (activate s).scratchByte a = s.scratchByte a := by
  unfold activate
  split
  · exact scratchByte_congr (by simp) (by simp) a
  · rfl

/-! ## The rows that store nothing -/

theorem submit_scratchByte (d : Dir) (s : State) (a : BitVec 16) : (submit d s).scratchByte a = s.scratchByte a := by
  unfold submit
  split <;> rfl

theorem writeReg_scratchByte (r : Reg) (v : Word) (s : State) (a : BitVec 16) :
    (writeReg r v s).scratchByte a = s.scratchByte a := by
  cases r <;> rfl

theorem refuseAccess_scratchByte (b : BusAccess) (s : State) (a : BitVec 16) :
    (refuseAccess b s).scratchByte a = s.scratchByte a := by
  cases b <;> rfl

/-- Settles O24, a case of the row each: a header row is `headerByte` of its byte, and most others store nothing as
written. -/
theorem onlyStoringInstructionsChangeScratch : Obligations.OnlyStoringInstructionsChangeScratch := by
  intro i s t h hi a
  cases i with
  | scrWrite | reset | poll | cmdWrite | frameByte | frameShort | frameLong => exact hi.elim
  | soh => cases h; exact (headerByte_storesNothing 0x01 s).scratchByte a
  | stx => cases h; exact (headerByte_storesNothing 0x02 s).scratchByte a
  | ack => cases h; exact (headerByte_storesNothing 0x06 s).scratchByte a
  | nak => cases h; exact (headerByte_storesNothing 0x15 s).scratchByte a
  | can => cases h; exact (headerByte_storesNothing 0x18 s).scratchByte a
  | sigC => cases h; exact (hsConnect_storesNothing s).scratchByte a
  | submitRead => cases h; exact submit_scratchByte .read s a
  | submitWrite => cases h; exact submit_scratchByte .write s a
  | regWrite r v => cases h; exact writeReg_scratchByte r v s a
  | regBadAccess b => cases h; exact refuseAccess_scratchByte b s a
  | regUnmapped b => cases h; exact refuseAccess_scratchByte b s a
  | deinit | baudSet | evtClr | scrRead => cases h; split <;> rfl
  | rxByte b =>
    cases h
    split
    · split <;> rfl
    · rfl
  | init | cmdInvalid | sigA | noise | detectOther | msTick | regRead | errW1c | sfifoPop => cases h; rfl

/-! ## P1 stores only inside the active region -/

/-- Every byte outside the active region reads as before, and the active region stays within itself. -/
structure StoresWithin (s t : State) : Prop where
  bytes : ∀ a, ¬ s.inActiveRegion a → t.scratchByte a = s.scratchByte a
  region : ∀ a, t.inActiveRegion a → s.inActiveRegion a

theorem StoresNothing.within {s t : State} (h : StoresNothing s t) : StoresWithin s t :=
  ⟨fun a _ => h.scratchByte a, h.region⟩

theorem StoresWithin.trans {s t u : State} (h : StoresWithin s t) (k : StoresWithin t u) : StoresWithin s u where
  bytes a ha := (k.bytes a (mt (h.region a) ha)).trans (h.bytes a ha)
  region a ha := h.region a (k.region a ha)

/-- The offsets of a task's bytes do not wrap (R121). -/
theorem TaskOk.next_add_toNat {t : Task} (h : TaskOk t) {i : Nat} (hi : t.xfer.toNat + i < t.len.toNat) :
    (t.next + BitVec.ofNat 16 i).toNat = t.off.toNat + t.xfer.toNat + i := by
  have hregion : t.off.toNat + t.len.toNat ≤ 65536 := h.region
  simp only [Task.next, BitVec.toNat_add, BitVec.toNat_setWidth, BitVec.toNat_ofNat]
  omega

/-- R85: the bytes of an accepted frame go to the next offsets of the active WRITE task. -/
theorem rxStore_storesWithin {s : State} (ht : TaskOk s.head) (hr : s.receiving = true) :
    StoresWithin s (rxStore s) := by
  obtain ⟨hact, hdir, -⟩ := receiving_iff.mp hr
  have hstore : StoresWithin s (storeBytes s.head.next (s.rxfb.take s.rxCount) s) := by
    refine ⟨fun a ha => storeBytes_scratchByte_outside _ s fun i hi he => ha ⟨hact, hdir, ?_⟩, fun a => ?_⟩
    · have hcount : i < s.rxCount := by
        rw [List.length_take] at hi
        omega
      have hlen := (rxCount_sum ht).2
      rw [he, ht.next_add_toNat (by omega)]
      omega
    · rw [storeBytes_eq]
      exact id
  exact hstore.trans (rxAdvance_storesNothing _ _).within

theorem rxAccept_storesWithin {s : State} (ht : TaskOk s.head) (hr : s.receiving = true) :
    StoresWithin s (rxAccept s) := by
  have hbegun : ∀ u, StoresNothing u (rxBegun u) := by
    intro u
    unfold rxBegun
    split
    · exact setStage_storesNothing _ u
    · exact .refl u
  have hreached : ∀ u, StoresNothing u (rxReached u) := by
    intro u
    unfold rxReached
    split
    · exact setStage_storesNothing _ u
    · exact .refl u
  exact (rxStore_storesWithin ht hr).trans
    (((emit_storesNothing _ _).trans (hbegun _)).trans (hreached _)).within

theorem sequenceFrame_storesWithin {s : State} (ht : s.active = true → TaskOk s.head) :
    StoresWithin s (sequenceFrame s) := by
  unfold sequenceFrame
  split
  · rename_i hacc
    have hr : s.receiving = true := (Bool.and_eq_true_iff.mp hacc).1
    exact rxAccept_storesWithin (ht (receiving_iff.mp hr).1) hr
  · split
    · exact (emit_storesNothing _ s).within
    · split
      · split
        · exact (abort_storesNothing _ _ s).within
        · exact (rxFail_storesNothing s).within
      · exact (emit_storesNothing _ s).within

theorem frameEnd_storesWithin (b : Byte) {s : State} (ht : s.active = true → TaskOk s.head) :
    StoresWithin s (frameEnd b s) := by
  unfold frameEnd
  split
  · have hs : StoresNothing s { s with lastRecvTime := s.now } := .of_same rfl rfl rfl rfl
    exact hs.within.trans (sequenceFrame_storesWithin ht)
  · exact (rxFail_storesNothing s).within

/-- R81: of the bytes of a frame, the last alone can store. -/
theorem deframe_storesWithin (b : Byte) {s : State} (ht : s.active = true → TaskOk s.head) :
    StoresWithin s (deframe b s) := by
  unfold deframe deframeAt
  cases (countByte s).df.state with
  | hunt | blk | nblk | data | crcLo => exact StoresNothing.within (.of_same rfl rfl rfl rfl)
  | crcHi =>
    have hs : StoresNothing s
        { countByte s with df := { (countByte s).df with state := .hunt, pos := 0 } } := .of_same rfl rfl rfl rfl
    exact hs.within.trans (frameEnd_storesWithin b ht)

theorem rxByte_storesWithin (b : Byte) {s : State} (ht : s.active = true → TaskOk s.head) :
    StoresWithin s (rxByte b s) := by
  unfold rxByte
  split
  · split
    · exact (hsConnect_storesNothing s).within
    · exact (StoresNothing.refl s).within
  · exact deframe_storesWithin b ht
  · exact (headerByte_storesNothing b s).within

theorem BlockInv.headOk {s : State} (h : BlockInv s) (ha : s.active = true) : TaskOk s.head := by
  obtain ⟨-, -, htask, -⟩ := h.headTask ha
  exact htask

/-- P1, over the bytes of the ring; the invariant gives each of them a head task in its region. -/
theorem drain_storesWithin {bs : List Byte} {s : State} (h : BlockInv s) (he : s.en = true)
    (hb : bs.length ≤ Config.rxqDepth) : StoresWithin s (drain bs s) := by
  induction bs generalizing s with
  | nil => exact (StoresNothing.refl s).within
  | cons b rest ih =>
    have hrest : rest.length ≤ Config.rxqDepth := (Nat.le_succ _).trans hb
    have hpop : StoresNothing s { s with rxq := rest } := .of_same rfl rfl rfl rfl
    have hinv : BlockInv { s with rxq := rest } := rxq_inv h hrest (by simp [he])
    have hen : (rxByte b { s with rxq := rest }).en = true := (rxByte_keeps b _).en.trans he
    exact (hpop.within.trans (rxByte_storesWithin b hinv.headOk)).trans (ih (rxByte_inv b hinv he) hen hrest)

/-- Settles O33, over the phases: P1 stores within the region, P2 to P5 store nothing. -/
theorem pollStoresOnlyInTheActiveRegion : Obligations.PollStoresOnlyInTheActiveRegion := by
  intro s t h hpoll a ha
  cases hpoll
  split
  · rename_i he
    have hafter : StoresNothing (drain s.rxq s) (bridge (txStart (timers (drain s.rxq s)))) :=
      ((timers_storesNothing _).trans (txStart_storesNothing _)).trans (bridge_storesNothing _)
    calc (activate (bridge (txStart (timers (drain s.rxq s))))).scratchByte a
        = (bridge (txStart (timers (drain s.rxq s)))).scratchByte a := activate_scratchByte _ a
      _ = (drain s.rxq s).scratchByte a := hafter.scratchByte a
      _ = s.scratchByte a := (drain_storesWithin h.inv he h.inv.rx.ring).bytes a ha
  · rfl

end Sys2Proof.Machine
end

section
/-! The encodings: the command words (R54), the values of the CRC (R61), the fields of a frame and what its two checks
fix (R58, R83, R84, R103), and a whole frame received (R58, R59, R81). -/

namespace Sys2Proof.Machine

/-! ## Command words -/

/-- Settles O8. A word of the table decodes to its row by evaluation; any other word has the row INVALID, the one row
that `CommandRow` leaves it. -/
theorem commandWordsDecodeByTheTable : Obligations.CommandWordsDecodeByTheTable := by
  intro w
  have hrow := decodeCmd_commandRow w
  split_ifs
  case neg =>
    generalize decodeCmd w = i at hrow ⊢
    cases hrow with
    | invalid => rfl
    | _ => contradiction
  all_goals subst w; decide

/-! ## The CRC -/

/-- Settles O56, by evaluation of R61's algorithm. -/
theorem crcCheckValues : Obligations.CrcCheckValues := by
  refine ⟨?_, ?_, ?_, fun _ => rfl⟩ <;> decide +kernel

/-! ## One field of a frame changed -/

/-- R58: the positions of a frame after its header byte, field by field. -/
theorem framePosition_cases {i n : Nat} (h1 : 1 ≤ i) (h5 : i < n + 5) :
    i = 1 ∨ i = 2 ∨ (∃ j < n, i = j + 3) ∨ i = n + 3 ∨ i = n + 4 := by
  by_cases hpay : 3 ≤ i ∧ i < n + 3
  · exact .inr (.inr (.inl ⟨i - 3, by omega, by omega⟩))
  · omega

section
variable {header blk nblk : Byte} {payload : List Byte} {lo hi b : Byte}

theorem frameBytes_set_payload {j : Nat} (hj : j < payload.length) :
    (frameBytes header blk nblk payload lo hi).set (j + 3) b
      = frameBytes header blk nblk (payload.set j b) lo hi := by
  simp [frameBytes, List.set_append_left, hj]

theorem frameBytes_set_crcLo :
    (frameBytes header blk nblk payload lo hi).set (payload.length + 3) b
      = frameBytes header blk nblk payload b hi := by
  simp [frameBytes, List.set_append_right]

theorem frameBytes_set_crcHi :
    (frameBytes header blk nblk payload lo hi).set (payload.length + 4) b
      = frameBytes header blk nblk payload lo b := by
  simp [frameBytes, List.set_append_right]

end

/-! ## What the checks fix -/

/-- R83: the complement check leaves one block byte for each complement byte. -/
theorem complementOk_blk_unique {x y nblk : Byte} (hx : complementOk x nblk = true)
    (hy : complementOk y nblk = true) : x = y :=
  (BitVec.add_left_inj nblk).mp ((eq_of_beq hx).trans (eq_of_beq hy).symm)

/-- R83: the complement check leaves one complement byte for each block byte. -/
theorem complementOk_nblk_unique {blk x y : Byte} (hx : complementOk blk x = true)
    (hy : complementOk blk y = true) : x = y :=
  (BitVec.add_right_inj blk).mp ((eq_of_beq hx).trans (eq_of_beq hy).symm)

/-- R84: the checksum check passes exactly the two bytes of the payload's CRC. -/
theorem checksumOk_iff {f : CrcFn} {payload : List Byte} {lo hi : Byte} :
    checksumOk f payload lo hi = true
      ↔ lo = crcLow (crc16 f payload) ∧ hi = crcHigh (crc16 f payload) := by
  constructor
  · intro h
    rw [← eq_of_beq h]
    exact ⟨BitVec.extractLsb'_append_eq_right.symm, BitVec.extractLsb'_append_eq_left.symm⟩
  · rintro ⟨rfl, rfl⟩
    exact crcBytes_checksumOk f payload

/-- R84: one pair of CRC bytes passes only payloads of one CRC. -/
theorem crc16_eq_of_checksumOk {f : CrcFn} {p q : List Byte} {lo hi : Byte}
    (hp : checksumOk f p lo hi = true) (hq : checksumOk f q lo hi = true) : crc16 f p = crc16 f q :=
  (eq_of_beq hp).symm.trans (eq_of_beq hq)

/-- Settles O54, field by field: what the other bytes are fixes the block, the complement and the CRC bytes
(`complementOk_blk_unique`, `complementOk_nblk_unique`, `checksumOk_iff`), and the CRC function tells the payloads
apart. -/
theorem oneWrongByteFailsTheFrame : Obligations.OneWrongByteFailsTheFrame := by
  refine ⟨?_, fun k => crcXmodem_detectsOneByte k.toNat⟩
  intro f k blk nblk payload lo hi i b hlen hcomp hcrc h1 h5 hne hdet
  have hold : ∀ {x : Byte}, (frameBytes k.header blk nblk payload lo hi)[i]? = some x → b ≠ x :=
    fun hx e => hne (e ▸ hx)
  rw [← hlen] at h5 hdet ⊢
  obtain ⟨hlo, hhi⟩ := checksumOk_iff.mp hcrc
  rcases framePosition_cases h1 h5 with rfl | rfl | ⟨j, hj, rfl⟩ | rfl | rfl
  · exact ⟨b, nblk, payload, lo, hi, rfl, rfl, fun hok => hold rfl (complementOk_blk_unique hok.1 hcomp)⟩
  · exact ⟨blk, b, payload, lo, hi, rfl, rfl, fun hok => hold rfl (complementOk_nblk_unique hok.1 hcomp)⟩
  · have hj' : payload[j]? ≠ some b := by simpa [frameBytes, List.getElem?_append_left, hj] using hne
    exact ⟨blk, nblk, payload.set j b, lo, hi, frameBytes_set_payload hj, List.length_set,
      fun hok => hdet (by omega) (by omega) payload j b rfl hj hj' (crc16_eq_of_checksumOk hok.2 hcrc)⟩
  · exact ⟨blk, nblk, payload, b, hi, frameBytes_set_crcLo, rfl,
      fun hok => hold (by simp [frameBytes]) ((checksumOk_iff.mp hok.2).1.trans hlo.symm)⟩
  · exact ⟨blk, nblk, payload, lo, b, frameBytes_set_crcHi, rfl,
      fun hok => hold (by simp [frameBytes]) ((checksumOk_iff.mp hok.2).2.trans hhi.symm)⟩

/-! ## A whole frame received -/

/-- R73, R74, R75: the header byte of a frame kind starts a frame of that kind. -/
theorem rxByte_header {s : State} (k : PayloadLen) (hc : s.conn = .connected) (hf : s.df.state = .hunt)
    (hr : s.readActive = false) : rxByte k.header s = frameStart k s := by
  have hctx : s.wireCtx = .header := by simp [State.wireCtx, hc, hf]
  cases k <;> simp [rxByte, hctx, headerByte, PayloadLen.header, wireSoh, wireStx, hr]

/-- R72: inside a frame every byte goes to the deframer. -/
theorem rxByte_inFrame {s : State} (b : Byte) (hc : s.conn = .connected) (hf : s.df.state ≠ .hunt) :
    rxByte b s = deframe b s := by
  have hctx : s.wireCtx = .inFrame := by simp [State.wireCtx, hc, hf]
  simp only [rxByte, hctx, wireFrameByte]

/-- R74, R75, R81: the three bytes before the payload bring the deframer to the payload. -/
theorem rxBytes_prefix {s : State} (k : PayloadLen) (blk nblk : Byte) (hc : s.conn = .connected)
    (hf : s.df.state = .hunt) (hr : s.readActive = false) :
    rxBytes [k.header, blk, nblk] s = { s with
      df := { s.df with state := .data, plen := k, pos := 3, blk := blk, nblk := nblk }, lastByteTime := s.now } := by
  have hblk : rxByte blk (frameStart k s) = deframe blk (frameStart k s) := rxByte_inFrame blk hc nofun
  have hnblk : rxByte nblk (deframe blk (frameStart k s)) = deframe nblk (deframe blk (frameStart k s)) :=
    rxByte_inFrame nblk hc nofun
  simp only [rxBytes, rxByte_header k hc hf hr, hblk, hnblk]
  rfl

/-- R81, R82: the two CRC bytes end the frame in its verdict. -/
theorem rxBytes_crc {s : State} (lo hi : Byte) (hc : s.conn = .connected) (hf : s.df.state = .crcLo) :
    rxBytes [lo, hi] s = frameEnd hi { s with
      df := { s.df with state := .hunt, pos := 0, crcLo := lo }, lastByteTime := s.now } := by
  have hlo : deframe lo s = { s with
      df := { s.df with state := .crcHi, pos := s.df.pos + 1, crcLo := lo }, lastByteTime := s.now } := by
    simp only [deframe, deframeAt, countByte, hf]
  have hhi : rxByte hi (deframe lo s) = deframe hi (deframe lo s) := by
    rw [hlo]
    exact rxByte_inFrame hi hc nofun
  rw [rxBytes, rxBytes, rxBytes, rxByte_inFrame lo hc (by simp [hf]), hhi, hlo]
  rfl

/-- R58, R81, R82: a whole frame at header position fills the receive buffer with its payload and reaches its
verdict. -/
theorem rxBytes_frame {s : State} (k : PayloadLen) (blk nblk : Byte) (payload : List Byte) (lo hi : Byte)
    (hc : s.conn = .connected) (hf : s.df.state = .hunt) (hr : s.readActive = false)
    (hl : s.rxfb.length = Config.longLen) (hp : payload.length = k.toNat) :
    rxBytes (frameBytes k.header blk nblk payload lo hi) s = frameEnd hi { s with
      df := { state := .hunt, plen := k, pos := 0, blk := blk, nblk := nblk, crcLo := lo },
      rxfb := payload ++ s.rxfb.drop k.toNat, lastByteTime := s.now } := by
  have hne : payload ≠ [] := List.ne_nil_of_length_pos (hp ▸ k.toNat_pos)
  have hsplit : frameBytes k.header blk nblk payload lo hi = [k.header, blk, nblk] ++ (payload ++ [lo, hi]) := rfl
  rw [hsplit, rxBytes_append, rxBytes_append, rxBytes_prefix k blk nblk hc hf hr]
  rw [rxBytes_data payload _ 0 (by exact hc) rfl (by exact hl) (by simpa using hp) hne rfl,
    rxBytes_crc lo hi (by exact hc) rfl]
  simp [hp]

/-- Settles O50: the rows run their bytes by definition, and `rxBytes_frame` says what those do. -/
theorem wholeFrameReachesItsVerdict : Obligations.WholeFrameReachesItsVerdict := by
  intro s blk nblk payload lo hi
  refine ⟨rfl, rfl, fun hc hf hr hl => ?_⟩
  have hread : s.readActive = false := Bool.eq_false_iff.mpr (hr ∘ readActive_iff.mp)
  constructor
  · intro hp
    exact congrArg Host.Outcome.next (rxBytes_frame .short blk nblk payload lo hi hc hf hread hl hp)
  · intro hp
    have hfull : payload ++ s.rxfb.drop PayloadLen.long.toNat = payload := by
      rw [List.drop_eq_nil_of_le (show s.rxfb.length ≤ PayloadLen.long.toNat from hl.le), List.append_nil]
    have h := rxBytes_frame .long blk nblk payload lo hi hc hf hread hl hp
    rw [hfull] at h
    exact congrArg Host.Outcome.next h

end Sys2Proof.Machine
end

section
/-! The shared ends of the codec's rules: a stage change (R66) and the end of a task by an abort (R97). Each is said
once here as the whole next state. -/

namespace Sys2Proof.Machine

/-! ## Stage changes -/

/-- R63: an entry of the status FIFO, as a number. -/
theorem statusByte_eq_or (c : Conn) (g : Stage) :
    statusByte c g = (if c = .connected then 0x80 else 0) ||| g.code.setWidth 8 := by
  cases c <;> cases g <;> decide

theorem setStage_same (s : State) : setStage s.stage s = s := if_pos rfl

/-- R66: the whole state after a stage change. -/
theorem setStage_of_ne {g : Stage} {s : State} (h : g ≠ s.stage) :
    setStage g s = { s with stage := g, sfifo := (sfifoPush (statusByte s.conn g) s).sfifo } := if_neg h

/-- Settles O42: `setStage` is these two cases, and the entry is R63's. -/
theorem stageChangesAreRecorded : Obligations.StageChangesAreRecorded := by
  intro s g
  refine ⟨?_, fun h => ?_⟩
  · rintro rfl
    exact setStage_same s
  · rw [setStage_of_ne h, statusByte_eq_or]

/-! ## Abort -/

theorem Dir.bit_eq_decide (d : Dir) : d.bit = decide (d = .write) := by cases d <;> rfl

theorem EvtCode.bne_none_eq_decide (c : EvtCode) : (c != .none) = decide (c ≠ .none) := by cases c <;> rfl

/-- R97: the CAN of an abort, if one goes out. -/
theorem emit_can_eq (can : Bool) (s : State) :
    (if can then emit 0x18 s else s)
      = { s with env := { s.env with txout := s.env.txout ++ if can then [0x18] else [] } } := by
  cases can with
  | true => rfl
  | false => simp

/-- R97: the whole state after an abort of the task `h`, from a stage other than CMD_RECV. -/
theorem abort_eq {s : State} {h : Task} {rest : List Task} (c : EvtCode) (can : Bool)
    (hq : s.taskq = h :: rest) (hs : s.stage ≠ .cmdRecv) :
    abort c can s = { s with
      env := { s.env with txout := s.env.txout ++ if can then [0x18] else [] },
      err := { s.err with evtOvf := s.err.evtOvf || decide (s.evt.code ≠ .none) },
      evt := { code := c, dir := decide (h.dir = .write), count := h.xfer },
      taskq := rest, active := false, tx := { s.tx with wait := false, chunk := 0, len := 0 },
      retries := 0, df := { s.df with state := .hunt, pos := 0 }, stage := .cmdRecv,
      sfifo := (sfifoPush (statusByte s.conn .cmdRecv) s).sfifo } := by
  have htail : rest = s.taskq.tail := by rw [hq, List.tail_cons]
  rw [abort, head_of_cons hq, emit_can_eq, setStage_of_ne (by exact hs.symm), htail, ← Dir.bit_eq_decide,
    ← EvtCode.bne_none_eq_decide]
  rfl

end Sys2Proof.Machine
end

section
/-! The transmit side of the codec (R76, R77, R91 to R97). -/

namespace Sys2Proof.Machine

/-! ## ACK -/

theorem wireAck_of_awaiting {s : State} (h : s.awaitingAck = true) : wireAck s = txAck s := if_pos h

/-- R94: the whole state after the acknowledged bytes are counted. -/
theorem txAdvance_eq {s : State} {h : Task} {rest : List Task} (hq : s.taskq = h :: rest) :
    txAdvance s = { s with
      taskq := { h with xfer := h.xfer + s.tx.chunk.setWidth 17 } :: rest, txSeq := s.txSeq + 1,
      retries := 0, tx := { s.tx with wait := false } } := by
  simp only [txAdvance, updateHead, hq]

/-- R94: the task is done. -/
theorem txContinue_done {s : State} {h : Task} {rest : List Task} (hq : s.taskq = h :: rest)
    (hs : s.stage ≠ .dataSendDone) (hx : h.xfer = h.len) :
    txContinue s = { s with
      tx := { s.tx with chunk := 0, len := 0 }, stage := .dataSendDone,
      sfifo := (sfifoPush (statusByte s.conn .dataSendDone) s).sfifo } := by
  rw [txContinue, head_of_cons hq, if_pos hx, setStage_of_ne (s := txClear s) (Ne.symm hs)]
  rfl

/-- R94: the task goes on. -/
theorem txContinue_more {s : State} {h : Task} {rest : List Task} (hq : s.taskq = h :: rest) (hx : h.xfer ≠ h.len) :
    txContinue s = txStage s := by
  rw [txContinue, head_of_cons hq, if_neg hx]

/-- Settles O46: `txAdvance`, then the two cases of `txContinue`. -/
theorem ackCountsAndContinues : Obligations.AckCountsAndContinues := by
  intro s h rest hq hact hdir hst hw
  have hack : exec .ack s = .next (txContinue (txAdvance s)) :=
    congrArg _ (wireAck_of_awaiting (awaitingAck_iff.mpr ⟨hact, (head_of_cons hq).symm ▸ hdir, hst, hw⟩))
  rw [hack, txAdvance_eq hq]
  refine ⟨fun hx => ?_, fun hx => ?_⟩
  · rw [txContinue_done rfl (by simp [hst]) hx, hx]
    rfl
  · rw [txContinue_more rfl hx]

/-! ## NAK -/

theorem wireNak_of_awaiting {s : State} (h : s.awaitingAck = true) : wireNak s = txFail s := if_pos h

/-- R93: the staged bytes go out as they stand; a stage that awaited its ACK goes on awaiting it. -/
theorem txSend_of_wait {s : State} (hw : s.tx.wait = true) :
    txSend s = { s with
      lastSendTime := s.now, env := { s.env with txout := s.env.txout ++ s.tx.buf.take s.tx.len.toNat } } := by
  have htx : { s.tx with wait := true } = s.tx := by rw [← hw]
  rw [txSend, htx]
  rfl

/-- Settles O47, on the retry counter. -/
theorem nakRetransmitsOrAborts : Obligations.NakRetransmitsOrAborts := by
  intro s h rest hq hact hdir hst hw
  have hnak : exec .nak s = .next (txFail s) :=
    congrArg _ (wireNak_of_awaiting (awaitingAck_iff.mpr ⟨hact, (head_of_cons hq).symm ▸ hdir, hst, hw⟩))
  rw [hnak, txFail]
  refine ⟨fun hr => ?_, fun hr => ?_⟩
  · rw [if_pos hr]
    exact congrArg _ (txSend_of_wait hw)
  · rw [if_neg hr, abort_eq _ _ hq (by simp [hst]), hdir]
    rfl

/-! ## CAN -/

theorem wireCan_of_abortable {s : State} (h : s.abortable = true) : wireCan s = abort .errCan false s := if_pos h

/-- R14: the four abortable stages, as a list. -/
theorem abortable_iff_mem {s : State} :
    s.abortable = true ↔ s.active = true ∧ s.stage ∈ [Stage.dataSend, .dataSendBuf, .dataRecv, .dataRecvBuf] := by
  simp [abortable_iff]

/-- Settles O48: the abort without a CAN. -/
theorem canAbortsTheActiveTask : Obligations.CanAbortsTheActiveTask := by
  intro s h rest hq hact hst
  have hcan : exec .can s = .next (abort .errCan false s) :=
    congrArg _ (wireCan_of_abortable (abortable_iff_mem.mpr ⟨hact, hst⟩))
  have hne : s.stage ≠ .cmdRecv := by
    intro e
    simp [e] at hst
  rw [hcan, abort_eq _ _ hq hne]
  simp

/-! ## P3 -/

/-- Settles O38: the guard of `txStart`, read as R91's three conditions. -/
theorem transmitStartsTheActiveRead : Obligations.TransmitStartsTheActiveRead := by
  intro s
  have hcond : (s.active && s.head.dir == .read && s.stage == .dataSend) = true
      ↔ s.active = true ∧ s.head.dir = .read ∧ s.stage = .dataSend := by
    simp [and_assoc]
  exact ⟨fun ha hd hs => if_pos (hcond.mpr ⟨ha, hd, hs⟩), fun hn => if_neg (mt hcond.mp hn)⟩

/-! ## A staged frame -/

/-- R45: the bytes of a run, one by one. -/
theorem scratchBytes_getElem? (s : State) (k : BitVec 16) {i n : Nat} (hi : i < n) :
    (s.scratchBytes k n)[i]? = some (s.scratchByte (k + BitVec.ofNat 16 i)) := by
  induction n generalizing k i with
  | zero => omega
  | succ n ih =>
    cases i with
    | zero => simp [State.scratchBytes]
    | succ j =>
      have hnext : k + BitVec.ofNat 16 (j + 1) = k + 1 + BitVec.ofNat 16 j := by
        apply BitVec.eq_of_toNat_eq
        simp [BitVec.toNat_add]
        omega
      rw [State.scratchBytes, List.getElem?_cons_succ, ih _ (by omega), hnext]

/-- R92: the data bytes of a staged payload are the task's next ones. -/
theorem stagedPayload_getElem?_data (s : State) (k : PayloadLen) {i n : Nat} (hi : i < n) :
    (stagedPayload s k n)[i]? = some (s.scratchByte (s.head.next + BitVec.ofNat 16 i)) := by
  rw [stagedPayload, List.getElem?_append_left (by simpa using hi), scratchBytes_getElem? s _ hi]

/-- R92: the bytes after the data are padding. -/
theorem stagedPayload_getElem?_pad (s : State) (k : PayloadLen) {i n : Nat} (hn : n ≤ i) (hi : i < k.toNat) :
    (stagedPayload s k n)[i]? = some 0x1A := by
  rw [stagedPayload, List.getElem?_append_right (by simpa using hn), scratchBytes_length,
    List.getElem?_replicate_of_lt (by omega)]

/-- R58, R59: the bytes of a frame decode to a row. -/
theorem decode_frameBytes (k : PayloadLen) (blk nblk : Byte) {payload : List Byte} (lo hi : Byte)
    (hp : payload.length = k.toNat) : ∃ i, decode (.frame (frameBytes k.header blk nblk payload lo hi)) = .ok i := by
  cases k with
  | short => exact ⟨_, Laws.RoundTrip.frameShort blk nblk payload lo hi (beq_iff_eq.mpr hp)⟩
  | long => exact ⟨_, Laws.RoundTrip.frameLong blk nblk payload lo hi (beq_iff_eq.mpr hp)⟩

/-- R60, R83: a block byte and its complement pass the complement check. -/
theorem complementOk_sub (seq : Byte) : complementOk seq (0xFF - seq) = true := by
  simp [complementOk]

/-- R92, R93: the whole state after a frame is staged and sent. -/
theorem txStage_eq (s : State) (hb : s.tx.buf.length = Config.longLen + 5) :
    let k := txKind s.head.remaining
    let n := s.head.txCount
    let frame := txFrame s.crc k s.txSeq (stagedPayload s k n)
    txStage s = { s with
      tx := { buf := frame ++ s.tx.buf.drop (k.toNat + 5), len := BitVec.ofNat 11 (k.toNat + 5),
              chunk := BitVec.ofNat 11 n, wait := true },
      lastSendTime := s.now, env := { s.env with txout := s.env.txout ++ frame } } := by
  intro k n frame
  have hlen : frame.length = k.toNat + 5 := by
    simp [frame, stagedPayload_length s k (show n ≤ k.toNat from Nat.min_le_right _ _)]
  have hbuf : frame ++ s.tx.buf.drop (k.toNat + 5) = overlay frame s.tx.buf := by rw [overlay, hlen]
  rw [hbuf, ← txStage_env s hb]
  rfl

/-- Settles O55: `txStage_eq` for the state, and the frame's parts by what a staged payload holds. -/
theorem stagedFrameCarriesTheNextBytes : Obligations.StagedFrameCarriesTheNextBytes := by
  intro s h rest k n hq hb hk hn
  have hhead : s.head = h := head_of_cons hq
  obtain rfl : k = txKind s.head.remaining := by rw [hk, hhead]; rfl
  obtain rfl : n = s.head.txCount := by rw [hn, hhead]; rfl
  have hle : s.head.txCount ≤ (txKind s.head.remaining).toNat := Nat.min_le_right _ _
  have hp := stagedPayload_length s _ hle
  refine ⟨_, txFrame s.crc _ s.txSeq _, hp, fun i hi => ?_, fun i hi hge => stagedPayload_getElem?_pad s _ hge hi, ?_,
    txStage_eq s hb, decode_frameBytes _ _ _ _ _ hp, complementOk_sub _, crcBytes_checksumOk _ _⟩
  · rw [stagedPayload_getElem?_data s _ hi, hhead]
    rfl
  · cases txKind s.head.remaining <;> rfl

end Sys2Proof.Machine
end

section
/-! The receive side of the codec (R81 to R89): the bytes of a frame, the verdict on it, and what follows the verdict. -/

namespace Sys2Proof.Machine

/-! ## Failed frames -/

theorem rxFail_idle {s : State} (hr : s.receiving = false) : rxFail s = emit 0x15 s := by
  simp [rxFail, hr]

theorem rxFail_retry {s : State} (hr : s.receiving = true) (hc : s.retries < s.settings.retryMax) :
    rxFail s = emit 0x15 { s with retries := s.retries + 1 } := by
  rw [rxFail, if_pos hr, if_pos hc]

theorem rxFail_abort {s : State} (hr : s.receiving = true) (hc : ¬ s.retries < s.settings.retryMax) :
    rxFail s = abort .errRetry true s := by
  rw [rxFail, if_pos hr, if_neg hc]

/-- R14, R97: the whole state after the abort of a WRITE task that is receiving, with its CAN. -/
theorem abort_receiving {s : State} {h : Task} {rest : List Task} (c : EvtCode) (hr : s.receiving = true)
    (hq : s.taskq = h :: rest) :
    abort c true s = { s with
      env := { s.env with txout := s.env.txout ++ [0x18] },
      err := { s.err with evtOvf := s.err.evtOvf || decide (s.evt.code ≠ .none) },
      evt := { code := c, dir := true, count := h.xfer },
      taskq := rest, active := false, tx := { s.tx with wait := false, chunk := 0, len := 0 },
      retries := 0, df := { s.df with state := .hunt, pos := 0 }, stage := .cmdRecv,
      sfifo := (sfifoPush (statusByte s.conn .cmdRecv) s).sfifo } := by
  obtain ⟨-, hdir, hst⟩ := receiving_iff.mp hr
  rw [head_of_cons hq] at hdir
  have hne : s.stage ≠ .cmdRecv := by rcases hst with e | e <;> simp [e]
  rw [abort_eq c true hq hne, hdir]
  rfl

/-- Settles O53: the three cases of `rxFail`. -/
theorem failedFrameIsNakedOrAborts : Obligations.FailedFrameIsNakedOrAborts := by
  refine fun s => ⟨rxFail_idle, fun hr hc => ?_, fun hr hc h rest hq => ?_⟩
  · rw [rxFail_retry hr hc]
    rfl
  · rw [rxFail_abort hr hc, abort_receiving _ hr hq]

/-! ## The verdict -/

/-- R83, R84: both validators, as equations. -/
theorem frameOk_iff {s : State} {hi : Byte} :
    s.frameOk hi = true ↔
      s.df.blk + s.df.nblk = 0xFF ∧ hi ++ s.df.crcLo = crc16 s.crc (s.rxfb.take s.df.plen.toNat) := by
  simp [State.frameOk, complementOk, checksumOk]

theorem frameEnd_of_failed {s : State} {hi : Byte} (h : ¬ s.frameOk hi = true) : frameEnd hi s = rxFail s := if_neg h

theorem frameEnd_of_ok {s : State} {hi : Byte} (h : s.frameOk hi = true) :
    frameEnd hi s = sequenceFrame { s with lastRecvTime := s.now } := if_pos h

/-- R85: the frame that is due. -/
theorem sequenceFrame_due {s : State} (hr : s.receiving = true) (hb : s.df.blk = s.rxSeq) :
    sequenceFrame s = rxAccept s := by
  simp [sequenceFrame, hr, hb]

/-- R86: the frame before the one due, again. -/
theorem sequenceFrame_repeated {s : State} (hn : ¬(s.receiving = true ∧ s.df.blk = s.rxSeq))
    (hb : s.df.blk = s.rxSeq - 1) : sequenceFrame s = emit 0x06 s := by
  rw [sequenceFrame, if_neg (by simpa using hn), if_pos hb]

/-- R87: any other block number, while a WRITE task is receiving. -/
theorem sequenceFrame_other {s : State} (hr : s.receiving = true) (hb : s.df.blk ≠ s.rxSeq)
    (hb' : s.df.blk ≠ s.rxSeq - 1) :
    sequenceFrame s = if s.settings.seqPolicy = false then abort .errSeq true s else rxFail s := by
  rw [sequenceFrame, if_neg (by simp [hb]), if_neg hb', if_pos hr]

/-- R88: any other block number, with no task to receive it. -/
theorem sequenceFrame_idle {s : State} (hr : s.receiving = false) (hb' : s.df.blk ≠ s.rxSeq - 1) :
    sequenceFrame s = emit 0x15 s := by
  rw [sequenceFrame, if_neg (by simp [hr]), if_neg hb', if_neg (by simp [hr])]

/-- Settles O51: the validators decide between `rxFail` and the sequencer, whose four cases follow. -/
theorem verdictChecksBeforeSequence : Obligations.VerdictChecksBeforeSequence := by
  intro s hi
  refine ⟨fun hbad => frameEnd_of_failed (mt frameOk_iff.mp hbad), fun hcomp hcrc => ?_⟩
  intro u
  rw [frameEnd_of_ok (frameOk_iff.mpr ⟨hcomp, hcrc⟩)]
  refine ⟨fun ⟨hr, hb⟩ => sequenceFrame_due (s := u) hr hb, fun hn hb => sequenceFrame_repeated (s := u) hn hb,
    fun hr hb hb' => ?_, fun hr hb' => sequenceFrame_idle (s := u) hr hb'⟩
  have hother := sequenceFrame_other (s := u) hr hb hb'
  refine ⟨fun hpol => hother.trans (if_neg (by simp [u, hpol])), fun hpol h rest hq => ?_⟩
  exact hother.trans ((if_pos hpol).trans (abort_receiving (s := u) .errSeq hr hq))

/-! ## An accepted frame -/

/-- The block with the status-FIFO entry that an accepted frame makes when it is the task's first (R66, T6). -/
def rxEntered (s : State) : State := if s.stage = .dataRecv then sfifoPush (statusByte s.conn .dataRecvBuf) s else s

/-- R66, T6: the stage after the task's first accepted frame. -/
theorem rxBegun_eq {s : State} (hs : s.stage = .dataRecv ∨ s.stage = .dataRecvBuf) :
    rxBegun s = { s with stage := .dataRecvBuf, sfifo := (rxEntered s).sfifo } := by
  rcases hs with hs | hs
  · rw [rxBegun, rxEntered, if_pos hs, if_pos hs, setStage_of_ne (by simp [hs])]
  · rw [rxBegun, rxEntered, if_neg (by simp [hs]), if_neg (by simp [hs]), ← hs]

/-- R66, T7: the stage when the requested length is reached. -/
theorem rxReached_eq {s : State} (hs : s.stage = .dataRecvBuf) :
    rxReached s = { s with
      stage := if s.head.xfer = s.head.len then .dataRecvDone else .dataRecvBuf,
      sfifo := (if s.head.xfer = s.head.len then sfifoPush (statusByte s.conn .dataRecvDone) s else s).sfifo } := by
  unfold rxReached
  split
  · rw [setStage_of_ne (by simp [hs])]
  · rw [← hs]

/-- R85: the whole state after an accepted frame. -/
theorem rxAccept_eq {s : State} {h : Task} {rest : List Task} (hq : s.taskq = h :: rest)
    (hs : s.stage = .dataRecv ∨ s.stage = .dataRecvBuf) :
    rxAccept s = { s with
      scratch := (storeBytes h.next (s.rxfb.take s.rxCount) s).scratch,
      sfifo := (if h.xfer + BitVec.ofNat 17 s.rxCount = h.len
        then sfifoPush (statusByte s.conn .dataRecvDone) (rxEntered s) else rxEntered s).sfifo,
      taskq := { h with xfer := h.xfer + BitVec.ofNat 17 s.rxCount } :: rest,
      rxSeq := s.rxSeq + 1, retries := 0, env := { s.env with txout := s.env.txout ++ [0x06] },
      stage := if h.xfer + BitVec.ofNat 17 s.rxCount = h.len then .dataRecvDone else .dataRecvBuf } := by
  have hhead : s.head = h := head_of_cons hq
  have hstore : rxStore s = { s with
      scratch := (storeBytes h.next (s.rxfb.take s.rxCount) s).scratch,
      taskq := { h with xfer := h.xfer + BitVec.ofNat 17 s.rxCount } :: rest,
      rxSeq := s.rxSeq + 1, retries := 0 } := by
    rw [rxStore_eq, rxStore_head (hhead.symm ▸ hq), hhead]
  rw [rxAccept, hstore, rxBegun_eq (by exact hs), rxReached_eq rfl]
  unfold rxEntered
  by_cases hlen : h.xfer + BitVec.ofNat 17 s.rxCount = h.len <;> by_cases hst : s.stage = .dataRecv <;>
    simp [State.head, hlen, hst] <;> rfl

/-- Settles O52: `rxAccept_eq` for the state, and the laws of the scratch RAM for its bytes. -/
theorem acceptedFrameIsStoredAndCounted : Obligations.AcceptedFrameIsStoredAndCounted := by
  intro s h rest n hq _ _ hst hbuf hn
  obtain rfl : n = s.rxCount := by rw [hn, State.rxCount, head_of_cons hq]; rfl
  have hacc := rxAccept_eq hq hst
  have hcount : s.rxCount ≤ 1024 := (Nat.min_le_right _ _).trans s.df.plen.toNat_le
  have htake : (s.rxfb.take s.rxCount).length = s.rxCount := by simp [hbuf, hcount]
  have hbyte : ∀ a, (rxAccept s).scratchByte a = (storeBytes h.next (s.rxfb.take s.rxCount) s).scratchByte a := by
    intro a
    refine scratchByte_congr ?_ ?_ a
    · rw [hacc]
    · rw [hacc, storeBytes_eq]
  refine ⟨_, rfl, fun i hi => ?_, fun a ha => ?_, ?_, ?_⟩
  · have hstored := storeBytes_scratchByte_inside (k := h.next) (s.rxfb.take s.rxCount) s
      (show i < _ by omega) (by simp only [Config.scratchSize]; omega)
    rw [hbyte]
    exact (congrArg some hstored).trans (by simp)
  · rw [hbyte]
    exact storeBytes_scratchByte_outside _ s (by rw [htake]; exact ha)
  · rw [hacc]
  · rintro begun rfl
    rw [hacc]
    rfl

/-! ## The bytes of a frame -/

/-- Settles O49, on the deframer's state. -/
theorem frameByteAdvancesTheDeframer : Obligations.FrameByteAdvancesTheDeframer := by
  intro s b
  have hbyte : exec (.frameByte b) s = .next (deframeAt b (countByte s)) := rfl
  have hstate : (countByte s).df.state = s.df.state := rfl
  rw [hbyte]
  refine ⟨fun h => ?_, fun h => ?_, fun h => ?_, fun h => ?_, fun h => ?_⟩ <;> rw [deframeAt, hstate, h] <;> rfl

end Sys2Proof.Machine
end

section
/-! The rows of a drained byte (R69, R70, R73 to R75, R79, R80), P1, which runs them (R72), and the timers of P2 (R68,
R98 to R100). -/

namespace Sys2Proof.Machine

/-! ## Header bytes -/

/-- Settles O43: the two header rows are one test of `readActive`. -/
theorem headerBytesStartAFrame : Obligations.HeaderBytesStartAFrame := by
  intro s
  have hstart : ∀ k, ¬ (s.active = true ∧ s.head.dir = .read) →
      (if s.readActive then s else frameStart k s) = frameStart k s :=
    fun k h => if_neg (mt readActive_iff.mp h)
  have hignored : ∀ k, s.active = true ∧ s.head.dir = .read → (if s.readActive then s else frameStart k s) = s :=
    fun k h => if_pos (readActive_iff.mpr h)
  exact ⟨fun h => ⟨congrArg _ (hstart .short h), congrArg _ (hstart .long h)⟩,
    fun h => ⟨congrArg _ (hignored .short h), congrArg _ (hignored .long h)⟩⟩

/-! ## Bytes without effect -/

/-- Settles O44: SIG_A, noise and the bytes of R70 by definition, the others by the predicates of R14. -/
theorem ignoredBytesHaveNoEffect : Obligations.IgnoredBytesHaveNoEffect := by
  intro s
  refine ⟨rfl, fun _ => rfl, fun _ => rfl, fun h => ?_, fun h => ?_⟩
  · have hnot : ¬ s.awaitingAck = true := mt awaitingAck_iff.mp h
    exact ⟨congrArg _ (if_neg hnot), congrArg _ (if_neg hnot)⟩
  · exact congrArg _ (if_neg (mt abortable_iff_mem.mp h))

/-! ## SIG_C -/

/-- Settles O45: the entry is R63's of CONNECTED, and a DETECTING block is in CMD_RECV (R13). -/
theorem sigCConnects : Obligations.SigCConnects := by
  intro s
  constructor
  · have hentry : statusByte .connected s.stage = 0x80 ||| s.stage.code.setWidth 8 := statusByte_eq_or _ _
    rw [← hentry]
    rfl
  · intro hs hc
    obtain ⟨-, -, hst⟩ := hs.inv.session.detecting hc
    rw [hst]
    decide

/-! ## P1 -/

/-- R73: the row of a byte at header position does what `headerByte` does. -/
theorem exec_decodeHeaderByte (b : Byte) (s : State) : exec (decodeHeaderByte b) s = .next (headerByte b s) := by
  unfold decodeHeaderByte headerByte
  split_ifs <;> rfl

/-- R72: the row of a drained byte does what `rxByte` does. -/
theorem exec_decodeWire (b : Byte) (s : State) : exec (decodeWire s.wireCtx b) s = .next (rxByte b s) := by
  unfold rxByte
  cases s.wireCtx with
  | detecting =>
    simp only [decodeWire]
    split <;> rfl
  | header => exact exec_decodeHeaderByte b s
  | inFrame => rfl

/-- Settles O5: `exec_decodeWire`, and the two equations of `drain`. -/
theorem drainRunsTheRowOfEachByte : Obligations.DrainRunsTheRowOfEachByte :=
  ⟨exec_decodeWire, fun _ _ _ => rfl, fun _ => rfl⟩

/-! ## P2 -/

theorem timers_detecting {s : State} (hc : s.conn = .detecting) : timers s = sigATimer s := by
  simp only [timers, hc]

theorem timers_connected {s : State} (hc : s.conn = .connected) : timers s = ackTimer (partialFrameTimer s) := by
  simp only [timers, hc]

/-- Settles O36: P2 is the SIG_A timer, whose period is 1000 ms. -/
theorem sigAGoesOutEverySecondWhileDetecting : Obligations.SigAGoesOutEverySecondWhileDetecting := by
  intro s hc
  exact timers_detecting hc

/-- Settles O37: the state between the two timeouts is the one after the partial-frame timer. -/
theorem timeoutsFireInOrderWhileConnected : Obligations.TimeoutsFireInOrderWhileConnected := by
  intro s hc
  exact ⟨partialFrameTimer s, timers_connected hc, rfl⟩

end Sys2Proof.Machine
end

section
/-! The entries of the status FIFO after a push (R105). -/

namespace Sys2Proof.Machine

/-- R105: a push appends the entry and drops what exceeds the FIFO's depth, from the oldest end. -/
theorem sfifoPush_sfifo_eq_drop (v : Byte) {s : State} (h : s.sfifo.length ≤ Config.sfifoDepth) :
    (sfifoPush v s).sfifo = (s.sfifo ++ [v]).drop (s.sfifo.length + 1 - Config.sfifoDepth) := by
  rw [sfifoPush]
  split
  next hfull =>
    have hexcess : s.sfifo.length + 1 - Config.sfifoDepth = 1 := by omega
    have hne : 1 ≤ s.sfifo.length := by rw [hfull]; decide
    rw [hexcess, List.drop_append_of_le_length hne, List.drop_one]
  next hspace =>
    have hexcess : s.sfifo.length + 1 - Config.sfifoDepth = 0 := by omega
    rw [hexcess, List.drop_zero]

/-- Settles O20: the frame by definition, `sfifoPush_length` for the count and `sfifoPush_sfifo_eq_drop` for the
entries. -/
theorem statusFifoKeepsTheNewestEight : Obligations.StatusFifoKeepsTheNewestEight :=
  fun s v h => ⟨rfl, sfifoPush_length v s h, sfifoPush_sfifo_eq_drop v h⟩

end Sys2Proof.Machine
end

section
/-! The task queue (R111 to R115): activation (P5), and what one agent step can do to the order of the tasks. -/

namespace Sys2Proof.Machine

/-! ## Activation -/

theorem updateHead_of_cons (f : Task → Task) {s : State} {t : Task} {rest : List Task} (hq : s.taskq = t :: rest) :
    updateHead f s = { s with taskq := f t :: rest } := by
  simp only [updateHead, hq]

theorem activate_of_not {s : State} (h : ¬ s.activatable = true) : activate s = s := if_neg h

/-- Settles O41, on R112's guard (`activatable_iff`). -/
theorem activationTakesTheOldestTask : Obligations.ActivationTakesTheOldestTask := by
  refine fun s => ⟨fun hq => activate_of_not ?_, fun h rest hq => ⟨?_, fun hn => activate_of_not ?_⟩⟩
  · simp [activatable_iff, hq]
  · rintro ⟨hconn, hstage, hidle, hhunt⟩
    have hact : s.activatable = true := activatable_iff.mpr ⟨hconn, hstage, hidle, hhunt, by simp [hq]⟩
    rw [activate, if_pos hact, head_of_cons hq, updateHead_of_cons _ hq]
  · intro hact
    obtain ⟨hconn, hstage, hidle, hhunt, -⟩ := activatable_iff.mp hact
    exact hn ⟨hconn, hstage, hidle, hhunt⟩

/-! ## The order of the tasks -/

/-- What a task keeps for as long as it is queued: its direction and its region. -/
def Task.key (t : Task) : Dir × BitVec 16 × BitVec 17 := (t.dir, t.off, t.len)

/-- The queued tasks in order, each by what it keeps. -/
def State.keys (s : State) : List (Dir × BitVec 16 × BitVec 17) := s.taskq.map Task.key

theorem keys_congr {s t : State} (h : t.taskq = s.taskq) : t.keys = s.keys := congrArg (List.map Task.key) h

theorem updateHead_keys {f : Task → Task} (hf : ∀ t, (f t).key = t.key) (s : State) :
    (updateHead f s).keys = s.keys := by
  unfold State.keys
  cases hq : s.taskq with
  | nil => rw [updateHead_nil f s hq]
  | cons t rest => rw [updateHead_cons f s t rest hq, List.map_cons, hf, List.map_cons]

/-- What serving the queue does to it (P1 to P4): nothing, or the active task at its head is retired and the block is
idle (R113, R115). Nothing in P1 to P4 activates a task, so no second one can be retired after it (`trans`). -/
inductive QueueServed (s t : State) : Prop
  | kept (active : t.active = s.active) (keys : t.keys = s.keys)
  | retired (busy : s.active = true) (idle : t.active = false) (keys : t.keys = s.keys.tail)

namespace QueueServed

theorem refl (s : State) : QueueServed s s := .kept rfl rfl

theorem trans {s t u : State} (h : QueueServed s t) (k : QueueServed t u) : QueueServed s u := by
  cases h with
  | kept ha hk =>
    cases k with
    | kept ha' hk' => exact .kept (ha'.trans ha) (hk'.trans hk)
    | retired hb hi hk' => exact .retired (ha.symm.trans hb) hi (hk'.trans (congrArg List.tail hk))
  | retired hb hi hk =>
    cases k with
    | kept ha' hk' => exact .retired hb (ha'.trans hi) (hk'.trans hk)
    | retired hb' => exact absurd (hb'.symm.trans hi) (by decide)

theorem of_same {s t : State} (ha : t.active = s.active) (hq : t.taskq = s.taskq) : QueueServed s t :=
  .kept ha (keys_congr hq)

theorem of_retire {s t : State} (hb : s.active = true) (hi : t.active = false) (hq : t.taskq = s.taskq.tail) :
    QueueServed s t :=
  .retired hb hi ((congrArg (List.map Task.key) hq).trans List.map_tail)

end QueueServed

theorem setStage_served (g : Stage) (s : State) : QueueServed s (setStage g s) := .of_same (by simp) (by simp)

theorem abort_served (c : EvtCode) (can : Bool) {s : State} (hb : s.active = true) : QueueServed s (abort c can s) :=
  .of_retire hb (by simp) (by simp)

theorem txFail_served {s : State} (hb : s.active = true) : QueueServed s (txFail s) := by
  unfold txFail
  split
  · exact .of_same rfl rfl
  · exact abort_served _ _ hb

theorem txStage_served (s : State) : QueueServed s (txStage s) := .of_same rfl rfl

theorem txAck_served (s : State) : QueueServed s (txAck s) := by
  have hadvance : QueueServed s (txAdvance s) :=
    .kept rfl (updateHead_keys (f := fun t => { t with xfer := t.xfer + s.tx.chunk.setWidth 17 }) (fun _ => rfl) s)
  refine hadvance.trans ?_
  unfold txAck txContinue
  split
  · exact .of_same (by simp) (by simp)
  · exact txStage_served _

theorem txStart_served (s : State) : QueueServed s (txStart s) := by
  unfold txStart
  split
  · exact (setStage_served _ s).trans (txStage_served _)
  · exact .refl s

theorem rxFail_served (s : State) : QueueServed s (rxFail s) := by
  unfold rxFail
  split
  · rename_i hr
    split
    · exact .of_same rfl rfl
    · exact abort_served _ _ (receiving_iff.mp hr).1
  · exact .of_same rfl rfl

theorem rxStore_served (s : State) : QueueServed s (rxStore s) := by
  have hstored : QueueServed s (storeBytes s.head.next (s.rxfb.take s.rxCount) s) := by
    rw [storeBytes_eq]
    exact .of_same rfl rfl
  exact hstored.trans (.kept rfl
    (updateHead_keys (f := fun t => { t with xfer := t.xfer + BitVec.ofNat 17 s.rxCount }) (fun _ => rfl) _))

theorem rxAccept_served (s : State) : QueueServed s (rxAccept s) := by
  refine (rxStore_served s).trans ?_
  unfold rxAccept rxReached rxBegun
  split <;> split <;> exact .of_same (by simp) (by simp)

theorem sequenceFrame_served (s : State) : QueueServed s (sequenceFrame s) := by
  unfold sequenceFrame
  split
  · exact rxAccept_served s
  · split
    · exact .of_same rfl rfl
    · split
      · rename_i hr
        split
        · exact abort_served _ _ (receiving_iff.mp hr).1
        · exact rxFail_served s
      · exact .of_same rfl rfl

theorem frameEnd_served (b : Byte) (s : State) : QueueServed s (frameEnd b s) := by
  unfold frameEnd
  split
  · have htimed : QueueServed s { s with lastRecvTime := s.now } := .of_same rfl rfl
    exact htimed.trans (sequenceFrame_served _)
  · exact rxFail_served s

theorem deframe_served (b : Byte) (s : State) : QueueServed s (deframe b s) := by
  unfold deframe deframeAt
  cases (countByte s).df.state with
  | hunt | blk | nblk | data | crcLo => exact .of_same rfl rfl
  | crcHi =>
    have hhunt : QueueServed s { countByte s with df := { (countByte s).df with state := .hunt, pos := 0 } } :=
      .of_same rfl rfl
    exact hhunt.trans (frameEnd_served b _)

/-- What a byte at header position can do (R73), each with the guard under which it does it. -/
inductive HeaderStep (s : State) : State → Prop
  | ignored : HeaderStep s s
  | begun (k : PayloadLen) : HeaderStep s (frameStart k s)
  | acked (awaiting : s.awaitingAck = true) : HeaderStep s (txAck s)
  | naked (awaiting : s.awaitingAck = true) : HeaderStep s (txFail s)
  | aborted (abortable : s.abortable = true) : HeaderStep s (abort .errCan false s)

theorem headerByte_headerStep (b : Byte) (s : State) : HeaderStep s (headerByte b s) := by
  unfold headerByte wireSoh wireStx wireAck wireNak wireCan wireSigA wireNoise
  split_ifs
  exacts [.ignored, .begun .short, .ignored, .begun .long, .acked ‹_›, .ignored, .naked ‹_›, .ignored,
    .aborted ‹_›, .ignored, .ignored, .ignored]

theorem HeaderStep.served {s t : State} (h : HeaderStep s t) : QueueServed s t := by
  cases h with
  | ignored => exact .refl s
  | begun k => exact .of_same rfl rfl
  | acked hw => exact txAck_served s
  | naked hw => exact txFail_served (awaitingAck_iff.mp hw).1
  | aborted ha => exact abort_served _ _ (abortable_iff.mp ha).1

theorem rxByte_served (b : Byte) (s : State) : QueueServed s (rxByte b s) := by
  unfold rxByte
  split
  · split
    · exact .of_same rfl rfl
    · exact .refl s
  · exact deframe_served b s
  · exact (headerByte_headerStep b s).served

theorem drain_served (bs : List Byte) (s : State) : QueueServed s (drain bs s) := by
  induction bs generalizing s with
  | nil => exact .refl s
  | cons b rest ih =>
    have hpop : QueueServed s { s with rxq := rest } := .of_same rfl rfl
    exact (hpop.trans (rxByte_served b _)).trans (ih _)

theorem timers_served (s : State) : QueueServed s (timers s) := by
  cases hc : s.conn with
  | detecting =>
    rw [timers_detecting hc, sigATimer]
    split <;> exact .of_same rfl rfl
  | connected =>
    have hpartial : QueueServed s (partialFrameTimer s) := by
      unfold partialFrameTimer
      split
      · have hhunt : QueueServed s { s with df := { s.df with state := .hunt, pos := 0 } } := .of_same rfl rfl
        exact hhunt.trans (rxFail_served _)
      · exact .refl s
    rw [timers_connected hc, ackTimer]
    split
    · rename_i ha
      exact hpartial.trans (txFail_served (awaitingAck_iff.mp ha.1).1)
    · exact hpartial

theorem tryBaud_served (s : State) : QueueServed s (tryBaud s) := by
  unfold tryBaud applyBaud
  split
  · split <;> exact .of_same rfl rfl
  · exact .refl s

/-- R120: the task of a DONE stage is retired; the invariant says that it is active. -/
theorem bridge_served {s : State} (h : BlockInv s) : QueueServed s (bridge s) := by
  unfold bridge
  cases hs : s.stage with
  | dataSendDone | dataRecvDone =>
    have hb : s.active = true := by rw [h.stage.transfer, hs]; rfl
    exact .of_retire hb (by simp) (by simp)
  | sendAck | waitAck => exact (tryBaud_served s).trans (setStage_served _ _)
  | cmdRecv =>
    simp only
    split
    · exact .refl s
    · exact tryBaud_served s
  | dataSend | dataSendBuf | dataRecv | dataRecvBuf => exact .refl s

/-- R112: the task that P5 activates stays where it is. -/
theorem activate_keys (s : State) : (activate s).keys = s.keys := by
  unfold activate
  split
  · refine (keys_congr (setStage_taskq _ _)).trans ?_
    exact updateHead_keys (f := fun t => { t with status := .active }) (fun _ => rfl) s
  · rfl

/-! ## One agent step -/

/-- The tasks keep their order from `s` to `t`: at most one leaves, from the head and when active, or one comes at the
tail (R114, R115). -/
def TasksKeepOrder (s t : State) : Prop :=
  ∃ gone new : List (Dir × BitVec 16 × BitVec 17),
    s.keys ++ new = gone ++ t.keys ∧ gone.length + new.length ≤ 1 ∧ (gone ≠ [] → s.active = true)

theorem TasksKeepOrder.of_keys {s t : State} (h : t.keys = s.keys) : TasksKeepOrder s t :=
  ⟨[], [], by simp [h], by simp, by simp⟩

theorem QueueServed.tasksKeepOrder {s t : State} (h : QueueServed s t) : TasksKeepOrder s t := by
  cases h with
  | kept _ hk => exact .of_keys hk
  | retired hb _ hk =>
    have hsplit : s.keys.take 1 ++ s.keys.tail = s.keys := by rw [← List.drop_one, List.take_append_drop]
    exact ⟨s.keys.take 1, [], by rw [hk, hsplit, List.append_nil], List.length_take_le _ _, fun _ => hb⟩

theorem execPoll_tasksKeepOrder {s t : State} (h : Settled s) (hpoll : exec .poll s = .next t) :
    TasksKeepOrder s t := by
  cases hpoll
  split
  · rename_i he
    have hinv : BlockInv (txStart (timers (drain s.rxq s))) :=
      txStart_inv (timers_inv (drain_inv h.inv he h.inv.rx.ring))
    have hserved : QueueServed s (bridge (txStart (timers (drain s.rxq s)))) :=
      (((drain_served _ s).trans (timers_served _)).trans (txStart_served _)).trans (bridge_served hinv)
    obtain ⟨gone, new, hkeys, hlen, hgone⟩ := hserved.tasksKeepOrder
    exact ⟨gone, new, by rw [activate_keys, hkeys], hlen, hgone⟩
  · exact .of_keys rfl

theorem submit_tasksKeepOrder (d : Dir) (s : State) : TasksKeepOrder s (submit d s) := by
  unfold submit
  split
  · exact .of_keys rfl
  · exact ⟨[], [(s.submittedTask d).key], by simp [State.keys], by simp, by simp⟩

theorem CommandRow.tasksKeepOrder {w : Word} {c : Instr} {s t : State} (hc : CommandRow w c) (h : Settled s)
    (hinit : w ≠ CmdOp.init.word) (hdeinit : w ≠ CmdOp.deinit.word) (hexec : exec c s = .next t) :
    TasksKeepOrder s t := by
  cases hc with
  | init => exact absurd (by decide) hinit
  | deinit => exact absurd (by decide) hdeinit
  | poll => exact execPoll_tasksKeepOrder h hexec
  | submitRead => cases hexec; exact submit_tasksKeepOrder .read s
  | submitWrite => cases hexec; exact submit_tasksKeepOrder .write s
  | baudSet => cases hexec; split <;> exact .of_keys rfl
  | invalid w => cases hexec; exact .of_keys rfl

/-- Settles O35, over the cases of an agent step: a command keeps the order by `CommandRow.tasksKeepOrder`, and no other
step but RESET touches the queue. -/
theorem tasksLeaveOnlyFromTheHead : Obligations.TasksLeaveOnlyFromTheHead := by
  intro s t i rest h hin hstep hreset hinit hdeinit
  have hs : Settled (s.withInputs rest) := h.congr (by constructor <;> rfl)
  change TasksKeepOrder (s.withInputs rest) t
  rw [step_of_inputs_cons hin] at hstep
  rcases inputStep_cases hstep with hr | ⟨w, hw⟩ | ⟨v, -, rfl⟩ | hquiet
  · exact absurd hr hreset
  · rw [hw, exec_cmdWrite] at hstep
    rw [hw] at hinit hdeinit
    exact (decodeCmd_commandRow w).tasksKeepOrder hs (mt (congrArg _) hinit) (mt (congrArg _) hdeinit) hstep
  · exact .of_keys rfl
  · exact .of_keys (keys_congr hquiet.taskq)

end Sys2Proof.Machine
end

section
/-! The commands (R117 to R126) and P4 of a POLL (R120, R125): the whole next state of each, and what a POLL does to the
rate and the receive ring. -/

namespace Sys2Proof.Machine

/-! ## Rows that ask for EN -/

/-- The two cases of a row that asks for EN first. -/
theorem next_ite_en (s a b : State) :
    (s.en = true → (.next (if s.en then a else b) : Host.Outcome State Fault Refusal) = .next a)
    ∧ (s.en = false → (.next (if s.en then a else b) : Host.Outcome State Fault Refusal) = .next b) :=
  ⟨fun he => congrArg _ (if_pos he), fun he => congrArg _ (if_neg (by simp [he]))⟩

/-! ## SUBMIT -/

/-- R121: the conditions of a refusal, one by one. -/
theorem submitRefused_iff {s : State} : s.submitRefused = true ↔
    s.en = false ∨ s.operands.taskLen.toNat = 0 ∨ s.operands.taskLen.toNat > 65536
      ∨ s.operands.taskOff.toNat + s.operands.taskLen.toNat > 65536 ∨ s.taskq.length = 4 := by
  have hregion : regionLegal s.operands.taskOff s.operands.taskLen = false ↔
      s.operands.taskLen.toNat = 0 ∨ s.operands.taskLen.toNat > 65536
        ∨ s.operands.taskOff.toNat + s.operands.taskLen.toNat > 65536 := by
    rw [regionLegal, decide_eq_false_iff_not, Config.scratchSize]
    omega
  simp only [State.submitRefused, Bool.or_eq_true, Bool.not_eq_true', beq_iff_eq, hregion, Config.tqDepth, or_assoc]

theorem exec_submit (d : Dir) (s : State) :
    exec (if d = .read then .submitRead else .submitWrite) s = .next (submit d s) := by
  cases d <;> rfl

/-- Settles O27: one procedure for both rows, and its guard is R121's. -/
theorem submitQueuesOrIsRefused : Obligations.SubmitQueuesOrIsRefused := by
  intro s d off len
  rw [exec_submit, submit]
  exact congrArg _ (if_congr submitRefused_iff rfl rfl)

/-! ## BAUD_SET and INVALID -/

/-- Settles O28, by EN. -/
theorem baudSetLatchesTheRate : Obligations.BaudSetLatchesTheRate := fun s => next_ite_en s _ _

/-- R54, R126: a word with no `OP` of the table, or with a bit set below it, has the row INVALID. -/
theorem decodeCmd_of_invalid {w : Word}
    (h : w.extractLsb' 24 8 ∉ [0x01, 0x02, 0x03, 0x10, 0x11, 0x20] ∨ w.extractLsb' 0 24 ≠ 0) :
    decodeCmd w = .cmdInvalid w := by
  have hrow := decodeCmd_commandRow w
  generalize decodeCmd w = i at hrow ⊢
  cases hrow with
  | invalid => rfl
  | _ => exact absurd h (by decide)

/-- Settles O29: the row by definition, and a written word has that row by `decodeCmd_of_invalid`. -/
theorem invalidCommandOnlySetsCmdErr : Obligations.InvalidCommandOnlySetsCmdErr := by
  refine ⟨fun _ _ => rfl, fun w s h => ?_⟩
  rw [exec_cmdWrite, decodeCmd_of_invalid h]
  rfl

/-! ## INIT and DEINIT -/

theorem irq_of_no_event {s : State} (h : s.evt.code = .none) : s.irq = false := by
  simp [State.irq, State.evtValid, h]

/-- R71: the cadence survives INIT only in an abbreviated handshake. -/
theorem keepsCadence_iff {s : State} :
    s.keepsCadence = true ↔ s.settings.abbrevHs = true ∧ s.firstConnect = false := by
  simp [State.keepsCadence]

/-- Settles O25: the fields by definition but for the cadence, and an empty latch drives no interrupt. -/
theorem initStartsASession : Obligations.InitStartsASession := by
  refine fun s => ⟨_, rfl, ?_, irq_of_no_event rfl⟩
  rw [← if_congr keepsCadence_iff rfl rfl]
  rfl

/-- Settles O26, by EN; the fields are those of `dropSession`. -/
theorem deinitEndsTheSession : Obligations.DeinitEndsTheSession := fun s => next_ite_en s _ _

/-! ## The phases, and the disabled block -/

/-- Settles O31, by EN. -/
theorem pollRunsItsPhasesInOrder : Obligations.PollRunsItsPhasesInOrder := fun s => next_ite_en s _ _

theorem submit_of_disabled {s : State} (d : Dir) (he : s.en = false) : submit d s = raiseSubmitError s :=
  if_pos (submitRefused_iff.mpr (.inl he))

theorem exec_rxByte_of_disabled {s : State} (b : Byte) (he : s.en = false) : exec (.rxByte b) s = .next s :=
  (next_ite_en s _ s).2 he

/-- Settles O30: the disabled case of each row. -/
theorem disabledBlockRefusesWork : Obligations.DisabledBlockRefusesWork := by
  intro s he
  exact ⟨(pollRunsItsPhasesInOrder s).2 he, (deinitEndsTheSession s).2 he, congrArg _ (submit_of_disabled .read he),
    congrArg _ (submit_of_disabled .write he), (baudSetLatchesTheRate s).2 he,
    fun w => invalidCommandOnlySetsCmdErr.1 w s, fun b => exec_rxByte_of_disabled b he, rfl, _, rfl, rfl⟩

/-! ## The safe point -/

theorem tryBaud_of_not {s : State} (h : ¬(s.baudPending = true ∧ s.baudSafe = true)) : tryBaud s = s :=
  if_neg (mt (Bool.and_eq_true _ _).mp h)

/-- R125: the whole state after the link answered. -/
theorem tryBaud_of_safe {s : State} (hp : s.baudPending = true) (hs : s.baudSafe = true) :
    tryBaud s = { s with
      rxq := [], baudPending := false,
      curBaud := if s.linkAnswer s.pendingBaud then s.pendingBaud else s.curBaud,
      err := { s.err with baud := s.err.baud || !s.linkAnswer s.pendingBaud },
      env := { s.env with
        linkAnswers := s.env.linkAnswers.tail,
        linkRequests := s.env.linkRequests ++ [s.pendingBaud] } } := by
  rw [tryBaud, if_pos (by simp [hp, hs]), applyBaud]
  cases s.linkAnswer s.pendingBaud with
  | true => simp [linkRequest, flushForBaud]
  | false => simp [linkRequest, flushForBaud]

theorem linkAnswer_of_cons {s : State} {a : Bool} {rest : List Bool} (rate : Word)
    (h : s.env.linkAnswers = a :: rest) : s.linkAnswer rate = a := by
  rw [State.linkAnswer, h]

/-- Settles O40: the answer is `linkAnswer`, the head of the list of answers where there is one. -/
theorem pendingRateIsAppliedAtTheSafePoint : Obligations.PendingRateIsAppliedAtTheSafePoint :=
  fun s => ⟨fun hp hs => ⟨s.linkAnswer s.pendingBaud, tryBaud_of_safe hp hs, fun _ _ h => linkAnswer_of_cons _ h⟩,
    tryBaud_of_not⟩

/-! ## P4 -/

/-- R120: a DONE stage reports the head task, retires it and moves on. -/
theorem completeTask_eq {s : State} {g : Stage} (c : EvtCode) (d : Dir) (hg : g ≠ s.stage) :
    setStage g (retire (postEvent c d s.head.xfer s)) = { s with
      evt := { code := c, dir := d.bit, count := s.head.xfer },
      err := { s.err with evtOvf := s.err.evtOvf || decide (s.evt.code ≠ .none) },
      taskq := s.taskq.tail, active := false, stage := g,
      sfifo := (sfifoPush (statusByte s.conn g) s).sfifo } := by
  rw [setStage_of_ne (by exact hg), ← EvtCode.bne_none_eq_decide]
  rfl

/-- Settles O39, on the stage. -/
theorem bridgeServicesTheStage : Obligations.BridgeServicesTheStage := by
  refine fun s => ⟨fun h => ?_, fun h => ?_, fun h => ?_, fun h => ?_, fun h => ?_⟩
  · simp only [bridge, h]
    exact completeTask_eq .txDone .read (by simp [h])
  · simp only [bridge, h, setStage_retire_comm]
    exact completeTask_eq .rxDone .write (by simp [h])
  · rcases h with h | h <;> simp only [bridge, h]
  · simp only [bridge, h]
  · simp only [List.mem_cons, List.not_mem_nil, or_false] at h
    rcases h with h | h | h | h <;> simp only [bridge, h]

/-! ## The rate and the ring over a POLL -/

/-- What P4 does to the rate and the ring (R125): nothing, or the pending rate is served, applied or not, with the ring
flushed. -/
inductive RateStep (s t : State) : Prop
  | kept (rxq : t.rxq = s.rxq) (curBaud : t.curBaud = s.curBaud)
  | served (pending : s.baudPending = true) (done : t.baudPending = false) (rxq : t.rxq = [])
      (curBaud : t.curBaud = s.pendingBaud ∨ t.curBaud = s.curBaud)

theorem tryBaud_rateStep (s : State) : RateStep s (tryBaud s) := by
  by_cases h : s.baudPending = true ∧ s.baudSafe = true
  · obtain ⟨hp, hs⟩ := h
    rw [tryBaud_of_safe hp hs]
    exact .served hp rfl rfl (ite_eq_or_eq _ _ _)
  · rw [tryBaud_of_not h]
    exact .kept rfl rfl

theorem RateStep.codec_right {s t u : State} (h : RateStep s t) (k : CodecKeeps t u) : RateStep s u := by
  cases h with
  | kept hq hc => exact .kept (k.rxq.trans hq) (k.curBaud.trans hc)
  | served hp hd hq hc => exact .served hp (k.baudPending.trans hd) (k.rxq.trans hq) (by rwa [k.curBaud])

theorem RateStep.of_codec {s t : State} (h : CodecKeeps s t) : RateStep s t := .kept h.rxq h.curBaud

theorem bridge_rateStep (s : State) : RateStep s (bridge s) := by
  unfold bridge
  cases s.stage with
  | dataSendDone =>
    exact .of_codec (((postEvent_keeps _ _ _ s).trans (retire_keeps _)).trans (setStage_keeps _ _))
  | dataRecvDone =>
    exact .of_codec (((setStage_keeps _ s).trans (postEvent_keeps _ _ _ _)).trans (retire_keeps _))
  | sendAck | waitAck => exact (tryBaud_rateStep s).codec_right (setStage_keeps _ _)
  | cmdRecv =>
    simp only
    split
    · exact .kept rfl rfl
    · exact tryBaud_rateStep s
  | dataSend | dataSendBuf | dataRecv | dataRecvBuf => exact .kept rfl rfl

/-- P1 to P3 empty the ring, and keep otherwise what the codec keeps: the rate too. -/
theorem codecPhases_codecKeeps (s : State) :
    CodecKeeps { s with rxq := [] } (txStart (timers (drain s.rxq s))) := by
  obtain ⟨hdrain, hring⟩ := drain_keeps s.rxq s
  rw [hring rfl] at hdrain
  exact hdrain.trans ((timers_keeps _).trans (txStart_keeps _))

/-- P1 empties the ring, and P4 serves the rate at most once. -/
theorem pollPhases_rateStep (s : State) :
    RateStep { s with rxq := [] } (activate (bridge (txStart (timers (drain s.rxq s))))) := by
  have hbefore := codecPhases_codecKeeps s
  have hafter := (bridge_rateStep (txStart (timers (drain s.rxq s)))).codec_right (activate_keeps _)
  cases hafter with
  | kept hq hc => exact .kept (hq.trans hbefore.rxq) (hc.trans hbefore.curBaud)
  | served hp hd hq hc =>
    exact .served (hbefore.baudPending.symm.trans hp) hd hq (by rwa [hbefore.pendingBaud, hbefore.curBaud] at hc)

theorem RateStep.ring_empty {s t : State} (h : RateStep { s with rxq := [] } t) : t.rxq = [] := by
  cases h with
  | kept hq _ => exact hq
  | served _ _ hq _ => exact hq

theorem RateStep.applied {s t : State} (h : RateStep s t) (hne : t.curBaud ≠ s.curBaud) :
    s.baudPending = true ∧ t.curBaud = s.pendingBaud ∧ t.baudPending = false := by
  cases h with
  | kept _ hc => exact absurd hc hne
  | served hp hd _ hc => exact ⟨hp, hc.resolve_right hne, hd⟩

/-- R119, R125: an enabled POLL leaves the ring empty, and the rate changes only when the pending one is applied. -/
theorem execPoll_ring_rate {s t : State} (h : exec .poll s = .next t) :
    (s.en = true → t.rxq = []) ∧
    (t.curBaud ≠ s.curBaud → s.baudPending = true ∧ t.curBaud = s.pendingBaud ∧ t.baudPending = false) := by
  cases h
  split
  · exact ⟨fun _ => (pollPhases_rateStep s).ring_empty, (pollPhases_rateStep s).applied⟩
  · rename_i he
    exact ⟨fun h => absurd h he, fun h => absurd rfl h⟩

/-- Settles O32: `PollKeeps` for the frame, and `execPoll_ring_rate` for the ring and the rate. -/
theorem pollFrame : Obligations.PollFrame := by
  intro s
  obtain ⟨t, ht⟩ := CommandRow.poll.answers s
  obtain ⟨hring, hrate⟩ := execPoll_ring_rate ht
  have hk := execPoll_keeps ht
  obtain ⟨hinputs, hrdata, hresets⟩ := hk.env
  exact ⟨t, ht, hk.en, hk.now, hk.settings, hk.operands, hk.pendingBaud, hk.crc, hk.err, hk.evtOvf, hk.baud, hring,
    hk.txout, hinputs, hrdata, hresets, hk.firstConnect, hk.conn, hrate⟩

end Sys2Proof.Machine
end

section
/-! The pins (R130 to R132): what a received byte and a tick do, and the transmitted stream, which only an enabled POLL
extends. -/

namespace Sys2Proof.Machine

/-! ## RX_BYTE and MS_TICK -/

/-- R130: an enabled block takes the byte unless the ring is full. -/
theorem exec_rxByte_of_enabled {s : State} (b : Byte) (he : s.en = true) :
    exec (.rxByte b) s = .next (if s.rxq.length = Config.rxqDepth then { s with err := { s.err with rxOvf := true } }
      else { s with rxq := s.rxq ++ [b] }) :=
  (next_ite_en s _ s).1 he

/-- Settles O57: EN, then the ring's length, decide what a byte does; a tick's sum is that of 32-bit words. -/
theorem pinEventsActAsGiven : Obligations.PinEventsActAsGiven := by
  refine fun s b => ⟨fun he hfull => ?_, fun he hroom => ?_, exec_rxByte_of_disabled b,
    s.now + 1, rfl, BitVec.toNat_add s.now 1⟩
  · rw [exec_rxByte_of_enabled b he, if_pos hfull]
  · rw [exec_rxByte_of_enabled b he, if_neg hroom]

/-! ## The transmitted stream -/

/-- What a step for the agent step `i` does to the transmitted stream (R132): nothing, or it is an enabled POLL, which
appends. -/
inductive OutputStep (i : Input) (s t : State) : Prop
  | same (txout : t.env.txout = s.env.txout)
  | poll (enabled : s.en = true) (row : decodeInput i = .cmdWrite 0x03000000) (grown : s.env.txout <+: t.env.txout)

theorem execPoll_outputStep {i : Input} {s t : State} (hi : decodeInput i = .cmdWrite 0x03000000)
    (h : exec .poll s = .next t) : OutputStep i s t := by
  cases he : s.en with
  | true => exact .poll he hi (execPoll_keeps h).txout
  | false =>
    rw [(pollRunsItsPhasesInOrder s).2 he] at h
    cases h
    exact .same rfl

theorem submit_env (d : Dir) (s : State) : (submit d s).env = s.env := by
  unfold submit
  split <;> rfl

theorem CommandRow.outputStep {w : Word} {i : Input} {c : Instr} {s t : State} (hc : CommandRow w c)
    (hi : decodeInput i = .cmdWrite w) (h : exec c s = .next t) : OutputStep i s t := by
  cases hc with
  | poll => exact execPoll_outputStep hi h
  | submitRead => cases h; exact .same (congrArg Env.txout (submit_env .read s))
  | submitWrite => cases h; exact .same (congrArg Env.txout (submit_env .write s))
  | deinit | baudSet => cases h; split <;> exact .same rfl
  | init | invalid w => cases h; exact .same rfl

theorem step_outputStep {i : Input} {rest : List Input} {s t : State} (hin : s.env.inputs = i :: rest)
    (hstep : step s = .next t) : OutputStep i (s.withInputs rest) t := by
  rw [step_of_inputs_cons hin] at hstep
  rcases inputStep_cases hstep with hreset | ⟨w, hw⟩ | ⟨v, -, rfl⟩ | hquiet
  · subst hreset
    cases hstep
    exact .same rfl
  · rw [hw, exec_cmdWrite] at hstep
    exact (decodeCmd_commandRow w).outputStep hw hstep
  · exact .same rfl
  · exact .same hquiet.txout

/-- Settles O59, over the cases of `OutputStep`. -/
theorem onlyPollTransmits : Obligations.OnlyPollTransmits := by
  intro s t i rest hin hstep
  cases step_outputStep hin hstep with
  | same htxout => exact ⟨htxout ▸ List.prefix_rfl, fun hne => absurd htxout hne⟩
  | poll he hrow hgrown => exact ⟨hgrown, fun _ => ⟨he, hrow⟩⟩

end Sys2Proof.Machine
end

section
/-! The events (R136 to R140): the latch and the interrupt, and the one event that a POLL can post. -/

namespace Sys2Proof.Machine

/-! ## The latch and the interrupt -/

/-- R136: `NONE` alone has the code 0. -/
theorem EvtCode.code_ne_zero_iff (c : EvtCode) : c.code ≠ 0 ↔ c ≠ .none := by cases c <;> decide

/-- R18: IRQ_EN is the lowest bit of CTRL. -/
theorem regValue_ctrl_irqEn (s : State) : (regValue s .ctrl).getLsbD 0 = s.settings.irqEn := by
  simp only [regValue, Settings.ctrlWord, BitVec.getLsbD_append]
  simp

/-- R33: CODE is the lowest field of EVT. -/
theorem regValue_evt_code (s : State) : (regValue s .evt).extractLsb' 0 4 = s.evt.code.code := by
  obtain ⟨-, -, -, -, -, ⟨hcode, -⟩, -⟩ := readOnlyRegistersReportTheirFields.2 s
  exact hcode

/-- R140: the interrupt is on exactly when it is enabled and the latch is full. -/
theorem irq_iff {s : State} : s.irq = true ↔ s.settings.irqEn = true ∧ s.evt.code ≠ .none := by
  simp [State.irq, State.evtValid]

/-- R137: EVT_OVF after a post, by the latch before it. -/
theorem postEvent_evtOvf (c : EvtCode) (d : Dir) (n : BitVec 17) (s : State) :
    (postEvent c d n s).err.evtOvf = if s.evt.code = .none then s.err.evtOvf else true := by
  by_cases h : s.evt.code = .none <;> simp [h]

/-- Settles O58: the two fields that a post writes, and the level read back from CTRL and EVT. -/
theorem latchKeepsTheNewestEvent : Obligations.LatchKeepsTheNewestEvent := by
  refine fun s c d n => ⟨?_, ?_⟩
  · rw [← postEvent_evtOvf c d n s, ← Dir.bit_eq_decide]
    rfl
  · rw [regValue_ctrl_irqEn, regValue_evt_code, EvtCode.code_ne_zero_iff, irq_iff]

/-! ## One event in one POLL

R139's reason: an event comes with the end of the active task, and only P5, which posts nothing, activates a task. So
from an empty latch on, the latch stays empty for as long as a task is active. -/

/-- EVT_OVF has the value `ovf`, and the latch is empty as long as a task is active: the event that ends the task is
not lost. -/
structure LatchReady (ovf : Bool) (s : State) : Prop where
  evtOvf : s.err.evtOvf = ovf
  empty : s.active = true → s.evt.code = .none

namespace LatchReady

variable {ovf : Bool} {s t : State}

/-- An operation that posts no event and ends no task. -/
theorem of_same (h : LatchReady ovf s) (ha : t.active = s.active) (hv : t.evt = s.evt) (he : t.err = s.err) :
    LatchReady ovf t :=
  ⟨by rw [he]; exact h.evtOvf, by rw [ha, hv]; exact h.empty⟩

/-- R137: the event posted with the end of the active task finds the latch empty. -/
theorem of_post (h : LatchReady ovf s) (hb : s.active = true) (hi : t.active = false)
    (he : t.err.evtOvf = (s.err.evtOvf || s.evt.code != .none)) : LatchReady ovf t := by
  refine ⟨?_, by simp [hi]⟩
  rw [he, h.empty hb, ← h.evtOvf]
  simp

end LatchReady

section Phases

variable {ovf : Bool} {s : State}

theorem setStage_latchReady (g : Stage) (h : LatchReady ovf s) : LatchReady ovf (setStage g s) :=
  h.of_same (by simp) (by simp) (by simp)

theorem abort_latchReady (c : EvtCode) (can : Bool) (h : LatchReady ovf s) (hb : s.active = true) :
    LatchReady ovf (abort c can s) :=
  h.of_post hb (by simp) (by simp)

theorem txStage_latchReady (h : LatchReady ovf s) : LatchReady ovf (txStage s) := h.of_same rfl rfl rfl

theorem txAck_latchReady (h : LatchReady ovf s) : LatchReady ovf (txAck s) := by
  unfold txAck txContinue
  split
  · exact h.of_same (by simp) (by simp) (by simp)
  · exact h.of_same rfl rfl rfl

theorem txFail_latchReady (h : LatchReady ovf s) (hb : s.active = true) : LatchReady ovf (txFail s) := by
  unfold txFail
  split
  · exact h.of_same rfl rfl rfl
  · exact abort_latchReady _ _ h hb

theorem txStart_latchReady (h : LatchReady ovf s) : LatchReady ovf (txStart s) := by
  unfold txStart
  split
  · exact txStage_latchReady (setStage_latchReady _ h)
  · exact h

theorem rxFail_latchReady (h : LatchReady ovf s) : LatchReady ovf (rxFail s) := by
  unfold rxFail
  split
  · rename_i hr
    split
    · exact h.of_same rfl rfl rfl
    · exact abort_latchReady _ _ h (receiving_iff.mp hr).1
  · exact h.of_same rfl rfl rfl

theorem rxStore_latchReady (h : LatchReady ovf s) : LatchReady ovf (rxStore s) := by
  rw [rxStore, storeBytes_eq]
  exact h.of_same rfl rfl rfl

theorem rxAccept_latchReady (h : LatchReady ovf s) : LatchReady ovf (rxAccept s) := by
  have hstore := rxStore_latchReady h
  unfold rxAccept rxReached rxBegun
  split <;> split <;> exact hstore.of_same (by simp) (by simp) (by simp)

theorem sequenceFrame_latchReady (h : LatchReady ovf s) : LatchReady ovf (sequenceFrame s) := by
  unfold sequenceFrame
  split
  · exact rxAccept_latchReady h
  · split
    · exact h.of_same rfl rfl rfl
    · split
      · rename_i hr
        split
        · exact abort_latchReady _ _ h (receiving_iff.mp hr).1
        · exact rxFail_latchReady h
      · exact h.of_same rfl rfl rfl

theorem frameEnd_latchReady (b : Byte) (h : LatchReady ovf s) : LatchReady ovf (frameEnd b s) := by
  unfold frameEnd
  split
  · exact sequenceFrame_latchReady (h.of_same rfl rfl rfl)
  · exact rxFail_latchReady h

/-- R81: of the bytes of a frame, the last alone can end a task. -/
theorem deframe_latchReady (b : Byte) (h : LatchReady ovf s) : LatchReady ovf (deframe b s) := by
  unfold deframe deframeAt
  cases (countByte s).df.state with
  | hunt | blk | nblk | data | crcLo => exact h.of_same rfl rfl rfl
  | crcHi => exact frameEnd_latchReady b (h.of_same rfl rfl rfl)

theorem HeaderStep.latchReady {t : State} (hstep : HeaderStep s t) (h : LatchReady ovf s) : LatchReady ovf t := by
  cases hstep with
  | ignored => exact h
  | begun k => exact h.of_same rfl rfl rfl
  | acked _ => exact txAck_latchReady h
  | naked hw => exact txFail_latchReady h (awaitingAck_iff.mp hw).1
  | aborted ha => exact abort_latchReady _ _ h (abortable_iff.mp ha).1

theorem rxByte_latchReady (b : Byte) (h : LatchReady ovf s) : LatchReady ovf (rxByte b s) := by
  unfold rxByte
  split
  · split
    · exact h.of_same rfl rfl rfl
    · exact h
  · exact deframe_latchReady b h
  · exact (headerByte_headerStep b s).latchReady h

theorem drain_latchReady (bs : List Byte) (h : LatchReady ovf s) : LatchReady ovf (drain bs s) := by
  induction bs generalizing s with
  | nil => exact h
  | cons b rest ih => exact ih (rxByte_latchReady b (h.of_same rfl rfl rfl))

theorem partialFrameTimer_latchReady (h : LatchReady ovf s) : LatchReady ovf (partialFrameTimer s) := by
  unfold partialFrameTimer
  split
  · exact rxFail_latchReady (h.of_same rfl rfl rfl)
  · exact h

theorem ackTimer_latchReady (h : LatchReady ovf s) : LatchReady ovf (ackTimer s) := by
  unfold ackTimer
  split
  · rename_i hdue
    exact txFail_latchReady h (awaitingAck_iff.mp hdue.1).1
  · exact h

theorem timers_latchReady (h : LatchReady ovf s) : LatchReady ovf (timers s) := by
  cases hc : s.conn with
  | detecting =>
    rw [timers_detecting hc, sigATimer]
    split
    · exact h.of_same rfl rfl rfl
    · exact h
  | connected =>
    rw [timers_connected hc]
    exact ackTimer_latchReady (partialFrameTimer_latchReady h)

/-- The link's answer touches BAUD_ERR alone of the flags (R125). -/
theorem tryBaud_latchReady (h : LatchReady ovf s) : LatchReady ovf (tryBaud s) := by
  unfold tryBaud applyBaud
  split
  · split <;> exact ⟨h.evtOvf, h.empty⟩
  · exact h

/-- R120: the task of a DONE stage is active by the invariant, so its event finds the latch empty. -/
theorem bridge_latchReady (hinv : BlockInv s) (h : LatchReady ovf s) : LatchReady ovf (bridge s) := by
  unfold bridge
  cases hs : s.stage with
  | dataSendDone | dataRecvDone =>
    have hb : s.active = true := by rw [hinv.stage.transfer, hs]; rfl
    exact h.of_post hb (by simp) (by simp)
  | sendAck | waitAck => exact setStage_latchReady _ (tryBaud_latchReady h)
  | cmdRecv =>
    simp only
    split
    · exact h
    · exact tryBaud_latchReady h
  | dataSend | dataSendBuf | dataRecv | dataRecvBuf => exact h

end Phases

/-- R112: P5 posts no event. -/
theorem activate_err (s : State) : (activate s).err = s.err := by
  unfold activate
  split
  · simp
  · rfl

/-- Settles O34: P1 to P4 keep `LatchReady`, the event with which a task ends included, and P5 posts nothing. -/
theorem onePollPostsAtMostOneEvent : Obligations.OnePollPostsAtMostOneEvent := by
  intro s t h hempty hpoll
  cases hpoll
  split
  · rename_i he
    have hinv : BlockInv (txStart (timers (drain s.rxq s))) :=
      txStart_inv (timers_inv (drain_inv h.inv he h.inv.rx.ring))
    have hstart : LatchReady s.err.evtOvf s := ⟨rfl, fun _ => hempty⟩
    have hcodec : LatchReady s.err.evtOvf (txStart (timers (drain s.rxq s))) :=
      txStart_latchReady (timers_latchReady (drain_latchReady _ hstart))
    rw [activate_err]
    exact (bridge_latchReady hinv hcodec).evtOvf
  · rfl

end Sys2Proof.Machine
end

section
/-! RESET (R151): the registers and the fields after it, and that the block it leaves is disabled. -/

namespace Sys2Proof.Machine

/-- The CRC function and the environment stand in no register. -/
theorem regValue_with_crc_env (s : State) (f : CrcFn) (e : Env) (r : Reg) :
    regValue { s with crc := f, env := e } r = regValue s r := by
  cases r <;> rfl

/-- R17: the registers that read a value other than 0 after RESET are those R151 lists. -/
theorem regValue_reset_eq_zero {r : Reg} (h : r ∉ [Reg.status, .seq, .retry, .tack, .trx, .curBaud]) :
    regValue State.reset r = 0 := by
  cases r with
  | status | seq | retry | tack | trx | curBaud => exact absurd h (by decide)
  | _ => decide

/-- R151 gives the CRC function and the environment no value, so the reset values hold whatever these are. -/
theorem resetValues_of_any (f : CrcFn) (e : Env) : ResetValues { State.reset with crc := f, env := e } where
  session := ⟨rfl, rfl, rfl, rfl, rfl, rfl, rfl, rfl⟩
  times := ⟨rfl, rfl, rfl, rfl⟩
  deframer := rfl
  transmit := ⟨rfl, rfl, rfl⟩
  queues := ⟨rfl, rfl, rfl, rfl⟩
  latch := rfl
  flags := rfl
  settings := rfl
  operands := rfl
  baud := ⟨rfl, rfl, rfl⟩
  registers := by
    simp only [regValue_with_crc_env]
    exact ⟨statusReportsLiveState.1, rfl, rfl, rfl, rfl, rfl, fun _ => regValue_reset_eq_zero⟩
  interrupt := irq_of_no_event rfl

/-- RESET keeps the CRC function and, but for the count of resets, the environment. -/
theorem exec_reset (s : State) :
    exec .reset s
      = .next { State.reset with crc := s.crc, env := { s.env with resets := s.env.resets + 1 } } := rfl

/-- Settles O11: `resetValues_of_any` holds of `State.reset` and of the state after RESET, which is disabled, so that
a POLL and a received byte leave it as it is. -/
theorem resetSetsEveryField : Obligations.ResetSetsEveryField := by
  refine ⟨resetValues_of_any .xmodem .quiet, fun s => ⟨_, exec_reset s, resetValues_of_any _ _, rfl, ?poll, ?rxByte⟩⟩
  case poll => exact (pollRunsItsPhasesInOrder _).2 rfl
  case rxByte => exact fun b => exec_rxByte_of_disabled b rfl

end Sys2Proof.Machine
end

section
/-! Decoder and encoder (R17, R39-R43, R54, R57, R58, R72): every well-formed instruction is read back from its image, and
every image that decodes is the image of the well-formed instruction it decodes to. -/

namespace Sys2Proof.Machine

/-- Settles O6: the family `RoundTrip` has the lemma of every row. -/
theorem decodeOfEncodeIsTheInstruction : Obligations.DecodeOfEncodeIsTheInstruction := by
  intro i
  change Laws.RoundTrip.Statement i
  cases i with
  | init => exact Laws.RoundTrip.init
  | deinit => exact Laws.RoundTrip.deinit
  | poll => exact Laws.RoundTrip.poll
  | submitRead => exact Laws.RoundTrip.submitRead
  | submitWrite => exact Laws.RoundTrip.submitWrite
  | baudSet => exact Laws.RoundTrip.baudSet
  | cmdInvalid w => exact Laws.RoundTrip.cmdInvalid w
  | soh => exact Laws.RoundTrip.soh
  | stx => exact Laws.RoundTrip.stx
  | ack => exact Laws.RoundTrip.ack
  | nak => exact Laws.RoundTrip.nak
  | can => exact Laws.RoundTrip.can
  | sigA => exact Laws.RoundTrip.sigA
  | noise b => exact Laws.RoundTrip.noise b
  | sigC => exact Laws.RoundTrip.sigC
  | detectOther b => exact Laws.RoundTrip.detectOther b
  | frameByte b => exact Laws.RoundTrip.frameByte b
  | frameShort blk nblk payload lo hi => exact Laws.RoundTrip.frameShort blk nblk payload lo hi
  | frameLong blk nblk payload lo hi => exact Laws.RoundTrip.frameLong blk nblk payload lo hi
  | reset => exact Laws.RoundTrip.reset
  | msTick => exact Laws.RoundTrip.msTick
  | rxByte b => exact Laws.RoundTrip.rxByte b
  | regRead r => exact Laws.RoundTrip.regRead r
  | regWrite r v => exact Laws.RoundTrip.regWrite r v
  | cmdWrite w => exact Laws.RoundTrip.cmdWrite w
  | errW1c v => exact Laws.RoundTrip.errW1c v
  | evtClr v => exact Laws.RoundTrip.evtClr v
  | sfifoPop => exact Laws.RoundTrip.sfifoPop
  | scrRead size k => exact Laws.RoundTrip.scrRead size k
  | scrWrite size k v => exact Laws.RoundTrip.scrWrite size k v
  | regBadAccess a => exact Laws.RoundTrip.regBadAccess a
  | regUnmapped a => exact Laws.RoundTrip.regUnmapped a

/-- The instruction is well formed and `image` is its image. -/
def HasImage (i : Instr) (image : Image) : Prop := i.wellFormed = true ∧ encode i = image

/-! ## Command words and received bytes -/

/-- R54: a valid command word is the word of one of the six operations. -/
theorem exists_op_of_validCommandWord {w : Word} (h : validCommandWord w = true) : ∃ o : CmdOp, w = o.word := by
  rw [validCommandWord, Bool.and_eq_true, beq_iff_eq, List.any_eq_true] at h
  obtain ⟨hlow, o, -, hcode⟩ := h
  exact ⟨o, (eq_append_of_low_zero hlow).trans (by rw [← beq_iff_eq.mp hcode]; rfl)⟩

theorem decodeCmd_hasImage (w : Word) : HasImage (decodeCmd w) (.cmd32 w) := by
  cases hv : validCommandWord w with
  | true =>
    obtain ⟨o, rfl⟩ := exists_op_of_validCommandWord hv
    cases o <;> exact ⟨rfl, rfl⟩
  | false =>
    have hrow : decodeCmd w = .cmdInvalid w := by rw [decodeCmd, Laws.RoundTrip.decodeOp_invalid hv]
    rw [hrow]
    exact ⟨by rw [Instr.wellFormed, hv]; rfl, rfl⟩

theorem decodeHeaderByte_hasImage (b : Byte) : HasImage (decodeHeaderByte b) (.wire8 .header b) := by
  rw [decodeHeaderByte]
  split_ifs with hsoh hstx hack hnak hcan hsigA
  · exact ⟨rfl, hsoh ▸ rfl⟩
  · exact ⟨rfl, hstx ▸ rfl⟩
  · exact ⟨rfl, hack ▸ rfl⟩
  · exact ⟨rfl, hnak ▸ rfl⟩
  · exact ⟨rfl, hcan ▸ rfl⟩
  · exact ⟨rfl, hsigA ▸ rfl⟩
  · have hb : b ∉ headerRowBytes := by
      simp only [headerRowBytes, List.mem_cons, List.not_mem_nil, hsoh, hstx, hack, hnak, hcan, hsigA, or_self,
        not_false_eq_true]
    exact ⟨by rw [Instr.wellFormed, Bool.not_eq_true', List.contains_eq_mem, decide_eq_false hb], rfl⟩

theorem decodeWire_hasImage (ctx : WireCtx) (b : Byte) : HasImage (decodeWire ctx b) (.wire8 ctx b) := by
  cases ctx with
  | header => exact decodeHeaderByte_hasImage b
  | inFrame => exact ⟨rfl, rfl⟩
  | detecting =>
    rw [decodeWire]
    split
    case isTrue h => exact ⟨rfl, h ▸ rfl⟩
    case isFalse h => exact ⟨bne_iff_ne.mpr h, rfl⟩

/-! ## Frames -/

/-- R58: a frame body that decodes is its fields, with a payload of the declared length. -/
theorem decodeFrameBody_eq_ok {len : Nat} {mk : Byte → Byte → List Byte → Byte → Byte → Instr} {body : List Byte}
    {i : Instr} (h : decodeFrameBody len mk body = .ok i) :
    ∃ blk nblk payload lo hi, payload.length = len ∧ body = blk :: nblk :: payload ++ [lo, hi] ∧
      i = mk blk nblk payload lo hi := by
  unfold decodeFrameBody at h
  split at h
  case h_2 => cases h
  case h_1 blk nblk rest =>
    split at h
    case h_2 => cases h
    case h_1 lo hi hdrop =>
      cases h
      have hlen : rest.length - len = 2 := by rw [← List.length_drop, hdrop]; rfl
      refine ⟨blk, nblk, rest.take len, lo, hi, List.length_take_of_le (by omega), ?_, rfl⟩
      rw [← hdrop, List.cons_append, List.cons_append, List.take_append_drop]

theorem decodeFrame_hasImage {bytes : List Byte} {i : Instr} (h : decodeFrame bytes = .ok i) :
    HasImage i (.frame bytes) := by
  cases bytes with
  | nil => cases h
  | cons header body =>
    rw [decodeFrame] at h
    split_ifs at h with hshort hlong
    · obtain ⟨blk, nblk, payload, lo, hi, hlen, rfl, rfl⟩ := decodeFrameBody_eq_ok h
      exact ⟨beq_iff_eq.mpr hlen, hshort ▸ rfl⟩
    · obtain ⟨blk, nblk, payload, lo, hi, hlen, rfl, rfl⟩ := decodeFrameBody_eq_ok h
      exact ⟨beq_iff_eq.mpr hlen, hlong ▸ rfl⟩

/-! ## Bus accesses and pin events -/

/-- R17: the register found at an offset stands there. -/
theorem offset_of_regAt {off : BitVec 17} {r : Reg} (h : regAt off = some r) : r.offset = off :=
  beq_iff_eq.mp (List.find?_some (p := fun r : Reg => r.offset == off) h)

/-- R17: an offset with no register is not listed. -/
theorem listedOffset_of_regAt_none {off : BitVec 17} (h : regAt off = none) : listedOffset off = false := by
  simpa [listedOffset, regAt] using h

theorem decodeRegAccess_hasImage {r : Reg} {a : BusAccess} (hsize : a.size = .b4) (hoff : r.offset = a.off) :
    HasImage (decodeRegAccess r a) (.input (.bus a)) := by
  cases a with
  | read size off =>
    cases hsize
    cases hoff
    rw [decodeRegAccess]
    split
    case isTrue h => exact ⟨rfl, h ▸ rfl⟩
    case isFalse h => exact ⟨bne_iff_ne.mpr h, rfl⟩
  | write size off v =>
    cases hsize
    cases hoff
    rw [decodeRegAccess]
    split_ifs with hcmd herr hclr
    · exact ⟨rfl, hcmd ▸ rfl⟩
    · exact ⟨rfl, herr ▸ rfl⟩
    · exact ⟨rfl, hclr ▸ rfl⟩
    · exact ⟨by simp [Instr.wellFormed, hcmd, herr, hclr], rfl⟩

/-- R39: an offset in the scratch window is that of its scratch byte. -/
theorem scratchOffset_setWidth {off : BitVec 17} (h : 0x10000 ≤ off.toNat) : scratchOffset (off.setWidth 16) = off := by
  apply BitVec.eq_of_toNat_eq
  rw [Laws.RoundTrip.scratchOffset_toNat, BitVec.toNat_setWidth]
  omega

theorem decodeScratchAccess_hasImage {a : BusAccess} (h : 0x10000 ≤ a.off.toNat) :
    HasImage (decodeScratchAccess a) (.input (.bus a)) := by
  cases a with
  | read size off => exact ⟨rfl, by rw [decodeScratchAccess, encode, scratchOffset_setWidth (off := off) h]⟩
  | write size off v => exact ⟨rfl, by rw [decodeScratchAccess, encode, scratchOffset_setWidth (off := off) h]⟩

theorem decodeBus_hasImage (a : BusAccess) : HasImage (decodeBus a) (.input (.bus a)) := by
  unfold decodeBus
  split_ifs with hpage haligned
  · split
    case h_1 r hr => exact decodeRegAccess_hasImage (wordAligned_iff.mp haligned).1 (offset_of_regAt hr)
    case h_2 hr => exact ⟨by simp [Instr.wellFormed, hpage, haligned, listedOffset_of_regAt_none hr], rfl⟩
  · exact ⟨by simp [Instr.wellFormed, hpage, haligned], rfl⟩
  · exact decodeScratchAccess_hasImage (by rw [inRegisterPage_iff] at hpage; omega)

theorem decodeInput_hasImage (i : Input) : HasImage (decodeInput i) (.input i) := by
  cases i with
  | bus a => exact decodeBus_hasImage a
  | rxByte b => exact ⟨rfl, rfl⟩
  | msTick => exact ⟨rfl, rfl⟩
  | reset => exact ⟨rfl, rfl⟩

/-- Settles O7, by the four formats of an image. -/
theorem encodeOfDecodeIsTheImage : Obligations.EncodeOfDecodeIsTheImage := by
  intro image i h
  change HasImage i image
  cases image with
  | cmd32 w => cases h; exact decodeCmd_hasImage w
  | wire8 ctx b => cases h; exact decodeWire_hasImage ctx b
  | frame bytes => exact decodeFrame_hasImage h
  | input a => cases h; exact decodeInput_hasImage a

end Sys2Proof.Machine
end
